-- ==== Sys2Proof/Word.lean ====
section
/-! DEFINITION. The words of the block (00_scope R9, 30_encoding R62, R63, R65, R72) and the width
function of 10_state. -/

namespace Sys2Proof

/-- A pixel word: 18 bits, SET in bits 8:0 and CLR in bits 17:9 (30_encoding R62). -/
abbrev Pixel := BitVec 18

/-- A colour request: 9 flag bits, also the layout of the colour lines (30_encoding R63). -/
abbrev Flags := BitVec 9

/-- The four phases of a line, in the order they fire (30_encoding R65). -/
inductive Phase where
  | ss
  | bp
  | ad
  | fp
deriving DecidableEq, Repr

/-- The event that follows in the fixed order of a line (42_scan_timing R89). -/
def Phase.next : Phase → Phase
  | .ss => .bp
  | .bp => .ad
  | .ad => .fp
  | .fp => .ss

/-- The two sync lines (30_encoding R72). -/
inductive SyncLine where
  | horizontal
  | vertical
deriving DecidableEq, Repr

/-- The search behind `clog2`: the first exponent from `b` on whose power reaches `x`. -/
def clog2From : Nat → Nat → Nat → Nat
  | 0, b, _ => b
  | fuel + 1, b, x => if x ≤ 2 ^ b then b else clog2From fuel (b + 1) x

/-- `clog2(x)`, the smallest `b >= 1` with `2^b >= x` (10_state, opening). -/
def clog2 (x : Nat) : Nat := clog2From x 1 x

end Sys2Proof
end

