-- ==== Sys2Proof/Config.lean ====
section
/-! DEFINITION. The configuration constants of 00_scope R6, fixed when the block is built, and the
free values: what the spec leaves open and gives no value (constants without a body). -/

namespace Sys2Proof

/-- The build-time parameters of 00_scope R6, under the spec's names. `P` is the length of `palette`.
The flags of `borderFlags` and `palette` are 9 bits wide by their type (V8 of R7; log 22). -/
structure Params where
  w : Nat
  h : Nat
  v : Nat
  t : Nat
  vsOn : Nat
  vsOff : Nat
  bandTop : Nat
  bandBot : Nat
  linePeriod : Nat
  offSs : Nat
  offBp : Nat
  offAd : Nat
  offFp : Nat
  borderCycles : Nat
  pixelCycles : Nat
  borderFlags : Flags
  palette : List Flags
  hold : Nat
  chunk : Nat
  /-- `VSYNC_ACTIVE_LEVEL`; `true` is level 1. -/
  vsyncActiveLevel : Bool
  entryLat : Nat
  latSs : Nat
  latBp : Nat
  latBpv : Nat
  latAd : Nat
  latFp : Nat
  durMinSs : Nat
  durMaxSs : Nat
  durMinBp : Nat
  durMaxBp : Nat
  durMinAd : Nat
  durMaxAd : Nat
  durMinFp : Nat
  durMaxFp : Nat
deriving DecidableEq, Repr

namespace Params

/-- `N = W * H` (00_scope R8). -/
def n (c : Params) : Nat := c.w * c.h

/-- `LPR = V / H` (00_scope R8). -/
def lpr (c : Params) : Nat := c.v / c.h

/-- `P`, the length of the palette (00_scope R6). -/
def p (c : Params) : Nat := c.palette.length

/-- `OFF_k` (00_scope R6). -/
def off (c : Params) : Phase → Nat
  | .ss => c.offSs
  | .bp => c.offBp
  | .ad => c.offAd
  | .fp => c.offFp

/-- `DUR_MIN_k` (00_scope R6). -/
def durMin (c : Params) : Phase → Nat
  | .ss => c.durMinSs
  | .bp => c.durMinBp
  | .ad => c.durMinAd
  | .fp => c.durMinFp

/-- `DUR_MAX_k` (00_scope R6). -/
def durMax (c : Params) : Phase → Nat
  | .ss => c.durMaxSs
  | .bp => c.durMaxBp
  | .ad => c.durMaxAd
  | .fp => c.durMaxFp

end Params

/-- The validity conditions V1 to V10 of 00_scope R7, by name. -/
inductive ConfigCheck where
  | v1
  | v2
  | v3
  | v4
  | v5
  | v6
  | v7
  | v8
  | v9
  | v10
deriving DecidableEq, Repr

namespace Config

/-- `HSYNC_ACTIVE_LEVEL`, fixed at 0 (00_scope R6). -/
def hsyncActiveLevel : Bool := false

/-- Colour channels, `CH` (00_scope R6). -/
def ch : Nat := 3

/-- Intensity flag bits of a channel, `CB` (00_scope R6). -/
def cb : Nat := 3

/-- FREE VALUE. What cell `i` of the Frame Buffer holds before anything is written to it:
"unspecified (every cell may hold any 18-bit value)" (10_state R32). Log 2. -/
opaque powerOnCell : Nat → Pixel

/-- FREE VALUE. The draw behind the busy time of a handler run, by the counter `draws`
(60_exceptions R139 "a draw ... that the model does not fix"). Log 11. -/
opaque busyDraw : Nat → Nat

/-- FREE VALUE. The cell at which reset cuts the chunk of an abandoned handler, by the counter
`draws` (70_reset_and_hazards R150). Log 12. -/
opaque resetCut : Nat → Nat

/-- FREE VALUE. How many of a handler's remaining output operations happen in one cycle after
`BUDGET` (60_exceptions R141 "any timing is admitted"), by the counter `draws`. Log 13. -/
opaque lateDraw : Nat → Nat

/-- The configuration of `State.reset`: config R of 95_test_vectors (geometry, scheduler, markers,
band, border) with timing numbers of the model's own. DESIGN CHOICE, unsafe, log 1: the spec gives
no value for an OPEN parameter. PRESUMED, log 23: `VSYNC_ACTIVE_LEVEL = 0`. Every definition takes
the configuration from the state, so a statement about every state holds for every configuration. -/
def reference : Params where
  w := 64
  h := 48
  v := 480
  t := 524
  vsOn := 490
  vsOff := 492
  bandTop := 8
  bandBot := 472
  linePeriod := 4096
  offSs := 0
  offBp := 64
  offAd := 1536
  offFp := 3072
  borderCycles := 16
  pixelCycles := 8
  borderFlags := 0x1FF
  palette := [0x007, 0x038, 0x1C0]
  hold := 2
  chunk := 1024
  vsyncActiveLevel := false
  entryLat := 1
  latSs := 1
  latBp := 1
  latBpv := 2
  latAd := 1
  latFp := 1
  durMinSs := 2
  durMaxSs := 32
  durMinBp := 4
  durMaxBp := 1400
  durMinAd := 2
  durMaxAd := 900
  durMinFp := 2
  durMaxFp := 200

end Config
end Sys2Proof
end

