-- ==== Sys2Proof/Syntax.lean ====
section
/-! DEFINITION. The operations of the block: one constructor per row of the operation map
(30_encoding R66), with the operands of its format (R64). -/

namespace Sys2Proof

/-- The 18 operations of 30_encoding R66. Indices and hold counts are natural numbers; `WellFormed`
says when they fit their operand bus. -/
inductive Instr where
  /-- `EV_SS`, op 0x00 (42_scan_timing R90). -/
  | evSs
  /-- `EV_BP`, op 0x01 (42_scan_timing R91). -/
  | evBp
  /-- `EV_AD`, op 0x02 (42_scan_timing R99). -/
  | evAd
  /-- `EV_FP`, op 0x03 (42_scan_timing R102). -/
  | evFp
  /-- `SCHED_STEP`, op 0x10 (43_scheduler R105). -/
  | schedStep
  /-- `FB_GET x, y`, op 0x20 (41_frame_buffer R80). -/
  | fbGet (x y : Nat)
  /-- `FB_SET x, y, v`, op 0x21 (41_frame_buffer R81). -/
  | fbSet (x y : Nat) (v : Pixel)
  /-- `FB_ROW y`, op 0x22 (41_frame_buffer R82). -/
  | fbRow (y : Nat)
  /-- `FB_FILL v`, op 0x23 (41_frame_buffer R83). -/
  | fbFill (v : Pixel)
  /-- `FB_GET_FLAT i`, op 0x24 (41_frame_buffer R84). -/
  | fbGetFlat (i : Nat)
  /-- `FB_SET_FLAT i, v`, op 0x25 (41_frame_buffer R85). -/
  | fbSetFlat (i : Nat) (v : Pixel)
  /-- `OUT_COLOR v`, op 0x30 (44_output_host R115). -/
  | outColor (v : Pixel)
  /-- `OUT_SYNC_SET s`, op 0x31 (44_output_host R116). -/
  | outSyncSet (s : SyncLine)
  /-- `OUT_SYNC_CLR s`, op 0x32 (44_output_host R117). -/
  | outSyncClr (s : SyncLine)
  /-- `PAD k`, op 0x33 (44_output_host R118). -/
  | pad (k : Nat)
  /-- `ENCODE f`, op 0x40 (40_color_encoding R77). -/
  | encodeColor (f : Flags)
  /-- `HOST_ARM`, op 0x50 (44_output_host R120). -/
  | hostArm
  /-- `HOST_DISARM`, op 0x51 (44_output_host R121). -/
  | hostDisarm
deriving DecidableEq, Repr

end Sys2Proof
end

