-- ==== Sys2Proof/Machine/State.lean ====
section
/-! DEFINITION. The state of the block (10_state R20 to R44), its fault codes, its refusals and its
state after reset. Levels of one bit are `Bool`, `true` for 1. -/

namespace Sys2Proof.Machine

/-- The fault codes of 60_exceptions R131. A fault sets one bit of `FAULT` and the block goes on
(R132), so no step answers `Outcome.fault`; the type stands there because the interface names one.
Setting the bit is safe: every claim about a picture takes `FAULT = 0` as a premise. -/
inductive Fault where
  /-- Bit 0: an index out of range; raised by `FB_GET`, `FB_SET`, `FB_ROW`, `FB_GET_FLAT`,
  `FB_SET_FLAT` and by a palette access (20_memory R48). -/
  | range
  /-- Bit 1: a write of a word `ENCODE` cannot produce; raised by `FB_SET`, `FB_FILL`, `FB_SET_FLAT`. -/
  | pixel
  /-- Bit 2: a host request with a reserved or internal code; raised by the host port (30_encoding
  R68, R69). -/
  | illegal
  /-- Bit 3: a host `FB_SET`, `FB_FILL` or `HOST_ARM` in RUN mode (44_output_host R122). -/
  | hostArmed
  /-- Bit 4: a compare match of a source already pending; raised by the line timer (R140). -/
  | overrun
  /-- Bit 5: a compare match while a handler is running; raised by the line timer (R141). -/
  | budget
deriving DecidableEq, Repr

/-- Why a step or a stimulus program is refused. -/
inductive Refusal where
  /-- An operation without a meaning; no arm of `exec` answers it. Safe. -/
  | notModelled (mnemonic : String)
  /-- `step` and the stimulus runner: the configuration breaks a condition of 00_scope R7 other than V3
  ("a model refuses (takes no meaning for) a configuration that fails any of them"). Safe; log 15. -/
  | configuration (check : ConfigCheck)
  /-- The stimulus runner: an event in INIT mode (30_encoding R76). Safe. -/
  | eventInInit
  /-- The stimulus runner: an event out of the order of 42_scan_timing R89 (30_encoding R76). Safe. -/
  | eventOutOfOrder
deriving DecidableEq, Repr

/-- One written cell of the Frame Buffer: its flat index and its word (20_memory R45, R46). -/
abbrev Cell := Nat × Pixel

/-- The Frame Buffer: the cells written since power-on, their indices strictly rising. An unlisted
cell has never been written. -/
abbrev Memory := List Cell

/-- A request on the host port: `HOST_OP` and the operand buses (10_state R44). -/
structure HostReq where
  op : BitVec 8
  x : Nat := 0
  y : Nat := 0
  i : Nat := 0
  v : Pixel := 0
  f : Flags := 0
deriving DecidableEq, Repr

/-- What the input ports carry in one cycle: `RST`, and the request with which `HOST_VALID` is 1
(10_state R43, R44). -/
structure PortIn where
  rst : Bool := false
  req : Option HostReq := none
deriving DecidableEq, Repr

/-- One entry of `PEND` (10_state R36) with the cycles of `ENTRY_LAT` it still has to wait
(60_exceptions R134; log 27). -/
structure Pending where
  event : Phase
  lat : Nat
deriving DecidableEq, Repr

/-- An internal operation of a running handler and the cycles before it is performed. -/
structure Timed where
  wait : Nat
  op : Instr
deriving DecidableEq, Repr

/-- A running handler (10_state R37, R40): which one, the cycles it has left, its output operations
still to come, and the Frame Buffer as it was when the handler started, which reset needs
(70_reset_and_hazards R150; log 14). -/
structure Running where
  phase : Phase
  left : Nat
  todo : List Timed
  fbBefore : Memory
deriving DecidableEq, Repr

/-- The state of the block and of the outside world it sees. -/
@[ext]
structure State where
  /-- The configuration constants (10_state R39, 00_scope R6). -/
  cfg : Params
  /-- `LINE` (R21). -/
  line : Nat
  /-- `VACT` (R22). -/
  vact : Bool
  /-- `ROW` (R23). -/
  row : Nat
  /-- `PIXEL_X` (R24). -/
  pixelX : Nat
  /-- `HSYNC_PIN` (R25). -/
  hsync : Bool
  /-- `VSYNC_PIN` (R26). -/
  vsync : Bool
  /-- `COLOR` (R27). -/
  color : Flags
  /-- `WIDX` (R28). -/
  widx : Nat
  /-- `HOLD_CNT` (R29). -/
  holdCnt : Nat
  /-- `CUR` (R30). -/
  cur : Nat
  /-- `FB` (R32). -/
  fb : Memory
  /-- `ARMED` (R34). -/
  armed : Bool
  /-- `TCNT` (R35). -/
  tcnt : Nat
  /-- `PEND` (R36), oldest first. -/
  pend : List Pending
  /-- `BUSY` (R37); `none` is IDLE. -/
  busy : Option Running
  /-- `FAULT` (R38). -/
  fault : BitVec 6
  /-- The host request that waits at the port (R44, 60_exceptions R130; log 8). -/
  request : Option HostReq
  /-- The host response: `some v` when `HOST_DONE` is 1 and `HOST_RDATA` is `v` (R44; log 7). -/
  resp : Option Pixel
  /-- What the input ports carry in the cycles to come (R43, R44; log 9). -/
  inputs : List PortIn
  /-- The row view the last `FB_ROW` returned (41_frame_buffer R82; log 6). -/
  view : Option Nat
  /-- The line trace (00_scope R12, 42_scan_timing R89; log 5). -/
  trace : List Instr
  /-- How many free values have been used (log 11). -/
  draws : Nat
deriving DecidableEq, Repr

/-- The state after reset under a configuration (70_reset_and_hazards R151): every register at its
reset value, the block in INIT mode, no cell written. -/
def State.resetOf (c : Params) : State where
  cfg := c
  line := 0
  vact := true
  row := 0
  pixelX := 0
  hsync := true
  vsync := !c.vsyncActiveLevel
  color := 0
  widx := 0
  holdCnt := 0
  cur := c.n
  fb := []
  armed := false
  tcnt := 0
  pend := []
  busy := none
  fault := 0
  request := none
  resp := none
  inputs := []
  view := none
  trace := []
  draws := 0

/-- The state after reset of the block built with `Config.reference` (log 1). -/
def State.reset : State := State.resetOf Config.reference

end Sys2Proof.Machine
end

