-- ==== Sys2Proof/Machine/Flags.lean ====
section
/-! DEFINITION. The bits of `FAULT` (60_exceptions R131). The block has no arithmetic flags. -/

namespace Sys2Proof.Machine

/-- The bit of `FAULT` a fault code sets (60_exceptions R131). -/
def faultBit : Fault → Nat
  | .range => 0
  | .pixel => 1
  | .illegal => 2
  | .hostArmed => 3
  | .overrun => 4
  | .budget => 5

/-- The code number of a fault (60_exceptions R131). -/
def faultCode (f : Fault) : Nat := faultBit f + 1

/-- The word with only the bit of `f` set. -/
def faultMask (f : Fault) : BitVec 6 := (1 : BitVec 6) <<< faultBit f

/-- `FAULT` with the bit of `f` set; no other bit changes (60_exceptions R131, R132). -/
def setFault (w : BitVec 6) (f : Fault) : BitVec 6 := w ||| faultMask f

/-- The bit of `f` is set in `FAULT`. -/
def hasFault (w : BitVec 6) (f : Fault) : Bool := w.getLsbD (faultBit f)

end Sys2Proof.Machine
end

