-- ==== Sys2Proof/WellFormed.lean ====
section
/-! DEFINITION. When an operation's operands fit the buses of 30_encoding R64 under a configuration.
An operand that fits its bus may still be out of range; that is a `RANGE` fault when the operation is
performed, not an ill-formed operation. -/

namespace Sys2Proof

/-- `x` fits the `clog2(W)` bits of its bus (30_encoding R64). -/
def fitsX (c : Params) (x : Nat) : Bool := decide (x < 2 ^ clog2 c.w)

/-- `y` fits the `clog2(H)` bits of its bus (30_encoding R64). -/
def fitsY (c : Params) (y : Nat) : Bool := decide (y < 2 ^ clog2 c.h)

/-- `i` fits the `clog2(N)` bits of its bus (30_encoding R64). -/
def fitsI (c : Params) (i : Nat) : Bool := decide (i < 2 ^ clog2 c.n)

/-- `k` fits its 16 bits (30_encoding R64). -/
def fitsK (k : Nat) : Bool := decide (k < 2 ^ 16)

/-- Every operand of the operation fits its bus (30_encoding R64). -/
def WellFormed (c : Params) : Instr → Bool
  | .evSs => true
  | .evBp => true
  | .evAd => true
  | .evFp => true
  | .schedStep => true
  | .fbGet x y => fitsX c x && fitsY c y
  | .fbSet x y _ => fitsX c x && fitsY c y
  | .fbRow y => fitsY c y
  | .fbFill _ => true
  | .fbGetFlat i => fitsI c i
  | .fbSetFlat i _ => fitsI c i
  | .outColor _ => true
  | .outSyncSet _ => true
  | .outSyncClr _ => true
  | .pad k => fitsK k
  | .encodeColor _ => true
  | .hostArm => true
  | .hostDisarm => true

end Sys2Proof
end

