-- ==== Sys2Proof/Decode.lean ====
section
/-! DEFINITION. The decoder and the encoder of 30_encoding R60 to R72: an 8-bit operation code with
operand values beside it. Decoding is total (R71) and rejects reserved codes by name (R68). -/

namespace Sys2Proof

/-- The operand values carried beside an operation code (30_encoding R60, R64): the host port's
buses x, y, i, v, f (10_state R44) and the internal fields s, k. -/
structure Operands where
  x : Nat := 0
  y : Nat := 0
  i : Nat := 0
  v : Pixel := 0
  f : Flags := 0
  s : BitVec 1 := 0
  k : BitVec 16 := 0
deriving DecidableEq, Repr

/-- Why a code is rejected (30_encoding R68): a group from 6 to 15, or an unlisted function of a
group from 0 to 5. -/
inductive DecodeError where
  | reservedGroup (group : Nat)
  | reservedFunction (group function : Nat)
deriving DecidableEq, Repr

/-- Who may issue an operation (30_encoding R66, R67). -/
inductive Issuer where
  | lineTimer
  | handler
  | host
deriving DecidableEq, Repr

/-- What a bus of `width` bits carries of `a`: its low bits (30_encoding R64; log 19). -/
def busBits (width a : Nat) : Nat := a % 2 ^ width

/-- The sync line an `s` operand names: 0 horizontal, 1 vertical (30_encoding R72). -/
def syncLineOf (s : BitVec 1) : SyncLine := if s = 0 then .horizontal else .vertical

/-- The `s` operand of a sync line (30_encoding R72). -/
def syncLineBit : SyncLine → BitVec 1
  | .horizontal => 0
  | .vertical => 1

/-- The group field `op[7:4]` (30_encoding R61). -/
def opGroup (op : BitVec 8) : Nat := op.toNat / 16

/-- The function field `op[3:0]` (30_encoding R61). -/
def opFunction (op : BitVec 8) : Nat := op.toNat % 16

/-- The name under which a reserved code is rejected (30_encoding R61, R68). -/
def reservedCode (op : BitVec 8) : DecodeError :=
  if 6 ≤ opGroup op then .reservedGroup (opGroup op)
  else .reservedFunction (opGroup op) (opFunction op)

/-- The decoder: the row of 30_encoding R66 whose code equals `op`, with the operands its format
names, or `reserved` (R71). -/
def decode (c : Params) (op : BitVec 8) (o : Operands) : Except DecodeError Instr :=
  match op.toNat with
  | 0x00 => .ok .evSs
  | 0x01 => .ok .evBp
  | 0x02 => .ok .evAd
  | 0x03 => .ok .evFp
  | 0x10 => .ok .schedStep
  | 0x20 => .ok (.fbGet (busBits (clog2 c.w) o.x) (busBits (clog2 c.h) o.y))
  | 0x21 => .ok (.fbSet (busBits (clog2 c.w) o.x) (busBits (clog2 c.h) o.y) o.v)
  | 0x22 => .ok (.fbRow (busBits (clog2 c.h) o.y))
  | 0x23 => .ok (.fbFill o.v)
  | 0x24 => .ok (.fbGetFlat (busBits (clog2 c.n) o.i))
  | 0x25 => .ok (.fbSetFlat (busBits (clog2 c.n) o.i) o.v)
  | 0x30 => .ok (.outColor o.v)
  | 0x31 => .ok (.outSyncSet (syncLineOf o.s))
  | 0x32 => .ok (.outSyncClr (syncLineOf o.s))
  | 0x33 => .ok (.pad o.k.toNat)
  | 0x40 => .ok (.encodeColor o.f)
  | 0x50 => .ok .hostArm
  | 0x51 => .ok .hostDisarm
  | _ => .error (reservedCode op)

/-- The operation code of 30_encoding R66. -/
def opcode : Instr → BitVec 8
  | .evSs => 0x00
  | .evBp => 0x01
  | .evAd => 0x02
  | .evFp => 0x03
  | .schedStep => 0x10
  | .fbGet _ _ => 0x20
  | .fbSet _ _ _ => 0x21
  | .fbRow _ => 0x22
  | .fbFill _ => 0x23
  | .fbGetFlat _ => 0x24
  | .fbSetFlat _ _ => 0x25
  | .outColor _ => 0x30
  | .outSyncSet _ => 0x31
  | .outSyncClr _ => 0x32
  | .pad _ => 0x33
  | .encodeColor _ => 0x40
  | .hostArm => 0x50
  | .hostDisarm => 0x51

/-- The operand values of an operation, each on the bus its format names (30_encoding R64); the
other buses carry 0. -/
def operandsOf : Instr → Operands
  | .evSs => {}
  | .evBp => {}
  | .evAd => {}
  | .evFp => {}
  | .schedStep => {}
  | .fbGet x y => { x := x, y := y }
  | .fbSet x y v => { x := x, y := y, v := v }
  | .fbRow y => { y := y }
  | .fbFill v => { v := v }
  | .fbGetFlat i => { i := i }
  | .fbSetFlat i v => { i := i, v := v }
  | .outColor v => { v := v }
  | .outSyncSet s => { s := syncLineBit s }
  | .outSyncClr s => { s := syncLineBit s }
  | .pad k => { k := BitVec.ofNat 16 k }
  | .encodeColor f => { f := f }
  | .hostArm => {}
  | .hostDisarm => {}

/-- The encoder: code and operands of an operation (30_encoding R60, R64, R66). -/
def encode (i : Instr) : BitVec 8 × Operands := (opcode i, operandsOf i)

/-- The issuer of each row of the operation map (30_encoding R66, R67). `ENCODE` is computed at build
time too; at run time only the host issues it. -/
def issuer : Instr → Issuer
  | .evSs => .lineTimer
  | .evBp => .lineTimer
  | .evAd => .lineTimer
  | .evFp => .lineTimer
  | .schedStep => .handler
  | .fbGet _ _ => .host
  | .fbSet _ _ _ => .host
  | .fbRow _ => .handler
  | .fbFill _ => .host
  | .fbGetFlat _ => .host
  | .fbSetFlat _ _ => .handler
  | .outColor _ => .handler
  | .outSyncSet _ => .handler
  | .outSyncClr _ => .handler
  | .pad _ => .handler
  | .encodeColor _ => .host
  | .hostArm => .host
  | .hostDisarm => .host

/-- The output operations, the only ones of a line trace (42_scan_timing R89). -/
def isOutput : Instr → Bool
  | .evSs => false
  | .evBp => false
  | .evAd => false
  | .evFp => false
  | .schedStep => false
  | .fbGet _ _ => false
  | .fbSet _ _ _ => false
  | .fbRow _ => false
  | .fbFill _ => false
  | .fbGetFlat _ => false
  | .fbSetFlat _ _ => false
  | .outColor _ => true
  | .outSyncSet _ => true
  | .outSyncClr _ => true
  | .pad _ => true
  | .encodeColor _ => false
  | .hostArm => false
  | .hostDisarm => false

/-- The event operation of a phase: event `k` is op code `0x0k` (30_encoding R65). -/
def eventInstr : Phase → Instr
  | .ss => .evSs
  | .bp => .evBp
  | .ad => .evAd
  | .fp => .evFp

/-- The assembler spelling of a mnemonic (30_encoding R73). -/
def asmName : Instr → String
  | .evSs => "ev.ss"
  | .evBp => "ev.bp"
  | .evAd => "ev.ad"
  | .evFp => "ev.fp"
  | .schedStep => "sched.step"
  | .fbGet _ _ => "fb.get"
  | .fbSet _ _ _ => "fb.set"
  | .fbRow _ => "fb.row"
  | .fbFill _ => "fb.fill"
  | .fbGetFlat _ => "fb.getf"
  | .fbSetFlat _ _ => "fb.setf"
  | .outColor _ => "out.color"
  | .outSyncSet _ => "out.sync.set"
  | .outSyncClr _ => "out.sync.clr"
  | .pad _ => "pad"
  | .encodeColor _ => "encode"
  | .hostArm => "host.arm"
  | .hostDisarm => "host.disarm"

/-- The operation of a table row: an op code of 8 bits (30_encoding R70) with every operand bus at
0. A number that does not fit 8 bits names no operation. -/
def decodeTableWord (nbits w : Nat) : Option Instr :=
  if w < 2 ^ 8 && w < 2 ^ nbits then
    match decode Config.reference (BitVec.ofNat 8 w) {} with
    | .ok i => some i
    | .error _ => none
  else none

end Sys2Proof
end

