-- ==== Sys2Proof/Machine/Operands.lean ====
section
/-! DEFINITION. Pixel words and colour requests (30_encoding R62, R63, 40_color_encoding R77), the
build-time pixel constants (00_scope R8), the index checks and addresses of 20_memory R46 to R49, and
the operand buses of the host port. -/

namespace Sys2Proof.Machine

/-- `SET`, bits 8:0 of a pixel word (30_encoding R62). -/
def setBits (v : Pixel) : Flags := v.extractLsb' 0 9

/-- `CLR`, bits 17:9 of a pixel word (30_encoding R62). -/
def clrBits (v : Pixel) : Flags := v.extractLsb' 9 9

/-- `ENCODE(f)`: the word whose `SET` is `f` and whose `CLR` is the 9-bit complement of `f`
(40_color_encoding R77). -/
def encodePixel (f : Flags) : Pixel := (~~~f) ++ f

/-- The word is an encoded pixel, `CLR = ~SET` (30_encoding R62, 20_memory R49). -/
def isEncoded (v : Pixel) : Bool := clrBits v == ~~~(setBits v)

/-- `BLANK_PX` (00_scope R8). -/
def blankPx : Pixel := encodePixel 0

/-- `BORDER_PX` (00_scope R8). -/
def borderPx (c : Params) : Pixel := encodePixel c.borderFlags

/-- `PAL_PX[i]`, or `none` for an index at or beyond `P` (00_scope R8, 10_state R33). -/
def palPx (c : Params) (i : Nat) : Option Pixel := (c.palette[i]?).map encodePixel

/-- The flat index of cell `(x, y)` (20_memory R46). -/
def flatIndex (c : Params) (x y : Nat) : Nat := y * c.w + x

/-- `x < W` and `y < H` (20_memory R48). -/
def inRangeXY (c : Params) (x y : Nat) : Bool := decide (x < c.w) && decide (y < c.h)

/-- `i < N` (20_memory R48). -/
def inRangeI (c : Params) (i : Nat) : Bool := decide (i < c.n)

/-- A line of the interior band (42_scan_timing R100). -/
def isInterior (c : Params) (line : Nat) : Bool :=
  decide (c.bandTop ≤ line) && decide (line < c.bandBot)

/-- The asserted level of a sync line (00_scope R6; 10_state R25, R26). -/
def activeLevel (c : Params) : SyncLine → Bool
  | .horizontal => Config.hsyncActiveLevel
  | .vertical => c.vsyncActiveLevel

/-- The operand buses a host request carries (10_state R44); the host port has no `s` and no `k`. -/
def hostOperands (r : HostReq) : Operands :=
  { x := r.x, y := r.y, i := r.i, v := r.v, f := r.f }

end Sys2Proof.Machine

namespace Sys2Proof.Color

/-- The named colours of 30_encoding R74, as colour requests. -/
def black : Flags := 0x000

def red : Flags := 0x007

def green : Flags := 0x038

def blue : Flags := 0x1C0

def white : Flags := 0x1FF

end Sys2Proof.Color
end

