-- ==== Sys2Proof/Machine/Ops.lean ====
section
/-! DEFINITION. The shared operations: the Frame Buffer, raising a fault, answering the host, the
output stage and the line trace. -/

namespace Sys2Proof.Machine

/-- An outcome of the block. -/
abbrev Result := Host.Outcome State Fault Refusal

/-- Goes on from a next state; a fault or a refusal stays. -/
def andThen (o : Result) (f : State → Result) : Result :=
  match o with
  | .next s => f s
  | .fault r => .fault r
  | .refused r => .refused r

/-- The word a cell was last written with, or `none` for a cell never written. -/
def Memory.find (i : Nat) : Memory → Option Pixel
  | [] => none
  | (j, v) :: m => if i = j then some v else Memory.find i m

/-- One cell of the Frame Buffer (20_memory R52): the most recent write (R53), or the free value of a
cell never written (10_state R32; log 2). -/
def Memory.read (m : Memory) (i : Nat) : Pixel := (Memory.find i m).getD (Config.powerOnCell i)

/-- Writes one cell and no other (20_memory R52), keeping the indices strictly rising. -/
def Memory.write (i : Nat) (v : Pixel) : Memory → Memory
  | [] => [(i, v)]
  | (j, u) :: m =>
    if i < j then (i, v) :: (j, u) :: m
    else if i = j then (i, v) :: m
    else (j, u) :: Memory.write i v m

/-- Writes `v` into the `count` cells from `i` on, in increasing order. -/
def Memory.fill (v : Pixel) : Nat → Nat → Memory → Memory
  | 0, _, m => m
  | count + 1, i, m => Memory.fill v count (i + 1) (Memory.write i v m)

/-- The Frame Buffer whose cells below `cut` come from `new` and whose other cells come from `old`:
a chunk written in increasing order and cut by reset (43_scheduler R108, 70_reset_and_hazards R150). -/
def Memory.cutAt (cut : Nat) (new old : Memory) : Memory :=
  new.filter (fun e => decide (e.1 < cut)) ++ old.filter (fun e => decide (cut ≤ e.1))

/-- Every index is above `lo`, and they rise strictly. -/
def Memory.risesFrom (lo : Nat) : Memory → Bool
  | [] => true
  | (j, _) :: m => decide (lo ≤ j) && Memory.risesFrom (j + 1) m

/-- The canonical form: indices strictly rising. An entry is a written cell and an unlisted cell a
cell never written, so no entry says what an unlisted cell says (log 2). -/
def Memory.wf (m : Memory) : Bool := Memory.risesFrom 0 m

/-- Raises a fault: its bit of `FAULT` is set and the block goes on (60_exceptions R131, R132). -/
def raiseFault (f : Fault) (s : State) : State := { s with fault := setFault s.fault f }

/-- Answers the host: `HOST_DONE` is 1 and `HOST_RDATA` is `v` (10_state R44). -/
def respond (v : Pixel) (s : State) : State := { s with resp := some v }

/-- The answer to a request that raised a fault: `HOST_RDATA` is 0 (60_exceptions R132, R149). -/
def respondFault (f : Fault) (s : State) : State := respond 0 (raiseFault f s)

/-- `FB[i]` (00_scope R10). -/
def cellAt (s : State) (i : Nat) : Pixel := Memory.read s.fb i

/-- `FB[i] <- v` (00_scope R10). -/
def storeCell (i : Nat) (v : Pixel) (s : State) : State := { s with fb := Memory.write i v s.fb }

/-- `FB[i] <- v` for every `i` in `0 .. N-1` (41_frame_buffer R83). -/
def storeAll (v : Pixel) (s : State) : State := { s with fb := Memory.fill v s.cfg.n 0 s.fb }

/-- An event operation starts with an empty line trace (42_scan_timing R89). -/
def startTrace (s : State) : State := { s with trace := [] }

/-- Records an output operation in the line trace (00_scope R12). -/
def record (op : Instr) (s : State) : State := { s with trace := s.trace ++ [op] }

/-- The colour lines after `OUT_COLOR v`: the CLR lines cleared, then the SET lines set
(44_output_host R115). -/
def driveColor (color : Flags) (v : Pixel) : Flags := (color &&& ~~~(clrBits v)) ||| setBits v

/-- `OUT_COLOR v` (44_output_host R115). -/
def outColor (v : Pixel) (s : State) : State :=
  record (.outColor v) { s with color := driveColor s.color v }

/-- Drives a sync line to a level (30_encoding R72). -/
def driveSync (l : SyncLine) (level : Bool) (s : State) : State :=
  match l with
  | .horizontal => { s with hsync := level }
  | .vertical => { s with vsync := level }

/-- `OUT_SYNC_SET s` (44_output_host R116). -/
def outSyncSet (l : SyncLine) (s : State) : State := record (.outSyncSet l) (driveSync l true s)

/-- `OUT_SYNC_CLR s` (44_output_host R117). -/
def outSyncClr (l : SyncLine) (s : State) : State := record (.outSyncClr l) (driveSync l false s)

/-- `PAD k`: a hold; only the line trace shows it (44_output_host R118, 00_scope R11). -/
def padFor (k : Nat) (s : State) : State := record (.pad k) s

/-- `emit p, d`: `OUT_COLOR p`, then a hold of `d` cycles (00_scope R11). -/
def emit (p : Pixel) (d : Nat) (s : State) : State := padFor d (outColor p s)

/-- `hs.assert` and `vs.assert` (30_encoding R75). -/
def assertSync (l : SyncLine) (s : State) : State :=
  if activeLevel s.cfg l then outSyncSet l s else outSyncClr l s

/-- `hs.deassert` and `vs.deassert` (30_encoding R75). -/
def deassertSync (l : SyncLine) (s : State) : State :=
  if activeLevel s.cfg l then outSyncClr l s else outSyncSet l s

/-- The view `FB_ROW y` returns, or `none` for a row out of range (41_frame_buffer R82). A view is a
row index: it holds no copy of the cells (R88). -/
def viewOf (c : Params) (y : Nat) : Option Nat := if y < c.h then some y else none

/-- `FB_ROW y`: returns the view, or raises `RANGE` and returns none (41_frame_buffer R82). -/
def rowView (y : Nat) (s : State) : State :=
  match viewOf s.cfg y with
  | some r => { s with view := some r }
  | none => raiseFault .range { s with view := none }

/-- Element `x` of the view of row `y`: the cell's value at the time of the read (41_frame_buffer
R82, R88). -/
def viewCell (s : State) (y x : Nat) : Pixel := cellAt s (flatIndex s.cfg x y)

/-- `FB_SET_FLAT i, v`, with its checks in order (41_frame_buffer R85). -/
def setFlat (i : Nat) (v : Pixel) (s : State) : State :=
  if !inRangeI s.cfg i then raiseFault .range s
  else if !isEncoded v then raiseFault .pixel s
  else storeCell i v s

end Sys2Proof.Machine
end

