-- ==== Sys2Proof/Machine/Color.lean ====
section
/-! DEFINITION. Colour encoding: the operation of 40_color_encoding. -/

namespace Sys2Proof.Machine

/-- `ENCODE f` as a host request: the pixel word on `HOST_RDATA`, no state written, no fault
(40_color_encoding R77). -/
def execEncodeColor (f : Flags) (s : State) : Result := .next (respond (encodePixel f) s)

end Sys2Proof.Machine
end

