-- ==== Sys2Proof/Machine/FrameBuffer.lean ====
section
/-! DEFINITION. The Frame Buffer operations of 41_frame_buffer. The checks are made in the order
written there; the first that fails raises its fault and nothing is written. -/

namespace Sys2Proof.Machine

/-- `FB_GET x, y` (41_frame_buffer R80). -/
def execFbGet (x y : Nat) (s : State) : Result :=
  .next (if inRangeXY s.cfg x y then respond (cellAt s (flatIndex s.cfg x y)) s
    else respondFault .range s)

/-- `FB_SET x, y, v` (41_frame_buffer R81). -/
def execFbSet (x y : Nat) (v : Pixel) (s : State) : Result :=
  .next (if s.armed then respondFault .hostArmed s
    else if !inRangeXY s.cfg x y then respondFault .range s
    else if !isEncoded v then respondFault .pixel s
    else respond 0 (storeCell (flatIndex s.cfg x y) v s))

/-- `FB_ROW y` (41_frame_buffer R82). -/
def execFbRow (y : Nat) (s : State) : Result := .next (rowView y s)

/-- `FB_FILL v` (41_frame_buffer R83). -/
def execFbFill (v : Pixel) (s : State) : Result :=
  .next (if s.armed then respondFault .hostArmed s
    else if !isEncoded v then respondFault .pixel s
    else respond 0 (storeAll v s))

/-- `FB_GET_FLAT i` (41_frame_buffer R84). -/
def execFbGetFlat (i : Nat) (s : State) : Result :=
  .next (if inRangeI s.cfg i then respond (cellAt s i) s else respondFault .range s)

/-- `FB_SET_FLAT i, v` (41_frame_buffer R85). -/
def execFbSetFlat (i : Nat) (v : Pixel) (s : State) : Result := .next (setFlat i v s)

end Sys2Proof.Machine
end

