-- ==== Sys2Proof/Machine/HostControl.lean ====
section
/-! DEFINITION. Host control: arming and disarming the line timer (44_output_host, section 2). -/

namespace Sys2Proof.Machine

/-- `HOST_ARM` (44_output_host R120). -/
def execHostArm (s : State) : Result :=
  .next (if s.armed then respondFault .hostArmed s
    else respond 0 { s with armed := true, tcnt := 0, pend := [] })

/-- `HOST_DISARM` (44_output_host R121). -/
def execHostDisarm (s : State) : Result :=
  .next (respond 0 { s with armed := false, pend := [] })

end Sys2Proof.Machine
end

