-- ==== Sys2Proof/Machine/Output.lean ====
section
/-! DEFINITION. The output stage and the padding primitive of 44_output_host, section 1. -/

namespace Sys2Proof.Machine

/-- `OUT_COLOR v` (44_output_host R115). -/
def execOutColor (v : Pixel) (s : State) : Result := .next (outColor v s)

/-- `OUT_SYNC_SET s` (44_output_host R116). -/
def execOutSyncSet (l : SyncLine) (s : State) : Result := .next (outSyncSet l s)

/-- `OUT_SYNC_CLR s` (44_output_host R117). -/
def execOutSyncClr (l : SyncLine) (s : State) : Result := .next (outSyncClr l s)

/-- `PAD k` (44_output_host R118). -/
def execPad (k : Nat) (s : State) : Result := .next (padFor k s)

end Sys2Proof.Machine
end

