-- ==== Sys2Proof/Machine/Scheduler.lean ====
section
/-! DEFINITION. The colour-cycle scheduler of 43_scheduler. -/

namespace Sys2Proof.Machine

/-- `FB_SET_FLAT(i, v)` for the `count` cells from `i` on, in increasing order (43_scheduler R105,
R108). -/
def setCells (v : Pixel) : Nat → Nat → State → State
  | 0, _, s => s
  | count + 1, i, s => setCells v count (i + 1) (setFlat i v s)

/-- The end of the next chunk, `min(CUR + CHUNK, N)` (43_scheduler R108). -/
def chunkEnd (s : State) : Nat := min (s.cur + s.cfg.chunk) s.cfg.n

/-- `CHUNK_WRITE` (43_scheduler R105, R108). A palette index at or beyond `P` is a palette access out
of range (20_memory R48): the step raises `RANGE` and performs none of its writes, so `before`, the
state in which the step began, is kept. -/
def chunkWrite (before s : State) : State :=
  if s.cur < chunkEnd s then
    match palPx s.cfg s.widx with
    | some v => { setCells v (chunkEnd s - s.cur) s.cur s with cur := chunkEnd s }
    | none => raiseFault .range before
  else { s with cur := chunkEnd s }

/-- `SCHED_STEP` (43_scheduler R105 to R111). -/
def schedStep (s : State) : State :=
  if s.line = s.cfg.v then
    if s.holdCnt + 1 < s.cfg.hold then { s with holdCnt := s.holdCnt + 1 }
    else chunkWrite s { s with holdCnt := 0, cur := 0, widx := (s.widx + 1) % s.cfg.p }
  else if s.cur < s.cfg.n then chunkWrite s s
  else s

/-- `SCHED_STEP` (43_scheduler R105). -/
def execSchedStep (s : State) : Result := .next (schedStep s)

end Sys2Proof.Machine
end

