-- ==== Sys2Proof/Machine/ScanTiming.lean ====
section
/-! DEFINITION. The four line events of 42_scan_timing, each one atomic transition at the event level
(00_scope R12) whose line trace is left in `trace`. -/

namespace Sys2Proof.Machine

/-- `EV_SS` (42_scan_timing R90). -/
def execEvSs (s : State) : Result := .next (assertSync .horizontal (startTrace s))

/-- `LINE <- LINE + 1` and `ROW <- LINE / LPR` (42_scan_timing R91, R92). -/
def advanceLine (s : State) : State :=
  { s with line := s.line + 1, row := (s.line + 1) / s.cfg.lpr }

/-- At the first non-visible line `VACT <- 0` (42_scan_timing R94). -/
def markInactive (s : State) : State := if s.line = s.cfg.v then { s with vact := false } else s

/-- The vertical-sync tests, in the order written (42_scan_timing R91, R95). -/
def vsyncMarkers (s : State) : State :=
  let s1 := if s.line = s.cfg.vsOn then assertSync .vertical s else s
  if s1.line = s1.cfg.vsOff then deassertSync .vertical s1 else s1

/-- At the frame end the counter starts again and the scheduler is not called; on every other
non-visible line it is, as the last action (42_scan_timing R96, R97). -/
def frameEndOrSchedule (s : State) : State :=
  if s.line = s.cfg.t then { s with line := 0, vact := true, row := 0 } else schedStep s

/-- The transition of `EV_BP` (42_scan_timing R91). -/
def backPorch (s : State) : State :=
  let s1 := advanceLine (deassertSync .horizontal (startTrace s))
  if s1.line < s1.cfg.v then s1
  else frameEndOrSchedule (vsyncMarkers (markInactive s1))

/-- `EV_BP` (42_scan_timing R91). -/
def execEvBp (s : State) : Result := .next (backPorch s)

/-- The `count` iterations of the streaming loop from `x` on: `PIXEL_X <- x`, then
`emit(px x, PIXEL_CYCLES)` (42_scan_timing R99). -/
def streamCells (px : Nat → Pixel) : Nat → Nat → State → State
  | 0, _, s => s
  | count + 1, x, s =>
    streamCells px count (x + 1) (emit (px x) s.cfg.pixelCycles { s with pixelX := x })

/-- After the loop: `PIXEL_X <- W`, the right border, then blank (42_scan_timing R99). -/
def finishDraw (s : State) : State :=
  outColor blankPx (emit (borderPx s.cfg) s.cfg.borderCycles { s with pixelX := s.cfg.w })

/-- The transition of `EV_AD` (42_scan_timing R99 to R101). When `FB_ROW` raises `RANGE` it returns
no view and the handler ends there (log 4); a valid configuration never reaches that (R100). -/
def activeDraw (s : State) : State :=
  let s0 := startTrace s
  if !s0.vact then s0
  else
    let s1 := emit (borderPx s0.cfg) s0.cfg.borderCycles s0
    if isInterior s1.cfg s1.line then
      match viewOf s1.cfg s1.row with
      | some y => finishDraw (streamCells (viewCell s1 y) s1.cfg.w 0 s1)
      | none => raiseFault .range s1
    else finishDraw (streamCells (fun _ => borderPx s1.cfg) s1.cfg.w 0 s1)

/-- `EV_AD` (42_scan_timing R99). -/
def execEvAd (s : State) : Result := .next (activeDraw s)

/-- `EV_FP` (42_scan_timing R102). -/
def execEvFp (s : State) : Result := .next (outColor blankPx (startTrace s))

end Sys2Proof.Machine
end

