-- ==== Sys2Proof/Machine/Dispatch.lean ====
section
/-! DEFINITION. One operation at the event level (00_scope R12): one arm per row of the operation map
(30_encoding R66). -/

namespace Sys2Proof.Machine

def exec (i : Instr) (s : State) : Host.Outcome State Fault Refusal :=
  match i with
  | .evSs => Sys2Proof.Machine.execEvSs s
  | .evBp => Sys2Proof.Machine.execEvBp s
  | .evAd => Sys2Proof.Machine.execEvAd s
  | .evFp => Sys2Proof.Machine.execEvFp s
  | .schedStep => Sys2Proof.Machine.execSchedStep s
  | .fbGet x y => Sys2Proof.Machine.execFbGet x y s
  | .fbSet x y v => Sys2Proof.Machine.execFbSet x y v s
  | .fbRow y => Sys2Proof.Machine.execFbRow y s
  | .fbFill v => Sys2Proof.Machine.execFbFill v s
  | .fbGetFlat j => Sys2Proof.Machine.execFbGetFlat j s
  | .fbSetFlat j v => Sys2Proof.Machine.execFbSetFlat j v s
  | .outColor v => Sys2Proof.Machine.execOutColor v s
  | .outSyncSet l => Sys2Proof.Machine.execOutSyncSet l s
  | .outSyncClr l => Sys2Proof.Machine.execOutSyncClr l s
  | .pad k => Sys2Proof.Machine.execPad k s
  | .encodeColor f => Sys2Proof.Machine.execEncodeColor f s
  | .hostArm => Sys2Proof.Machine.execHostArm s
  | .hostDisarm => Sys2Proof.Machine.execHostDisarm s

end Sys2Proof.Machine
end

