-- ==== Sys2Proof/Machine/Validity.lean ====
section
/-! DEFINITION. The validity conditions of 00_scope R7, and which of them the machine refuses. -/

namespace Sys2Proof.Params

/-- The cycles the drawing of a visible line needs, the final blanking included (60_exceptions R139,
00_scope R7 V10). -/
def drawCycles (c : Params) : Nat := c.latAd + 2 * c.borderCycles + c.w * c.pixelCycles + 1

/-- The conditions V1 to V10 of 00_scope R7. V8 holds by the type of the flags (log 22). -/
def holds (c : Params) : ConfigCheck → Bool
  | .v1 => decide (c.offSs < c.offBp ∧ c.offBp < c.offAd ∧ c.offAd < c.offFp ∧ c.offFp < c.linePeriod)
  | .v2 => decide (1 ≤ c.v ∧ c.v < c.t)
  | .v3 => decide (c.n ≤ c.chunk * (c.t - c.v))
  | .v4 => decide (1 ≤ c.h ∧ 1 ≤ c.w ∧ c.v % c.h = 0)
  | .v5 => decide (c.v ≤ c.vsOn ∧ c.vsOn < c.vsOff ∧ c.vsOff ≤ c.t)
  | .v6 => decide (1 ≤ c.bandTop ∧ c.bandTop ≤ c.bandBot ∧ c.bandBot + 1 ≤ c.v)
  | .v7 => decide (1 ≤ c.p ∧ 1 ≤ c.hold ∧ 1 ≤ c.chunk)
  | .v8 => true
  | .v9 => decide (c.offSs + c.entryLat + c.durMaxSs ≤ c.offBp
      ∧ c.offBp + c.entryLat + c.durMaxBp ≤ c.offAd
      ∧ c.offAd + c.entryLat + c.durMaxAd ≤ c.offFp
      ∧ c.offFp + c.entryLat + c.durMaxFp ≤ c.linePeriod + c.offSs)
  | .v10 => decide (c.drawCycles ≤ c.durMaxAd)

/-- The conditions whose violation the machine refuses (00_scope R7). A configuration that breaks V3 is
admitted, since 43_scheduler R111 and 70_reset_and_hazards R159 define its behaviour "for a model that
admits V3 violations on purpose" (92_eei_decisions D32); claims still take `valid` as a premise
(log 15). -/
def refusedChecks : List ConfigCheck := [.v1, .v2, .v4, .v5, .v6, .v7, .v8, .v9, .v10]

/-- The first condition for which the configuration is refused, or `none`. -/
def refusedBy (c : Params) : Option ConfigCheck := refusedChecks.find? (fun k => !c.holds k)

/-- The machine takes a meaning for the configuration (log 15). -/
def admitted (c : Params) : Bool := refusedChecks.all c.holds

/-- The configuration is valid (00_scope R7). -/
def valid (c : Params) : Bool :=
  [ConfigCheck.v1, .v2, .v3, .v4, .v5, .v6, .v7, .v8, .v9, .v10].all c.holds

end Sys2Proof.Params
end

