-- ==== Sys2Proof/Machine/Handler.lean ====
section
/-! DEFINITION. Event entry, the running handler and its return at the cycle level (60_exceptions R134,
R135, R139, R141; 70_reset_and_hazards R160 to R163). -/

namespace Sys2Proof.Machine

/-- Performs one operation. `exec` answers a next state for every operation, so nothing is lost. -/
def perform (i : Instr) (s : State) : State :=
  match exec i s with
  | .next t => t
  | .fault _ => s
  | .refused _ => s

/-- Output operations one after another, the first after `w` cycles and each later one when the hold
before it has elapsed (00_scope R11, 42_scan_timing R99). -/
def withWaits : Nat → List Instr → List Timed
  | _, [] => []
  | w, op :: rest =>
    ⟨w, op⟩ :: withWaits (match op with | .pad k => k | _ => 0) rest

/-- A line trace placed in time from the start of its handler (44_output_host R119): the first output
change after the handler's latency, a vertical-sync change at `LAT_BPV` (70_reset_and_hazards R160 to
R163). -/
def schedule (c : Params) (k : Phase) (tr : List Instr) : List Timed :=
  match k, tr with
  | .ss, tr => withWaits c.latSs tr
  | .bp, [] => []
  | .bp, op :: rest => ⟨c.latBp, op⟩ :: withWaits (c.latBpv - c.latBp) rest
  | .ad, tr => withWaits c.latAd tr
  | .fp, tr => withWaits c.latFp tr

/-- The cycles a handler needs for its output operations, the cycle of the last one included; none
without an output operation. -/
def outputCycles : List Timed → Nat
  | [] => 0
  | todo => (todo.map (·.wait)).sum + 1

/-- The busy time of a handler run: a draw in `DUR_MIN_k .. DUR_MAX_k` that the model does not fix, in
which its output operations fit (60_exceptions R139 for a drawing `EV_AD`; the same is deduced for
the other handlers from R134; log 11). It is never above `DUR_MAX_k`. DESIGN CHOICE, log 30: how many
cycles a chunk of `CHUNK` cell writes needs is left open (R139: `DUR_MAX_BP` "must cover" it, without
a number), so neither this draw nor `DUR_MAX_BP` is tied to `CHUNK`. -/
def busyTime (c : Params) (k : Phase) (todo : List Timed) (draw : Nat) : Nat :=
  let lo := min (max (c.durMin k) (outputCycles todo)) (c.durMax k)
  lo + draw % (c.durMax k - lo + 1)

/-- The operations due in this cycle, performed in order, and the state after them. -/
def performDue : List Timed → State → State
  | [], s => s
  | ⟨0, op⟩ :: rest, s => performDue rest (perform op s)
  | ⟨_ + 1, _⟩ :: _, s => s

/-- What is left of the operations when those due in this cycle have been performed and the cycle has
passed. -/
def stillToDo : List Timed → List Timed
  | [] => []
  | ⟨0, _⟩ :: rest => stillToDo rest
  | ⟨w + 1, op⟩ :: rest => ⟨w, op⟩ :: rest

/-- Performs the first `n` operations whatever their waits. -/
def performFirst : Nat → List Timed → State → State
  | 0, _, s => s
  | _ + 1, [], s => s
  | n + 1, e :: rest, s => performFirst n rest (perform e.op s)

/-- How many of a handler's operations happen in a cycle after `BUDGET`: any number (60_exceptions
R141 "any timing is admitted"; log 13). -/
def lateCount (s : State) (todo : List Timed) : Nat := Config.lateDraw s.draws % (todo.length + 1)

/-- The operations of a handler that happen in one of its cycles, and the state after them. In its
last cycle all that is left happens: "a handler's writes are all done when it ends" (60_exceptions
R134). -/
def handlerOps (r : Running) (s : State) : State :=
  if r.left ≤ 1 then performFirst r.todo.length r.todo s
  else if hasFault s.fault .budget then
    { performFirst (lateCount s r.todo) r.todo s with draws := s.draws + 1 }
  else performDue r.todo s

/-- The operations a handler still has to do after one of its cycles. -/
def handlerRest (r : Running) (s : State) : List Timed :=
  if hasFault s.fault .budget then r.todo.drop (lateCount s r.todo) else stillToDo r.todo

/-- `BUSY` after one of a handler's cycles: the counter goes down, and at 0 the handler returns and
`BUSY` is IDLE (60_exceptions R135). -/
def handlerBusy (r : Running) (s : State) : Option Running :=
  if r.left ≤ 1 then none else some { r with left := r.left - 1, todo := handlerRest r s }

/-- One cycle of a running handler. -/
def handlerCycle (r : Running) (s : State) : State :=
  { handlerOps r s with busy := handlerBusy r s }

/-- Event entry (60_exceptions R134): handler `k` starts. Its register and memory writes are those of
its event-level rule and are made here (log 14); its output operations are placed in time, and the
output registers change only as those fall due. Nothing is saved and no mode changes. This cycle is
the first of the busy time. -/
def dispatch (k : Phase) (rest : List Pending) (s : State) : Result :=
  andThen (exec (eventInstr k) { s with pend := rest }) fun t =>
    let todo := schedule s.cfg k t.trace
    let r : Running := {
      phase := k
      left := busyTime s.cfg k todo (Config.busyDraw s.draws)
      todo := todo
      fbBefore := s.fb }
    .next (handlerCycle r
      { t with hsync := s.hsync, vsync := s.vsync, color := s.color, trace := [], busy := some r,
               draws := s.draws + 1 })

end Sys2Proof.Machine
end

