-- ==== Sys2Proof/Machine/Port.lean ====
section
/-! DEFINITION. The host port (10_state R43, R44; 60_exceptions R149) and the output ports. -/

namespace Sys2Proof.Machine

/-- A request that arrives waits at the port until it is performed; while one waits the port carries
no other (10_state R44; log 8). -/
def latchRequest (req : Option HostReq) (s : State) : State :=
  match s.request with
  | some _ => s
  | none => { s with request := req }

/-- The host port performs a request: a reserved code or an internal-only code raises `ILLEGAL` and
has no other effect (30_encoding R68, R69); any other code is the operation it names. -/
def hostPerform (r : HostReq) (s : State) : Result :=
  match decode s.cfg r.op (hostOperands r) with
  | .error _ => .next (respondFault .illegal s)
  | .ok i => if issuer i = .host then exec i s else .next (respondFault .illegal s)

/-- The waiting request, if any, is performed and leaves the port (60_exceptions R149). -/
def serveHost (s : State) : Result :=
  match s.request with
  | none => .next s
  | some r => hostPerform r { s with request := none }

/-- What the output ports show (10_state R43). `rdata` has a value only with `done` (log 7). -/
structure PortOut where
  hsync : Bool
  vsync : Bool
  rgb : Flags
  faultOut : BitVec 6
  armedOut : Bool
  done : Bool
  rdata : Option Pixel
deriving DecidableEq, Repr

/-- The output ports mirror the registers (10_state R43). -/
def portsOf (s : State) : PortOut where
  hsync := s.hsync
  vsync := s.vsync
  rgb := s.color
  faultOut := s.fault
  armedOut := s.armed
  done := s.resp.isSome
  rdata := s.resp

end Sys2Proof.Machine
end

