-- ==== Sys2Proof/Machine/Timer.lean ====
section
/-! DEFINITION. The line timer (60_exceptions R136, R137, R140, R141), reset (70_reset_and_hazards R150)
and one clock cycle of the block. -/

namespace Sys2Proof.Machine

/-- The source is already in `PEND`. -/
def isPending (k : Phase) (s : State) : Bool := s.pend.any (fun e => decide (e.event = k))

/-- A compare match of source `k`: it is queued, or lost with `OVERRUN` when already pending
(60_exceptions R129, R140); while a handler runs it also sets `BUDGET` (R141). -/
def matchSource (k : Phase) (s : State) : State :=
  let s1 := if isPending k s then raiseFault .overrun s
    else { s with pend := s.pend ++ [⟨k, s.cfg.entryLat⟩] }
  if s.busy.isSome then raiseFault .budget s1 else s1

/-- Source `k` matches when the timer runs and `TCNT = OFF_k` (60_exceptions R137). -/
def compareSource (k : Phase) (s : State) : State :=
  if s.armed && decide (s.tcnt = s.cfg.off k) then matchSource k s else s

/-- The four compares of one cycle. A valid configuration matches at most one source (60_exceptions
R130); the order among several is the model's (log 16). -/
def compareAll (s : State) : State :=
  compareSource .fp (compareSource .ad (compareSource .bp (compareSource .ss s)))

/-- What the block does in a cycle: a running handler goes on; with none running, the oldest pending
event whose entry latency has elapsed is dispatched in RUN mode; else a waiting host request is
performed (60_exceptions R130, R134, R149). -/
def act (s : State) : Result :=
  match s.busy with
  | some r => .next (handlerCycle r s)
  | none =>
    match s.pend with
    | ⟨k, 0⟩ :: rest => if s.armed then dispatch k rest s else serveHost s
    | _ => serveHost s

/-- The clock edge: `TCNT` counts while the timer runs (60_exceptions R136; log 17) and each pending
event has one cycle less of its entry latency to wait. -/
def clockEdge (wasArmed : Bool) (s : State) : State :=
  { s with
    tcnt := if wasArmed && s.armed then (s.tcnt + 1) % s.cfg.linePeriod else s.tcnt
    pend := s.pend.map (fun e => { e with lat := e.lat - 1 }) }

/-- The Frame Buffer after reset: reset writes no cell, and a chunk an abandoned handler was writing
is cut at a cell the spec does not fix (70_reset_and_hazards R150; log 12). -/
def fbAfterReset (s : State) : Memory :=
  match s.busy with
  | none => s.fb
  | some r => Memory.cutAt (Config.resetCut s.draws) s.fb r.fbBefore

/-- A cycle with `RST = 1` (70_reset_and_hazards R150): every register takes its reset value, a
running handler is abandoned, pending events and a waiting request are dropped. -/
def resetCycle (s : State) : State :=
  { State.resetOf s.cfg with fb := fbAfterReset s, inputs := s.inputs, draws := s.draws + 1 }

/-- What the input ports carry in this cycle; after the listed ones they are idle (log 9). -/
def currentInput (s : State) : PortIn := s.inputs.headD {}

/-- The state at the start of a cycle's work: this cycle's input taken, `HOST_DONE` back at 0. -/
def beginCycle (s : State) : State := { s with inputs := s.inputs.tail, resp := none }

/-- One cycle of `CLK` (log 10 for the order of its parts). -/
def cycle (s : State) : Result :=
  if (currentInput s).rst then .next (resetCycle (beginCycle s))
  else
    andThen (act (compareAll (latchRequest (currentInput s).req (beginCycle s)))) fun t =>
      .next (clockEdge s.armed t)

/-- A value of `TCNT` at which no source matches: the first of 0 to 4 that is no offset. -/
def quietCount (c : Params) : Nat :=
  ([0, 1, 2, 3].find? (fun q => decide (q ≠ c.offSs ∧ q ≠ c.offBp ∧ q ≠ c.offAd ∧ q ≠ c.offFp))).getD 4

/-- The block idle, its next input idle and no compare match in its next cycle. -/
def quiet (s : State) : State :=
  { s with
    busy := none
    pend := []
    request := none
    tcnt := if s.armed then quietCount s.cfg else s.tcnt
    inputs := ({} : PortIn) :: s.inputs }

/-- The host request with a code and zero operand buses waits at the port. -/
def placeRequest (op : BitVec 8) (s : State) : State := { quiet s with request := some { op := op } }

/-- The block placed so that its next step performs `i` for the issuer that may issue it (log 18): an
event as a dispatched event in RUN mode, an internal operation as the last one of a running handler,
a host operation as the request that waits at the port. -/
def placeInstr (i : Instr) (op : BitVec 8) (s : State) : State :=
  match i with
  | .evSs => { quiet { s with armed := true } with pend := [⟨.ss, 0⟩] }
  | .evBp => { quiet { s with armed := true } with pend := [⟨.bp, 0⟩] }
  | .evAd => { quiet { s with armed := true } with pend := [⟨.ad, 0⟩] }
  | .evFp => { quiet { s with armed := true } with pend := [⟨.fp, 0⟩] }
  | i =>
    if issuer i = .host then placeRequest op s
    else { quiet { s with armed := true } with
           busy := some { phase := .bp, left := 1, todo := [⟨0, i⟩], fbBefore := s.fb } }

/-- Stores a table word where the next step takes its operation from (log 18). A reserved word is
placed as a host request, the only issuer that can present one (30_encoding R68). -/
def placeWord (nbits w : Nat) (s : State) : State :=
  match decodeTableWord nbits w with
  | some i => placeInstr i (BitVec.ofNat 8 w) s
  | none => placeRequest (BitVec.ofNat 8 w) s

end Sys2Proof.Machine
end

