-- ==== Sys2Proof/Machine/Step.lean ====
section
/-! DEFINITION. One step of the machine: one cycle of `CLK`. -/

namespace Sys2Proof.Machine

/-- One step: a configuration the spec gives no meaning to is refused (00_scope R7; log 15); under
any other, one clock cycle. -/
def step (s : State) : Host.Outcome State Fault Refusal :=
  match s.cfg.refusedBy with
  | some k => .refused (.configuration k)
  | none => cycle s

/-- The state with a table word placed so that the next step performs it (log 18). -/
def State.withFetchWord (s : State) (nbits w : Nat) : State := placeWord nbits w s

end Sys2Proof.Machine
end

