-- ==== Sys2Proof/Machine/Stimulus.lean ====
section
/-! DEFINITION. Runs at the event level: stimulus programs (30_encoding R75, R76; 00_scope R12), the
boot sequence (70_reset_and_hazards R153) and the picture a line trace shows (44_output_host R124). -/

namespace Sys2Proof.Machine

/-- Operations one after another at the event level (00_scope R12). -/
def execAll : List Instr → State → Result
  | [], s => .next s
  | i :: rest, s => andThen (exec i s) (execAll rest)

/-- One entry of a stimulus program (30_encoding R76): a timer event or a host request. -/
inductive Stim where
  | event (k : Phase)
  | host (r : HostReq)
deriving DecidableEq, Repr

/-- The event due after a host request: `EV_SS` when the request has armed the timer, else the same
as before (42_scan_timing R89). -/
def dueAfterHost (due : Phase) (wasArmed nowArmed : Bool) : Phase :=
  if !wasArmed && nowArmed then .ss else due

/-- Performs a stimulus program from a state in which `due` is the next event of the line. An event
in INIT mode or out of order describes no run of the block (30_encoding R76,
93_implementation_defined row 11). The event due at the start is an argument (log 29). -/
def runStimulus : Phase → List Stim → State → Result
  | _, [], s => .next s
  | due, .event k :: rest, s =>
    if !s.armed then .refused .eventInInit
    else if k ≠ due then .refused .eventOutOfOrder
    else andThen (exec (eventInstr k) s) (runStimulus due.next rest)
  | due, .host r :: rest, s =>
    andThen (hostPerform r s) fun t => runStimulus (dueAfterHost due s.armed t.armed) rest t

/-- The event due after a stimulus program has been performed from `s`, where `due` was due
(42_scan_timing R89: the fixed order, and `EV_SS` first after an arming). -/
def dueAfter : Phase → List Stim → State → Phase
  | due, [], _ => due
  | _, .event k :: rest, s => dueAfter k.next rest (perform (eventInstr k) s)
  | due, .host r :: rest, s =>
    match hostPerform r s with
    | .next t => dueAfter (dueAfterHost due s.armed t.armed) rest t
    | .fault _ => due
    | .refused _ => due

/-- A stimulus program on a block, refused for a configuration the spec gives no meaning to. -/
def runProgram (due : Phase) (p : List Stim) (s : State) : Result :=
  match s.cfg.refusedBy with
  | some k => .refused (.configuration k)
  | none => runStimulus due p s

/-- The four events of a line, in order (30_encoding R75 `line`). -/
def lineOps : List Instr := [.evSs, .evBp, .evAd, .evFp]

/-- `n` lines (30_encoding R75 `lines n`). -/
def linesOps (n : Nat) : List Instr := (List.replicate n lineOps).flatten

/-- `n` frames of `T` lines (30_encoding R75 `frames n`). -/
def framesOps (c : Params) (n : Nat) : List Instr := linesOps (n * c.t)

/-- The `line` pseudo-operation as stimuli (30_encoding R75). -/
def lineStim : List Stim := [.event .ss, .event .bp, .event .ad, .event .fp]

/-- `lines n` as stimuli (30_encoding R75). -/
def linesStim (n : Nat) : List Stim := (List.replicate n lineStim).flatten

/-- `frames n` as stimuli (30_encoding R75). -/
def framesStim (c : Params) (n : Nat) : List Stim := linesStim (n * c.t)

/-- `init v` as stimuli: `fb.fill v`, then `host.arm` (30_encoding R75). -/
def initStim (v : Pixel) : List Stim := [.host { op := 0x23, v := v }, .host { op := 0x50 }]

/-- The first palette word, with which the boot sequence fills the buffer (70_reset_and_hazards
R153); a palette without an entry breaks V7 of 00_scope R7. -/
def bootFill (c : Params) : Pixel := (palPx c 0).getD blankPx

/-- The boot sequence after reset: `FB_FILL(PAL_PX[0])`, then `HOST_ARM` (70_reset_and_hazards R153). -/
def bootOps (c : Params) : List Instr := [.fbFill (bootFill c), .hostArm]

/-- The `(COLOR, duration)` segments a line trace shows from a colour on: each hold shows the colour
then on the lines (44_output_host R124). -/
def segments : Flags → List Instr → List (Flags × Nat)
  | _, [] => []
  | color, op :: rest =>
    match op with
    | .outColor v => segments (driveColor color v) rest
    | .pad k => (color, k) :: segments color rest
    | _ => segments color rest

end Sys2Proof.Machine
end

