-- ==== Sys2Proof/Safety.lean ====
section
/-! DEFINITION. What counts as a safe run, in the terms claims use: no fault (60_exceptions R132), the
ranges of 10_state R42, encoded cells, and the state of the line timer. -/

namespace Sys2Proof.Machine

/-- No fault has been raised: the premise of every claim about a picture (60_exceptions R132). -/
def clean (s : State) : Bool := s.fault == 0

/-- Every cell the memory lists lies inside the Frame Buffer, in canonical form. -/
def fbOk (c : Params) (m : Memory) : Bool := Memory.wf m && m.all (fun e => decide (e.1 < c.n))

/-- A running handler holds only output operations, and its kept Frame Buffer is in order. -/
def busyOk (c : Params) : Option Running → Bool
  | none => true
  | some r => r.todo.all (fun e => isOutput e.op) && fbOk c r.fbBefore

/-- The register ranges of 10_state R42, for an admitted configuration. -/
structure InRange (s : State) : Prop where
  admitted : s.cfg.admitted = true
  line_lt : s.line < s.cfg.t
  vact_eq : s.vact = decide (s.line < s.cfg.v)
  row_eq : s.line < s.cfg.v → s.row = s.line / s.cfg.lpr
  widx_lt : s.widx < s.cfg.p
  hold_lt : s.holdCnt < s.cfg.hold
  cur_le : s.cur ≤ s.cfg.n
  fb_ok : fbOk s.cfg s.fb = true
  busy_ok : busyOk s.cfg s.busy = true

/-- Every cell of the Frame Buffer holds an encoded pixel word (10_state R42, 20_memory R49), also in
the buffer that reset would fall back on. -/
structure CellsEncoded (s : State) : Prop where
  now : ∀ i, i < s.cfg.n → isEncoded (Memory.read s.fb i) = true
  before : ∀ r, s.busy = some r → ∀ i, i < s.cfg.n → isEncoded (Memory.read r.fbBefore i) = true

/-- The cycles before the next compare match of source `k`. -/
def untilMatch (c : Params) (k : Phase) (tcnt : Nat) : Nat :=
  (c.off k + c.linePeriod - tcnt) % c.linePeriod

/-- The cycles before the next compare match of any source. -/
def untilNext (c : Params) (tcnt : Nat) : Nat :=
  min (min (untilMatch c .ss tcnt) (untilMatch c .bp tcnt))
    (min (untilMatch c .ad tcnt) (untilMatch c .fp tcnt))

/-- The line timer's state (10_state R35, R36): the counter within its period, distinct pending
events. -/
structure TimerInRange (s : State) : Prop where
  tcnt_lt : s.tcnt < s.cfg.linePeriod
  distinct : (s.pend.map (·.event)).Nodup
  disarmed : s.armed = false → s.pend = [] ∧ s.busy = none

/-- The block keeps its handler budgets: what is pending or running ends before the next compare match
(00_scope R7 V9, 60_exceptions R138). -/
def OnTime (s : State) : Prop :=
  match s.busy, s.pend with
  | none, [] => True
  | none, [e] => e.lat + s.cfg.durMax e.event ≤ untilNext s.cfg s.tcnt
  | some r, [] => 1 ≤ r.left ∧ r.left ≤ untilNext s.cfg s.tcnt
  | _, _ => False

/-- Every handler may take a cycle: each `DUR_MAX_k` is at least 1. -/
def positiveBudgets (c : Params) : Prop := ∀ k, 1 ≤ c.durMax k

/-- Two states agree on the registers and memories an event operation reads and writes, the output
registers apart (00_scope R12 "every state value the cycle level produces"). -/
structure SameRegs (s t : State) : Prop where
  cfg : s.cfg = t.cfg
  line : s.line = t.line
  vact : s.vact = t.vact
  row : s.row = t.row
  pixelX : s.pixelX = t.pixelX
  widx : s.widx = t.widx
  holdCnt : s.holdCnt = t.holdCnt
  cur : s.cur = t.cur
  fb : s.fb = t.fb
  view : s.view = t.view

/-- Two states agree on the output registers (10_state R25 to R27). -/
structure SameOutputs (s t : State) : Prop where
  hsync : s.hsync = t.hsync
  vsync : s.vsync = t.vsync
  color : s.color = t.color

/-- `RST` is 0 in this cycle. -/
def notReset (s : State) : Prop := (currentInput s).rst = false

/-- No compare match falls in this cycle (60_exceptions R137). -/
def noMatch (s : State) : Prop := s.armed = true → ∀ k, s.tcnt ≠ s.cfg.off k

/-- The state a cycle works on once its input has been taken: `HOST_DONE` back at 0 and an arriving
request at the port. -/
def afterInput (s : State) : State := latchRequest (currentInput s).req (beginCycle s)

/-- The state on which the block acts in a cycle: its input taken and its compares done. -/
def afterCompare (s : State) : State := compareAll (afterInput s)

/-- The vertical-sync line is asserted exactly on the lines from `VS_ON` to `VS_OFF - 1`
(42_scan_timing R95). -/
def vsyncOnMarkers (s : State) : Prop :=
  (s.vsync = s.cfg.vsyncActiveLevel) ↔ (s.cfg.vsOn ≤ s.line ∧ s.line < s.cfg.vsOff)

/-- Each operand bus carries a value of its width (30_encoding R64). -/
def busesFit (c : Params) (o : Operands) : Prop :=
  o.x < 2 ^ clog2 c.w ∧ o.y < 2 ^ clog2 c.h ∧ o.i < 2 ^ clog2 c.n

/-- The line trace of a drawn line whose pixels are `px 0 .. px (W-1)`, written out as
42_scan_timing R99 lists it. -/
def lineTrace (c : Params) (px : Nat → Pixel) : List Instr :=
  [.outColor (encodePixel c.borderFlags), .pad c.borderCycles] ++
  (List.range c.w).flatMap (fun x => [.outColor (px x), .pad c.pixelCycles]) ++
  [.outColor (encodePixel c.borderFlags), .pad c.borderCycles, .outColor (encodePixel 0)]

/-- Every register of 70_reset_and_hazards R151 holds its reset value. -/
structure RegistersAtReset (s : State) : Prop where
  line : s.line = 0
  vact : s.vact = true
  row : s.row = 0
  pixelX : s.pixelX = 0
  hsync : s.hsync = true
  vsync : s.vsync = !s.cfg.vsyncActiveLevel
  color : s.color = 0
  widx : s.widx = 0
  holdCnt : s.holdCnt = 0
  cur : s.cur = s.cfg.n
  armed : s.armed = false
  tcnt : s.tcnt = 0
  pend : s.pend = []
  busy : s.busy = none
  fault : s.fault = 0

/-- `RST` is 0 in this cycle and in every later one. -/
def noReset (s : State) : Prop := ∀ p ∈ s.inputs, p.rst = false

/-- No host request with the code `op` waits at the port or is to come. -/
def noRequest (op : BitVec 8) (s : State) : Prop :=
  (∀ r, s.request = some r → r.op ≠ op) ∧ ∀ p ∈ s.inputs, ∀ r, p.req = some r → r.op ≠ op

/-- The host does not both stop the timer and start it anew: no `HOST_ARM` or no `HOST_DISARM` waits or
is to come. -/
def notRestarted (s : State) : Prop := noRequest 0x50 s ∨ noRequest 0x51 s

/-- In this cycle the handler of phase `k` starts: RUN mode, no handler running, and after this cycle's
compares `k` the one pending event, its entry latency elapsed (60_exceptions R134). With
`ENTRY_LAT = 0` that is the cycle of the match itself. -/
def atEntry (k : Phase) (s : State) : Prop :=
  s.armed = true ∧ s.busy = none ∧ (afterCompare s).pend = [⟨k, 0⟩]

/-- A handler starts in this cycle: RUN mode, no handler running, and after this cycle's compares the
head of `PEND` has waited its entry latency (60_exceptions R134). -/
def dispatches (s : State) : Prop :=
  s.armed = true ∧ s.busy = none ∧ ∃ k rest, (afterCompare s).pend = ⟨k, 0⟩ :: rest

/-- `n` clock cycles. -/
def steps : Nat → State → Result
  | 0, s => .next s
  | n + 1, s => andThen (step s) (steps n)

end Sys2Proof.Machine
end

