-- ==== Sys2Proof/Certificates/Slice0/Obligations.lean ====
section
/-! DEFINITION. The statements for the provers, from the numbered rules of the spec. Masks of `FAULT`
are written out: 0x01 RANGE, 0x02 PIXEL, 0x04 ILLEGAL, 0x08 HOST_ARMED, 0x10 OVERRUN, 0x20 BUDGET. An
equation `exec i s = .next { s with … }` is the completion, the result and the frame at once. The fields
`resp`, `view`, `trace`, `inputs` and `draws` are the model's own for what an operation returns or meets
(logs 5 to 9, 11). -/

open Sys2Proof Sys2Proof.Machine

/-! ### Encodings -/

/-- 30_encoding R66: the complete operation map, with the operands of each format (R64, R72) and the
issuers. Every other code is reserved. -/
def Obligations.OperationMap : Prop :=
  (∀ (c : Params) (o : Operands), busesFit c o →
    decode c 0x00 o = .ok .evSs ∧ decode c 0x01 o = .ok .evBp ∧
    decode c 0x02 o = .ok .evAd ∧ decode c 0x03 o = .ok .evFp ∧
    decode c 0x10 o = .ok .schedStep ∧
    decode c 0x20 o = .ok (.fbGet o.x o.y) ∧ decode c 0x21 o = .ok (.fbSet o.x o.y o.v) ∧
    decode c 0x22 o = .ok (.fbRow o.y) ∧ decode c 0x23 o = .ok (.fbFill o.v) ∧
    decode c 0x24 o = .ok (.fbGetFlat o.i) ∧ decode c 0x25 o = .ok (.fbSetFlat o.i o.v) ∧
    decode c 0x30 o = .ok (.outColor o.v) ∧
    decode c 0x31 o = .ok (.outSyncSet (if o.s = 0 then .horizontal else .vertical)) ∧
    decode c 0x32 o = .ok (.outSyncClr (if o.s = 0 then .horizontal else .vertical)) ∧
    decode c 0x33 o = .ok (.pad o.k.toNat) ∧ decode c 0x40 o = .ok (.encodeColor o.f) ∧
    decode c 0x50 o = .ok .hostArm ∧ decode c 0x51 o = .ok .hostDisarm) ∧
  (∀ (c : Params) (o : Operands) (op : BitVec 8),
    op ∉ ([0x00, 0x01, 0x02, 0x03, 0x10, 0x20, 0x21, 0x22, 0x23, 0x24, 0x25, 0x30, 0x31, 0x32, 0x33,
      0x40, 0x50, 0x51] : List (BitVec 8)) → decode c op o = .error (reservedCode op)) ∧
  (∀ i : Instr,
    (issuer i = .lineTimer ↔ opcode i ∈ ([0x00, 0x01, 0x02, 0x03] : List (BitVec 8))) ∧
    (issuer i = .handler ↔
      opcode i ∈ ([0x10, 0x22, 0x25, 0x30, 0x31, 0x32, 0x33] : List (BitVec 8))) ∧
    (issuer i = .host ↔
      opcode i ∈ ([0x20, 0x21, 0x23, 0x24, 0x40, 0x50, 0x51] : List (BitVec 8))))

/-- 30_encoding R71: the decoder answers the row whose code equals `op`, or `reserved`; no two rows
share a code. -/
def Obligations.DecodeTotalUnambiguous : Prop :=
  (∀ (c : Params) (op : BitVec 8) (o : Operands),
    (∃ i, decode c op o = .ok i ∧ opcode i = op) ∨
    ((∃ e, decode c op o = .error e) ∧ ∀ i, opcode i ≠ op)) ∧
  (∀ i j : Instr, opcode i = opcode j → asmName i = asmName j)

/-- 30_encoding R64, R66: decoding the encoding of a well-formed operation gives it back with every
operand, and what the decoder answers is well formed and is the decoding of its own encoding. -/
def Obligations.DecodeEncode : Prop :=
  (∀ (c : Params) (i : Instr), WellFormed c i = true →
    decode c (encode i).1 (encode i).2 = .ok i) ∧
  (∀ (c : Params) (op : BitVec 8) (o : Operands) (i : Instr), decode c op o = .ok i →
    WellFormed c i = true ∧ (encode i).1 = op ∧ decode c op (encode i).2 = .ok i)

/-! ### Colour encoding -/

/-- 40_color_encoding R77: `ENCODE` answers the word whose `SET` is `f` and whose `CLR` is its
complement, and writes nothing; it is injective and its image is the encoded words. The last clause
says, of R79, that the OR of two requests sets the union of their lines. -/
def Obligations.EncodeColour : Prop :=
  (∀ c o, decode c 0x40 o = .ok (.encodeColor o.f)) ∧
  (∀ f s, exec (.encodeColor f) s = .next { s with resp := some (encodePixel f) }) ∧
  (∀ f : Flags, (encodePixel f).extractLsb' 0 9 = f ∧ (encodePixel f).extractLsb' 9 9 = ~~~f) ∧
  (∀ f g : Flags, encodePixel f = encodePixel g → f = g) ∧
  (∀ v : Pixel, v.extractLsb' 9 9 = ~~~(v.extractLsb' 0 9) ↔ encodePixel (v.extractLsb' 0 9) = v) ∧
  encodePixel 0x000#9 = 0x3FE00#18 ∧ encodePixel 0x1FF#9 = 0x001FF#18 ∧
  encodePixel 0x007#9 = 0x3F007#18 ∧
  (∀ f g : Flags, (encodePixel (f ||| g)).extractLsb' 0 9 =
    (encodePixel f).extractLsb' 0 9 ||| (encodePixel g).extractLsb' 0 9)

/-! ### Frame Buffer -/

/-- 41_frame_buffer R80. -/
def Obligations.FbGetReadsCell : Prop :=
  (∀ c o, busesFit c o → decode c 0x20 o = .ok (.fbGet o.x o.y)) ∧
  (∀ (s : State) (x y : Nat), x < s.cfg.w → y < s.cfg.h →
    exec (.fbGet x y) s = .next { s with resp := some (Memory.read s.fb (y * s.cfg.w + x)) }) ∧
  (∀ (s : State) (x y : Nat), ¬(x < s.cfg.w ∧ y < s.cfg.h) →
    exec (.fbGet x y) s = .next { s with fault := s.fault ||| 0x01, resp := some 0 })

/-- 41_frame_buffer R81: the checks in their order, then one cell written and no other. -/
def Obligations.FbSetWritesCell : Prop :=
  (∀ c o, busesFit c o → decode c 0x21 o = .ok (.fbSet o.x o.y o.v)) ∧
  (∀ (s : State) (x y : Nat) (v : Pixel), s.armed = true →
    exec (.fbSet x y v) s = .next { s with fault := s.fault ||| 0x08, resp := some 0 }) ∧
  (∀ (s : State) (x y : Nat) (v : Pixel), s.armed = false → ¬(x < s.cfg.w ∧ y < s.cfg.h) →
    exec (.fbSet x y v) s = .next { s with fault := s.fault ||| 0x01, resp := some 0 }) ∧
  (∀ (s : State) (x y : Nat) (v : Pixel), s.armed = false → x < s.cfg.w → y < s.cfg.h →
    v.extractLsb' 9 9 ≠ ~~~(v.extractLsb' 0 9) →
    exec (.fbSet x y v) s = .next { s with fault := s.fault ||| 0x02, resp := some 0 }) ∧
  (∀ (s : State) (x y : Nat) (v : Pixel), s.armed = false → x < s.cfg.w → y < s.cfg.h →
    v.extractLsb' 9 9 = ~~~(v.extractLsb' 0 9) →
    ∃ m, exec (.fbSet x y v) s = .next { s with fb := m, resp := some 0 } ∧
      ∀ j, Memory.read m j = if j = y * s.cfg.w + x then v else Memory.read s.fb j)

/-- 41_frame_buffer R82, R88: `FB_ROW y` answers the view of row `y`, whose element `x` is the cell
`y*W + x` at the time it is read; a row out of range raises `RANGE` and answers none. The view stands
in the model's field `view` (log 6). -/
def Obligations.FbRowAnswersView : Prop :=
  (∀ c o, busesFit c o → decode c 0x22 o = .ok (.fbRow o.y)) ∧
  (∀ (s : State) (y : Nat), y < s.cfg.h → exec (.fbRow y) s = .next { s with view := some y }) ∧
  (∀ (s : State) (y : Nat), s.cfg.h ≤ y →
    exec (.fbRow y) s = .next { s with view := none, fault := s.fault ||| 0x01 }) ∧
  (∀ (t : State) (y x : Nat), viewCell t y x = Memory.read t.fb (y * t.cfg.w + x))

/-- 41_frame_buffer R83: the checks in their order, then every cell written. -/
def Obligations.FbFillWritesEveryCell : Prop :=
  (∀ c o, decode c 0x23 o = .ok (.fbFill o.v)) ∧
  (∀ (s : State) (v : Pixel), s.armed = true →
    exec (.fbFill v) s = .next { s with fault := s.fault ||| 0x08, resp := some 0 }) ∧
  (∀ (s : State) (v : Pixel), s.armed = false → v.extractLsb' 9 9 ≠ ~~~(v.extractLsb' 0 9) →
    exec (.fbFill v) s = .next { s with fault := s.fault ||| 0x02, resp := some 0 }) ∧
  (∀ (s : State) (v : Pixel), s.armed = false → v.extractLsb' 9 9 = ~~~(v.extractLsb' 0 9) →
    ∃ m, exec (.fbFill v) s = .next { s with fb := m, resp := some 0 } ∧
      ∀ j, Memory.read m j = if j < s.cfg.n then v else Memory.read s.fb j)

/-- 41_frame_buffer R84 and 20_memory R46: the flat read, and its agreement with the read by
coordinates in both directions. -/
def Obligations.FbGetFlatReadsCell : Prop :=
  (∀ c o, busesFit c o → decode c 0x24 o = .ok (.fbGetFlat o.i)) ∧
  (∀ (s : State) (i : Nat), i < s.cfg.n →
    exec (.fbGetFlat i) s = .next { s with resp := some (Memory.read s.fb i) }) ∧
  (∀ (s : State) (i : Nat), s.cfg.n ≤ i →
    exec (.fbGetFlat i) s = .next { s with fault := s.fault ||| 0x01, resp := some 0 }) ∧
  (∀ (s : State) (x y : Nat), x < s.cfg.w → y < s.cfg.h →
    exec (.fbGetFlat (y * s.cfg.w + x)) s = exec (.fbGet x y) s) ∧
  (∀ (s : State) (i : Nat), i < s.cfg.n →
    exec (.fbGetFlat i) s = exec (.fbGet (i % s.cfg.w) (i / s.cfg.w)) s)

/-- 41_frame_buffer R85: the checks in their order, then one cell written and no other. -/
def Obligations.FbSetFlatWritesCell : Prop :=
  (∀ c o, busesFit c o → decode c 0x25 o = .ok (.fbSetFlat o.i o.v)) ∧
  (∀ (s : State) (i : Nat) (v : Pixel), s.cfg.n ≤ i →
    exec (.fbSetFlat i v) s = .next { s with fault := s.fault ||| 0x01 }) ∧
  (∀ (s : State) (i : Nat) (v : Pixel), i < s.cfg.n → v.extractLsb' 9 9 ≠ ~~~(v.extractLsb' 0 9) →
    exec (.fbSetFlat i v) s = .next { s with fault := s.fault ||| 0x02 }) ∧
  (∀ (s : State) (i : Nat) (v : Pixel), i < s.cfg.n → v.extractLsb' 9 9 = ~~~(v.extractLsb' 0 9) →
    ∃ m, exec (.fbSetFlat i v) s = .next { s with fb := m } ∧
      ∀ j, Memory.read m j = if j = i then v else Memory.read s.fb j)

/-- 41_frame_buffer R86: a set followed by a get at the same place returns the value written, and every
other cell is unchanged, in both views. -/
def Obligations.SetThenGet : Prop :=
  (∀ (s : State) (x y : Nat) (v : Pixel), s.armed = false → x < s.cfg.w → y < s.cfg.h →
    v.extractLsb' 9 9 = ~~~(v.extractLsb' 0 9) →
    ∃ t u, exec (.fbSet x y v) s = .next t ∧ exec (.fbGet x y) t = .next u ∧ u.resp = some v ∧
      ∀ x' y', x' < s.cfg.w → y' < s.cfg.h → ¬(x' = x ∧ y' = y) →
        Memory.read u.fb (y' * s.cfg.w + x') = Memory.read s.fb (y' * s.cfg.w + x')) ∧
  (∀ (s : State) (i : Nat) (v : Pixel), i < s.cfg.n → v.extractLsb' 9 9 = ~~~(v.extractLsb' 0 9) →
    ∃ t u, exec (.fbSetFlat i v) s = .next t ∧ exec (.fbGetFlat i) t = .next u ∧ u.resp = some v ∧
      ∀ j, j ≠ i → Memory.read u.fb j = Memory.read s.fb j)

/-- 20_memory R48: a row and a palette access out of range. The accesses of the host are in
`FbGetReadsCell`, `FbSetWritesCell` and `FbGetFlatReadsCell`. What the handler that issued the access
does is the model's choice (log 4): a scheduler step performs none of its writes, and `EV_AD` ends
where `FB_ROW` answered no view. No valid configuration reaches either. -/
def Obligations.InternalIndexOutOfRange : Prop :=
  (∀ s : State, s.line ≠ s.cfg.v → s.cur < s.cfg.n → 1 ≤ s.cfg.chunk → s.cfg.p ≤ s.widx →
    exec .schedStep s = .next { s with fault := s.fault ||| 0x01 }) ∧
  (∀ s : State, s.vact = true → s.cfg.bandTop ≤ s.line → s.line < s.cfg.bandBot →
    s.cfg.h ≤ s.row →
    exec .evAd s = .next { s with
      color := s.cfg.borderFlags
      fault := s.fault ||| 0x01
      trace := [.outColor (encodePixel s.cfg.borderFlags), .pad s.cfg.borderCycles] })

/-! ### The four events -/

/-- 42_scan_timing R90. -/
def Obligations.SyncStartEvent : Prop :=
  (∀ c o, decode c 0x00 o = .ok .evSs) ∧
  (∀ s : State, exec .evSs s = .next { s with hsync := false, trace := [.outSyncClr .horizontal] })

/-- 42_scan_timing R91, with R93, R94, R96, R97: a visible line, the frame end, and every other
non-visible line, on which the scheduler step is the last action. -/
def Obligations.BackPorchEvent : Prop :=
  (∀ c o, decode c 0x01 o = .ok .evBp) ∧
  (∀ s : State,
    let line := s.line + 1
    let row := line / (s.cfg.v / s.cfg.h)
    let on := s.cfg.vsyncActiveLevel
    let vsync := if line = s.cfg.vsOff then !on else if line = s.cfg.vsOn then on else s.vsync
    let trace : List Instr := [.outSyncSet .horizontal] ++
      (if line = s.cfg.vsOn then [if on then .outSyncSet .vertical else .outSyncClr .vertical]
        else []) ++
      (if line = s.cfg.vsOff then [if on then .outSyncClr .vertical else .outSyncSet .vertical]
        else [])
    (line < s.cfg.v → exec .evBp s = .next
      { s with hsync := true, line := line, row := row, trace := [.outSyncSet .horizontal] }) ∧
    (s.cfg.v ≤ line → line = s.cfg.t → exec .evBp s = .next
      { s with hsync := true, line := 0, vact := true, row := 0, vsync := vsync, trace := trace }) ∧
    (s.cfg.v ≤ line → line ≠ s.cfg.t → ∃ t, exec .evBp s = .next t ∧ exec .schedStep
      { s with hsync := true, line := line, row := row,
               vact := if line = s.cfg.v then false else s.vact,
               vsync := vsync, trace := trace } = .next t))

/-- 42_scan_timing R92: after `EV_BP`, logical row `r` is selected exactly on the visible lines from
`LPR*r` to `LPR*r + LPR - 1`. -/
def Obligations.RowMapping : Prop :=
  ∀ s : State, s.cfg.valid = true →
    ∃ t, exec .evBp s = .next t ∧ (t.line < s.cfg.v → t.row < s.cfg.h ∧
      ∀ r, t.row = r ↔
        s.cfg.v / s.cfg.h * r ≤ t.line ∧ t.line ≤ s.cfg.v / s.cfg.h * r + s.cfg.v / s.cfg.h - 1)

/-- 42_scan_timing R95: an event keeps vertical sync asserted exactly on the lines from `VS_ON` to
`VS_OFF - 1`, and only `EV_BP` moves it. -/
def Obligations.VsyncOnMarkerLines : Prop :=
  ∀ (s : State) (k : Phase), s.cfg.valid = true → s.line < s.cfg.t → vsyncOnMarkers s →
    ∃ t, exec (eventInstr k) s = .next t ∧ vsyncOnMarkers t ∧ t.line < s.cfg.t ∧
      (k ≠ .bp → t.vsync = s.vsync)

/-- 42_scan_timing R99: with video inactive nothing happens; else the border, the row or the border
again, the border and the blank colour, in `2W + 5` trace entries. -/
def Obligations.ActiveDrawEvent : Prop :=
  (∀ c o, decode c 0x02 o = .ok .evAd) ∧
  (∀ s : State, s.vact = false → exec .evAd s = .next { s with trace := [] }) ∧
  (∀ s : State, s.vact = true → s.cfg.bandTop ≤ s.line → s.line < s.cfg.bandBot →
    s.row < s.cfg.h →
    exec .evAd s = .next { s with
      pixelX := s.cfg.w
      color := 0
      trace := lineTrace s.cfg (fun x => Memory.read s.fb (s.row * s.cfg.w + x)) }) ∧
  (∀ s : State, s.vact = true → ¬(s.cfg.bandTop ≤ s.line ∧ s.line < s.cfg.bandBot) →
    exec .evAd s = .next { s with
      pixelX := s.cfg.w
      color := 0
      trace := lineTrace s.cfg (fun _ => encodePixel s.cfg.borderFlags) }) ∧
  (∀ (c : Params) (px : Nat → Pixel), (lineTrace c px).length = 2 * c.w + 5)

/-- 42_scan_timing R100: on an interior line of a state in the ranges of 10_state R42 the row is in
range, so `EV_AD` raises no fault, and it streams the cells `ROW*W` to `ROW*W + W - 1`, left to right. -/
def Obligations.InteriorLineReadout : Prop :=
  ∀ s : State, InRange s → s.vact = true → s.cfg.bandTop ≤ s.line → s.line < s.cfg.bandBot →
    s.row = s.line / (s.cfg.v / s.cfg.h) ∧ s.row < s.cfg.h ∧
    (∀ x, x < s.cfg.w → s.row * s.cfg.w + x < s.cfg.n) ∧
    ∃ t, exec .evAd s = .next t ∧ t.fault = s.fault ∧ t.fb = s.fb ∧
      ∀ x, x < s.cfg.w →
        t.trace[2 * x + 2]? = some (.outColor (Memory.read s.fb (s.row * s.cfg.w + x))) ∧
        t.trace[2 * x + 3]? = some (.pad s.cfg.pixelCycles)

/-- 42_scan_timing R101: a visible border line shows the border colour for `2*BORDER_CYCLES +
W*PIXEL_CYCLES` cycles, then blank, and does not depend on the Frame Buffer. -/
def Obligations.BorderLine : Prop :=
  ∀ s : State, s.vact = true → ¬(s.cfg.bandTop ≤ s.line ∧ s.line < s.cfg.bandBot) →
    ∃ t, exec .evAd s = .next t ∧ t.color = 0 ∧
      (∀ g ∈ segments s.color t.trace, g.1 = s.cfg.borderFlags) ∧
      ((segments s.color t.trace).map Prod.snd).sum =
        2 * s.cfg.borderCycles + s.cfg.w * s.cfg.pixelCycles ∧
      ∀ m, exec .evAd { s with fb := m } = .next { t with fb := m }

/-- 42_scan_timing R102. -/
def Obligations.FrontPorchEvent : Prop :=
  (∀ c o, decode c 0x03 o = .ok .evFp) ∧
  (∀ s : State, exec .evFp s = .next { s with color := 0, trace := [.outColor (encodePixel 0)] })

/-- 42_scan_timing R103: from line 0, `EV_BP` number `j` leaves `LINE = j` for `j` below `T`, and number
`T` leaves line 0 with video active. -/
def Obligations.LineSequencing : Prop :=
  ∀ s : State, s.cfg.valid = true → s.line = 0 →
    (∀ j, 1 ≤ j → j ≤ s.cfg.t - 1 →
      ∃ t, execAll (List.replicate j .evBp) s = .next t ∧ t.line = j) ∧
    (∃ t, execAll (List.replicate s.cfg.t .evBp) s = .next t ∧ t.line = 0 ∧ t.vact = true)

/-! ### The scheduler -/

/-- 43_scheduler R105, with R106, R107, R109 and R110: the hold, the advance with its first chunk, the
continuation chunk, and the no-op. -/
def Obligations.SchedulerStep : Prop :=
  (∀ c o, decode c 0x10 o = .ok .schedStep) ∧
  (∀ s : State, s.line = s.cfg.v → s.holdCnt + 1 < s.cfg.hold →
    exec .schedStep s = .next { s with holdCnt := s.holdCnt + 1 }) ∧
  (∀ (s : State) (f : Flags), s.line = s.cfg.v → s.cfg.hold ≤ s.holdCnt + 1 →
    s.cfg.palette[(s.widx + 1) % s.cfg.p]? = some f →
    ∃ m, exec .schedStep s = .next { s with
        holdCnt := 0
        widx := (s.widx + 1) % s.cfg.p
        cur := min s.cfg.chunk s.cfg.n
        fb := m } ∧
      ∀ j, Memory.read m j =
        if j < min s.cfg.chunk s.cfg.n then encodePixel f else Memory.read s.fb j) ∧
  (∀ (s : State) (f : Flags), s.line ≠ s.cfg.v → s.cur < s.cfg.n →
    s.cfg.palette[s.widx]? = some f →
    ∃ m, exec .schedStep s = .next { s with cur := min (s.cur + s.cfg.chunk) s.cfg.n, fb := m } ∧
      ∀ j, Memory.read m j =
        if s.cur ≤ j ∧ j < min (s.cur + s.cfg.chunk) s.cfg.n then encodePixel f
        else Memory.read s.fb j) ∧
  (∀ s : State, s.line ≠ s.cfg.v → s.cfg.n ≤ s.cur → exec .schedStep s = .next s)

/-- 43_scheduler R112: one step changes at most `CHUNK` cells, contiguous and below `N`: those from 0 at
a window start, from `CUR` on every other line. -/
def Obligations.BoundedWork : Prop :=
  ∀ s : State, ∃ t, exec .schedStep s = .next t ∧
    ∀ j, Memory.read t.fb j ≠ Memory.read s.fb j →
      (if s.line = s.cfg.v then 0 else s.cur) ≤ j ∧
      j < (if s.line = s.cfg.v then 0 else s.cur) + s.cfg.chunk ∧ j < s.cfg.n

/-- 43_scheduler R113: from the line before a window whose hold elapses, `m` lines into the window
exactly the cells below `m*CHUNK` hold the next palette word; after `ceil(N/CHUNK)` lines, which are at
most `T - V`, every cell does and `CUR = N`; the cells written sum to `N`. -/
def Obligations.RewriteCompletes : Prop :=
  ∀ s : State, s.cfg.valid = true → InRange s → s.line = s.cfg.v - 1 →
    s.holdCnt + 1 = s.cfg.hold →
    ∃ f, s.cfg.palette[(s.widx + 1) % s.cfg.p]? = some f ∧
      (∀ m, 1 ≤ m → m ≤ s.cfg.t - s.cfg.v →
        ∃ t, execAll (List.replicate m .evBp) s = .next t ∧ t.line = s.cfg.v - 1 + m ∧
          t.widx = (s.widx + 1) % s.cfg.p ∧ t.cur = min (m * s.cfg.chunk) s.cfg.n ∧
          ∀ j, j < s.cfg.n → Memory.read t.fb j =
            if j < m * s.cfg.chunk then encodePixel f else Memory.read s.fb j) ∧
      (s.cfg.n + s.cfg.chunk - 1) / s.cfg.chunk ≤ s.cfg.t - s.cfg.v ∧
      (∃ t, execAll (List.replicate ((s.cfg.n + s.cfg.chunk - 1) / s.cfg.chunk) .evBp) s = .next t ∧
        t.cur = s.cfg.n ∧ ∀ j, j < s.cfg.n → Memory.read t.fb j = encodePixel f) ∧
      ((List.range (s.cfg.t - s.cfg.v)).map fun m =>
        min ((m + 1) * s.cfg.chunk) s.cfg.n - min (m * s.cfg.chunk) s.cfg.n).sum = s.cfg.n

/-- 43_scheduler R114: after the boot sequence and `k` frames, `WIDX = (k / HOLD) mod P` and every cell
holds that palette word; the run ends at line 0 without a fault. -/
def Obligations.CyclicalLaw : Prop :=
  ∀ (c : Params) (k : Nat), c.valid = true →
    ∃ t f, execAll (bootOps c ++ framesOps c k) (State.resetOf c) = .next t ∧
      t.widx = (k / c.hold) % c.p ∧ t.holdCnt = k % c.hold ∧
      c.palette[(k / c.hold) % c.p]? = some f ∧
      (∀ j, j < c.n → Memory.read t.fb j = encodePixel f) ∧ t.line = 0 ∧ t.fault = 0

/-- 70_reset_and_hazards R159: a rewrite begun at a window start is unfinished when the next visible
region starts exactly when `CHUNK * (T - V) < N`, for every hold duration; the cells split at `CUR`.
With `HOLD = 1` the cells from `CHUNK * (T - V)` on are never repainted. -/
def Obligations.TearingBoundary : Prop :=
  (∀ s : State, InRange s → s.line = s.cfg.v - 1 → s.holdCnt + 1 = s.cfg.hold →
    ∃ t f, execAll (List.replicate (s.cfg.t - s.cfg.v + 1) .evBp) s = .next t ∧
      t.line = 0 ∧ t.vact = true ∧ s.cfg.palette[t.widx]? = some f ∧
      (t.cur < s.cfg.n ↔ s.cfg.chunk * (s.cfg.t - s.cfg.v) < s.cfg.n) ∧
      ∀ j, j < s.cfg.n → Memory.read t.fb j =
        if j < t.cur then encodePixel f else Memory.read s.fb j) ∧
  (∀ (s : State) (k : Nat), InRange s → s.line = 0 → s.cfg.hold = 1 →
    ∃ t, execAll (framesOps s.cfg k) s = .next t ∧
      ∀ j, s.cfg.chunk * (s.cfg.t - s.cfg.v) ≤ j → j < s.cfg.n →
        Memory.read t.fb j = Memory.read s.fb j)

/-- 20_memory R54: when the `EV_BP` of a line changes a cell, that line is not visible and its `EV_AD`
reads no cell and does nothing; an `EV_AD` never changes a cell. -/
def Obligations.WriterAndReaderDisjoint : Prop :=
  (∀ s : State, InRange s →
    ∃ t, exec .evBp s = .next t ∧
      ((∃ j, Memory.read t.fb j ≠ Memory.read s.fb j) →
        s.cfg.v ≤ t.line ∧ t.vact = false ∧
        ∀ m, exec .evAd { t with fb := m } = .next { t with fb := m, trace := [] })) ∧
  (∀ s : State, ∃ t, exec .evAd s = .next t ∧ t.fb = s.fb)

/-! ### Output stage -/

/-- 44_output_host R115: the `CLR` lines cleared, then the `SET` lines set; an encoded word leaves
exactly its `SET` lines. -/
def Obligations.OutColorDrivesLines : Prop :=
  (∀ c o, decode c 0x30 o = .ok (.outColor o.v)) ∧
  (∀ (s : State) (v : Pixel), exec (.outColor v) s = .next { s with
      color := (s.color &&& ~~~(v.extractLsb' 9 9)) ||| v.extractLsb' 0 9
      trace := s.trace ++ [.outColor v] }) ∧
  (∀ (s : State) (v : Pixel), v.extractLsb' 9 9 = ~~~(v.extractLsb' 0 9) →
    exec (.outColor v) s = .next { s with
      color := v.extractLsb' 0 9
      trace := s.trace ++ [.outColor v] })

/-- 44_output_host R116, R117: a sync line driven to 1 or to 0, the other left alone. -/
def Obligations.OutSyncDrivesLine : Prop :=
  (∀ (c : Params) (o : Operands), o.s = 0 →
    decode c 0x31 o = .ok (.outSyncSet .horizontal) ∧
    decode c 0x32 o = .ok (.outSyncClr .horizontal)) ∧
  (∀ (c : Params) (o : Operands), o.s = 1 →
    decode c 0x31 o = .ok (.outSyncSet .vertical) ∧
    decode c 0x32 o = .ok (.outSyncClr .vertical)) ∧
  (∀ s : State,
    exec (.outSyncSet .horizontal) s = .next
      { s with hsync := true, trace := s.trace ++ [.outSyncSet .horizontal] } ∧
    exec (.outSyncSet .vertical) s = .next
      { s with vsync := true, trace := s.trace ++ [.outSyncSet .vertical] } ∧
    exec (.outSyncClr .horizontal) s = .next
      { s with hsync := false, trace := s.trace ++ [.outSyncClr .horizontal] } ∧
    exec (.outSyncClr .vertical) s = .next
      { s with vsync := false, trace := s.trace ++ [.outSyncClr .vertical] })

/-- 44_output_host R118: `PAD k` changes no register, memory or output line (the trace records it); in
a handler the operation after it waits exactly `k` cycles. -/
def Obligations.PadHolds : Prop :=
  (∀ c o, decode c 0x33 o = .ok (.pad o.k.toNat)) ∧
  (∀ (s : State) (k : Nat), exec (.pad k) s = .next { s with trace := s.trace ++ [.pad k] }) ∧
  (∀ (w k : Nat) (op : Instr) (rest : List Instr), ∃ tail,
    withWaits w (.pad k :: op :: rest) = ⟨w, .pad k⟩ :: ⟨k, op⟩ :: tail)

/-- 44_output_host R123: no host operation, no Frame Buffer operation, no `SCHED_STEP` and no `PAD`
changes an output line, and in INIT mode the outputs are constant. -/
def Obligations.OutputStability : Prop :=
  (∀ (i : Instr) (s : State), (∀ k, i ≠ eventInstr k) →
    (isOutput i = false ∨ ∃ k, i = .pad k) →
    ∃ t, exec i s = .next t ∧ SameOutputs s t) ∧
  (∀ s : State, s.cfg.admitted = true → notReset s → s.armed = false → s.busy = none →
    ∃ t, step s = .next t ∧ SameOutputs s t)

/-- 44_output_host R124: two event operations with the same line trace from the same output registers
leave the same output registers. -/
def Obligations.SameTraceSameOutputs : Prop :=
  ∀ (s s' : State) (k k' : Phase), SameOutputs s s' →
    ∃ t t', exec (eventInstr k) s = .next t ∧ exec (eventInstr k') s' = .next t' ∧
      (t.trace = t'.trace → SameOutputs t t')

/-! ### Host control and the host port -/

/-- 44_output_host R120. -/
def Obligations.HostArmStartsTimer : Prop :=
  (∀ c o, decode c 0x50 o = .ok .hostArm) ∧
  (∀ s : State, s.armed = false →
    exec .hostArm s = .next { s with armed := true, tcnt := 0, pend := [], resp := some 0 }) ∧
  (∀ s : State, s.armed = true →
    exec .hostArm s = .next { s with fault := s.fault ||| 0x08, resp := some 0 })

/-- 44_output_host R121. -/
def Obligations.HostDisarmStopsTimer : Prop :=
  (∀ c o, decode c 0x51 o = .ok .hostDisarm) ∧
  (∀ s : State, exec .hostDisarm s = .next { s with armed := false, pend := [], resp := some 0 })

/-- 44_output_host R122: in RUN mode a host write and a second arming raise `HOST_ARMED` and have no
other effect; the reads, `ENCODE` and `HOST_DISARM` raise it in no mode. -/
def Obligations.HostWritesRefusedInRun : Prop :=
  (∀ (s : State) (i : Instr), s.armed = true →
    ((∃ x y v, i = .fbSet x y v) ∨ (∃ v, i = .fbFill v) ∨ i = .hostArm) →
    exec i s = .next { s with fault := s.fault ||| 0x08, resp := some 0 }) ∧
  (∀ (s : State) (i : Instr),
    ((∃ x y, i = .fbGet x y) ∨ (∃ j, i = .fbGetFlat j) ∨ (∃ f, i = .encodeColor f) ∨
      i = .hostDisarm) →
    ∃ t, exec i s = .next t ∧ t.fault &&& 0x08 = s.fault &&& 0x08)

/-- 30_encoding R68, R69: a host request with a reserved or an internal-only code raises `ILLEGAL` and
has no other effect; a host write or a second arming in RUN mode raises `HOST_ARMED`. -/
def Obligations.IllegalHostCodes : Prop :=
  (∀ (s : State) (r : HostReq),
    r.op ∉ ([0x20, 0x21, 0x23, 0x24, 0x40, 0x50, 0x51] : List (BitVec 8)) →
    hostPerform r s = .next { s with fault := s.fault ||| 0x04, resp := some 0 }) ∧
  (∀ (s : State) (r : HostReq), s.armed = true →
    r.op ∈ ([0x21, 0x23, 0x50] : List (BitVec 8)) →
    hostPerform r s = .next { s with fault := s.fault ||| 0x08, resp := some 0 })

/-- 10_state R38: `FAULT` bits are sticky. No operation clears one, no clock cycle without `RST` does,
and a cycle with `RST` clears them all. -/
def Obligations.FaultIsSticky : Prop :=
  (∀ (i : Instr) (s : State), ∃ t, exec i s = .next t ∧ s.fault &&& t.fault = s.fault) ∧
  (∀ s : State, s.cfg.admitted = true → notReset s →
    ∃ t, step s = .next t ∧ s.fault &&& t.fault = s.fault) ∧
  (∀ s : State, s.cfg.admitted = true → (currentInput s).rst = true →
    ∃ t, step s = .next t ∧ t.fault = 0)

/-- 60_exceptions R143: what the host gets back does not depend on the line counter, the scheduler
registers or `TCNT`, and only `HOST_ARM` writes `TCNT`. -/
def Obligations.HostCannotReadTimer : Prop :=
  ∀ (s : State) (r : HostReq) (line row px widx hold cur tcnt : Nat) (vact : Bool),
    ∃ t t', hostPerform r s = .next t ∧
      hostPerform r { s with line := line, vact := vact, row := row, pixelX := px, widx := widx,
                             holdCnt := hold, cur := cur, tcnt := tcnt } = .next t' ∧
      t'.resp = t.resp ∧ t'.fault = t.fault ∧ t'.fb = t.fb ∧ (r.op ≠ 0x50 → t.tcnt = s.tcnt)

/-! ### Whole-machine rules over all operations -/

/-- 41_frame_buffer R87 and 60_exceptions R125: no operation changes the configuration; only `HOST_ARM`
enters RUN and only `HOST_DISARM` leaves it; only they write `PEND`, and `HOST_ARM` alone writes
`TCNT`. -/
def Obligations.OperationsKeepModeAndConfiguration : Prop :=
  ∀ (i : Instr) (s : State), ∃ t, exec i s = .next t ∧
    t.cfg = s.cfg ∧ t.busy = s.busy ∧ t.request = s.request ∧ t.inputs = s.inputs ∧
    t.draws = s.draws ∧
    (i ≠ .hostArm → t.tcnt = s.tcnt) ∧
    (i ≠ .hostArm → i ≠ .hostDisarm → t.pend = s.pend ∧ t.armed = s.armed) ∧
    (i = .hostArm → t.armed = true) ∧ (i = .hostDisarm → t.armed = false)

/-- 60_exceptions R131: in the ranges of 10_state R42 no event operation and no scheduler step raises a
fault. -/
def Obligations.EventsRaiseNoFault : Prop :=
  ∀ (s : State) (k : Phase), InRange s →
    (∃ t, exec (eventInstr k) s = .next t ∧ t.fault = s.fault) ∧
    (∃ t, exec .schedStep s = .next t ∧ t.fault = s.fault)

/-! ### Reset, boot and stimulus programs -/

/-- 70_reset_and_hazards R151: every register's reset value, for every configuration. -/
def Obligations.ResetValues : Prop :=
  (∀ c : Params, RegistersAtReset (State.resetOf c) ∧ (State.resetOf c).cfg = c) ∧
  RegistersAtReset State.reset

/-- 70_reset_and_hazards R150: a cycle with `RST = 1` gives every register its reset value, drops the
pending request and writes no cell; a cell that a running handler was writing keeps its new or its old
word. Without `RST` the block stays in INIT mode until `HOST_ARM`. -/
def Obligations.ResetCycle : Prop :=
  (∀ s : State, s.cfg.admitted = true → (currentInput s).rst = true →
    ∃ t, step s = .next t ∧ RegistersAtReset t ∧ t.cfg = s.cfg ∧ t.request = none ∧
      (s.busy = none → t.fb = s.fb) ∧
      ∀ r, s.busy = some r → ∀ j,
        Memory.read t.fb j = Memory.read s.fb j ∨ Memory.read t.fb j = Memory.read r.fbBefore j) ∧
  (∀ s : State, s.cfg.admitted = true → notReset s → s.armed = false → s.busy = none →
    ∃ t, step s = .next t ∧ (t.armed = true → ∃ r, (afterInput s).request = some r ∧ r.op = 0x50))

/-- 70_reset_and_hazards R153: the boot sequence paints the whole buffer with the first palette colour
and arms the timer; every cell is then an encoded word. -/
def Obligations.BootSequence : Prop :=
  ∀ c : Params, c.valid = true →
    ∃ t f, execAll [.fbFill (bootFill c), .hostArm] (State.resetOf c) = .next t ∧
      c.palette[0]? = some f ∧ t.armed = true ∧ t.tcnt = 0 ∧ t.fault = 0 ∧ CellsEncoded t ∧
      ∀ j, j < c.n → Memory.read t.fb j = encodePixel f

/-- 30_encoding R76: after any stimulus program that runs, an event in INIT mode is refused, an event out
of the order of 42_scan_timing R89 is refused (93_implementation_defined row 11), and the event that is
due and a host request are performed, so the program goes on from there. `dueAfter` follows R89: `EV_SS`
after an arming, the next event of the line after an event, and the same after any other host request;
the event due at the start is an argument (log 29). The boot program of R75 followed by frames runs as the operations it expands to. -/
def Obligations.StimulusPrograms : Prop :=
  (∀ (s t : State) (due k : Phase) (p rest : List Stim),
    runProgram due p s = .next t → t.armed = false →
    runProgram due (p ++ .event k :: rest) s = .refused .eventInInit) ∧
  (∀ (s t : State) (due k : Phase) (p rest : List Stim),
    runProgram due p s = .next t → t.armed = true → k ≠ dueAfter due p s →
    runProgram due (p ++ .event k :: rest) s = .refused .eventOutOfOrder) ∧
  (∀ (s t : State) (due k : Phase) (p rest : List Stim),
    runProgram due p s = .next t → t.armed = true → k = dueAfter due p s →
    ∃ u, exec (eventInstr k) t = .next u ∧
      runProgram due (p ++ .event k :: rest) s = runProgram k.next rest u ∧
      dueAfter due (p ++ [.event k]) s = k.next) ∧
  (∀ (s t : State) (due : Phase) (r : HostReq) (p rest : List Stim),
    runProgram due p s = .next t →
    ∃ u, hostPerform r t = .next u ∧
      dueAfter due (p ++ [.host r]) s =
        (if t.armed = false ∧ u.armed = true then .ss else dueAfter due p s) ∧
      runProgram due (p ++ .host r :: rest) s =
        runProgram (dueAfter due (p ++ [.host r]) s) rest u) ∧
  (∀ (s : State) (due : Phase) (v : Pixel) (n : Nat),
    s.cfg.admitted = true → s.armed = false →
    runProgram due (initStim v ++ framesStim s.cfg n) s =
      execAll (.fbFill v :: .hostArm :: framesOps s.cfg n) s)

/-- The invariants and the premises about the outside of the statements below hold after reset, for every
valid configuration. -/
def Obligations.ResetMeetsInvariants : Prop :=
  ∀ c : Params, c.valid = true →
    InRange (State.resetOf c) ∧ TimerInRange (State.resetOf c) ∧ OnTime (State.resetOf c) ∧
    vsyncOnMarkers (State.resetOf c) ∧ noReset (State.resetOf c) ∧
    ∀ op, noRequest op (State.resetOf c)

/-! ### One clock cycle -/

/-- 00_scope R7, 60_exceptions R148: a step answers a next state exactly under a configuration that
meets every condition but V3, so under every valid one; else it is refused by the name of a condition
that fails. That a configuration which breaks V3 alone runs is the model's choice (log 15), taken from
43_scheduler R111 and 70_reset_and_hazards R159. -/
def Obligations.StepAnswers : Prop :=
  ∀ s : State,
    ((∃ t, step s = .next t) ↔ ∀ k, k ≠ .v3 → s.cfg.holds k = true) ∧
    (s.cfg.valid = true → ∃ t, step s = .next t) ∧
    (¬(∃ t, step s = .next t) →
      ∃ k, s.cfg.holds k = false ∧ step s = .refused (.configuration k))

/-- 60_exceptions R134: when no handler runs and the head of `PEND` has waited its entry latency, the
step starts its handler: nothing is saved, no mode changes, the head leaves the queue, and a waiting host
request goes on waiting (R130). The head is that of `PEND` after this cycle's compares: what waited goes
before a match of this cycle, and with `ENTRY_LAT = 0` a match is dispatched at once. That the registers
and cells are those of the event operation already after this start cycle is the model's choice (log 14,
DEDUCED, unsafe for a claim about a register in the middle of a handler): R134 has the writes done when
the handler ends. -/
def Obligations.StepStartsEvent : Prop :=
  (∀ (s : State) (k : Phase) (rest : List Pending),
    s.cfg.admitted = true → notReset s → s.armed = true → s.busy = none →
    (afterCompare s).pend = ⟨k, 0⟩ :: rest →
    ∃ t u, exec (eventInstr k) { afterCompare s with pend := rest } = .next u ∧ step s = .next t ∧
      SameRegs t u ∧ t.fault = u.fault ∧ t.armed = true ∧ t.resp = none ∧
      t.request = (afterInput s).request ∧
      t.tcnt = (s.tcnt + 1) % s.cfg.linePeriod ∧
      t.pend = rest.map (fun e => { e with lat := e.lat - 1 }) ∧
      ∀ r, t.busy = some r → r.phase = k ∧ r.fbBefore = s.fb) ∧
  (∀ (s : State) (k : Phase) (rest : List Pending), s.pend = ⟨k, 0⟩ :: rest →
    ∃ new, (afterCompare s).pend = ⟨k, 0⟩ :: (rest ++ new)) ∧
  (∀ (s : State) (k : Phase), s.cfg.admitted = true → s.armed = true → s.busy = none →
    s.pend = [] → s.tcnt = s.cfg.off k → (afterCompare s).pend = [⟨k, s.cfg.entryLat⟩])

/-- 60_exceptions R149, R130: in a cycle in which no handler runs and no dispatch starts, with or without
a match, the step performs the waiting host request and then the clock edge; in every other cycle the
request waits. That a request is served in every such cycle, and in the cycle in which it arrives, is the
model's choice (log 8, DESIGN CHOICE, unsafe for a claim about when a request is answered), and so is
that `TCNT` does not count in the cycle of a `HOST_DISARM` (log 17, DEDUCED). -/
def Obligations.StepServesHost : Prop :=
  (∀ (s : State) (r : HostReq), s.cfg.admitted = true → notReset s → s.busy = none →
    ¬dispatches s → (afterInput s).request = some r →
    ∃ u, hostPerform r { afterCompare s with request := none } = .next u ∧
      (∀ i, decode s.cfg r.op (hostOperands r) = .ok i → issuer i = .host →
        exec i { afterCompare s with request := none } = .next u) ∧
      step s = .next { u with
        tcnt := if s.armed = true ∧ u.armed = true then (u.tcnt + 1) % s.cfg.linePeriod else u.tcnt
        pend := u.pend.map (fun e => { e with lat := e.lat - 1 }) }) ∧
  (∀ s : State, InRange s → notReset s → s.busy ≠ none ∨ dispatches s →
    ∃ t, step s = .next t ∧ t.request = (afterInput s).request ∧ t.resp = none)

/-- 60_exceptions R134, R135: a running handler performs the internal operation that is due, with the
effect `exec` gives it, and its counter goes down; in its last cycle, with or without a match, the
handler returns. -/
def Obligations.StepPerformsInternal : Prop :=
  (∀ (s : State) (r : Running) (op : Instr) (rest : List Timed),
    s.cfg.admitted = true → notReset s → s.busy = some r → r.todo = ⟨0, op⟩ :: rest →
    2 ≤ r.left → hasFault (afterCompare s).fault .budget = false → (∀ e ∈ rest.head?, e.wait ≠ 0) →
    ∃ u, exec op (afterCompare s) = .next u ∧ step s = .next { u with
      busy := some { r with left := r.left - 1,
                            todo := rest.modifyHead (fun e => { e with wait := e.wait - 1 }) }
      tcnt := if s.armed = true ∧ u.armed = true then (u.tcnt + 1) % u.cfg.linePeriod else u.tcnt
      pend := u.pend.map (fun e => { e with lat := e.lat - 1 }) }) ∧
  (∀ (s : State) (r : Running) (w : Nat) (op : Instr),
    s.cfg.admitted = true → notReset s → s.busy = some r → r.todo = [⟨w, op⟩] → r.left ≤ 1 →
    ∃ u, exec op (afterCompare s) = .next u ∧ step s = .next { u with
      busy := none
      tcnt := if s.armed = true ∧ u.armed = true then (u.tcnt + 1) % u.cfg.linePeriod else u.tcnt
      pend := u.pend.map (fun e => { e with lat := e.lat - 1 }) })

/-- 60_exceptions R136: while `ARMED = 1` the counter counts modulo `LINE_PERIOD`; while `ARMED = 0` it
holds its value; the first armed cycle has `TCNT = 0` (R137). -/
def Obligations.TimerCounts : Prop :=
  ∀ s : State, InRange s → notReset s →
    ∃ t, step s = .next t ∧
      (s.armed = true → t.armed = true → t.tcnt = (s.tcnt + 1) % s.cfg.linePeriod) ∧
      (s.armed = false → t.armed = false → t.tcnt = s.tcnt) ∧
      (s.armed = false → t.armed = true → t.tcnt = 0)

/-- 60_exceptions R140, R141, R133: a compare match while a handler runs sets `BUDGET` and is queued
behind what waits; a match of a source already pending is lost and sets `OVERRUN`. The first clause is
the compare itself, for every configuration in which one source matches, those that break V9 of 00_scope
R7 included; the second is the step, under every configuration it admits (log 15). -/
def Obligations.MatchWhileBusy : Prop :=
  (∀ (s : State) (k : Phase), s.armed = true → (∀ k', s.tcnt = s.cfg.off k' ↔ k' = k) →
    (k ∉ s.pend.map (fun e => e.event) →
      compareAll s = { s with
        pend := s.pend ++ [⟨k, s.cfg.entryLat⟩]
        fault := if s.busy = none then s.fault else s.fault ||| 0x20 }) ∧
    (k ∈ s.pend.map (fun e => e.event) →
      compareAll s = { s with
        fault := if s.busy = none then s.fault ||| 0x10 else s.fault ||| 0x30 })) ∧
  (∀ (s : State) (k : Phase) (r : Running), InRange s → notReset s →
    s.armed = true → s.tcnt = s.cfg.off k → s.busy = some r →
    ∃ t, step s = .next t ∧
      (k ∉ s.pend.map (fun e => e.event) →
        t.pend = s.pend.map (fun e => { e with lat := e.lat - 1 }) ++ [⟨k, s.cfg.entryLat - 1⟩] ∧
        t.fault = s.fault ||| 0x20) ∧
      (k ∈ s.pend.map (fun e => e.event) →
        t.pend = s.pend.map (fun e => { e with lat := e.lat - 1 }) ∧
        t.fault = s.fault ||| 0x30))

/-- 60_exceptions R147: between handlers, with no match, no request and nothing due, a cycle changes
nothing but the timer: in INIT mode every register keeps its value. -/
def Obligations.IdleCycle : Prop :=
  ∀ s : State, s.cfg.admitted = true → notReset s → noMatch s → s.busy = none →
    (s.armed = true → ∀ k rest, s.pend ≠ ⟨k, 0⟩ :: rest) → (afterInput s).request = none →
    step s = .next { s with
      inputs := s.inputs.tail
      resp := none
      tcnt := if s.armed = true then (s.tcnt + 1) % s.cfg.linePeriod else s.tcnt
      pend := s.pend.map (fun e => { e with lat := e.lat - 1 }) }

/-- 60_exceptions R139: the busy time of a handler run, its first cycle included, is at most
`DUR_MAX_k` and at least `DUR_MIN_k`, and a drawing `EV_AD` holds the block for the whole drawing and
the final blanking; also where the handler starts in the cycle of its match (`ENTRY_LAT = 0`). -/
def Obligations.BusyTimeBounds : Prop :=
  ∀ (s : State) (k : Phase) (rest : List Pending),
    s.cfg.valid = true → InRange s → s.cfg.durMin k ≤ s.cfg.durMax k → notReset s →
    s.armed = true → s.busy = none → (afterCompare s).pend = ⟨k, 0⟩ :: rest →
    ∃ t, step s = .next t ∧
      (∀ r, t.busy = some r → r.phase = k ∧ r.left + 1 ≤ s.cfg.durMax k ∧
        s.cfg.durMin k ≤ r.left + 1 ∧
        (k = .ad → s.vact = true →
          s.cfg.latAd + 2 * s.cfg.borderCycles + s.cfg.w * s.cfg.pixelCycles + 1 ≤ r.left + 1)) ∧
      (t.busy = none → s.cfg.durMin k ≤ 1 ∧
        (k = .ad → s.vact = true →
          s.cfg.latAd + 2 * s.cfg.borderCycles + s.cfg.w * s.cfg.pixelCycles + 1 ≤ 1))

/-! ### Invariants of every step -/

/-- 10_state R42: the ranges are kept by every clock cycle, reset and host requests included. -/
def Obligations.RangesKept : Prop :=
  ∀ s : State, InRange s → ∃ t, step s = .next t ∧ InRange t

/-- 10_state R42, 20_memory R49: once every cell holds an encoded word, every cycle keeps it so. -/
def Obligations.CellsStayEncoded : Prop :=
  ∀ s : State, InRange s → CellsEncoded s → ∃ t, step s = .next t ∧ CellsEncoded t

/-- 60_exceptions R138, R140, R141: under a valid configuration the block keeps its handler budgets: it
is idle at every compare match, and no cycle raises `OVERRUN` or `BUDGET`. -/
def Obligations.BudgetsKept : Prop :=
  ∀ s : State, s.cfg.valid = true → positiveBudgets s.cfg → InRange s → TimerInRange s → OnTime s →
    (∀ k, s.armed = true → s.tcnt = s.cfg.off k → s.busy = none ∧ s.pend = []) ∧
    ∃ t, step s = .next t ∧ TimerInRange t ∧ OnTime t ∧
      (notReset s → t.fault &&& 0x30 = s.fault &&& 0x30)

/-! ### Several cycles -/

/-- 60_exceptions R138: an idle block in RUN mode at the match of source `k`, whatever the host asks
meanwhile but `HOST_DISARM` (which drops what is pending), keeps its registers for `ENTRY_LAT` cycles
with `k` waiting in `PEND`; then `k` is the head and its wait is over, and in the next cycle handler `k`
starts: `k` has left `PEND` and the block is busy with it, or a run of one cycle has ended with the
outputs of the event. The handler starts exactly `ENTRY_LAT` cycles after the match. That the registers
and cells are those of the event already after the start cycle is the model's choice (log 14). -/
def Obligations.HandlerStartCycle : Prop :=
  ∀ (s : State) (k : Phase), s.cfg.valid = true → s.armed = true → s.tcnt = s.cfg.off k →
    s.busy = none → s.pend = [] → noReset s → noRequest 0x51 s →
    (∀ n, n ≤ s.cfg.entryLat → ∃ t, steps n s = .next t ∧
      SameRegs t s ∧ SameOutputs t s ∧ t.armed = true ∧ t.busy = none ∧
      (1 ≤ n → t.pend = [⟨k, s.cfg.entryLat - n⟩])) ∧
    (∃ t rest, steps s.cfg.entryLat s = .next t ∧ (afterCompare t).pend = ⟨k, 0⟩ :: rest ∧
      (1 ≤ s.cfg.durMax k → atEntry k t)) ∧
    ∃ t u, steps (s.cfg.entryLat + 1) s = .next t ∧
      exec (eventInstr k) s = .next u ∧ SameRegs t u ∧
      k ∉ t.pend.map (fun e => e.event) ∧ (1 ≤ s.cfg.durMax k → t.pend = []) ∧
      ((∃ r, t.busy = some r ∧ r.phase = k) ∨
        (t.busy = none ∧ SameOutputs t u ∧ t.trace = u.trace))

/-- 60_exceptions R142: a handler run ends, within `DUR_MAX_k` cycles, in the state its event-level rule
gives, with the outputs changed in the order of its line trace, whatever the host asks meanwhile. -/
def Obligations.HandlerRunMatchesEvent : Prop :=
  ∀ (s : State) (k : Phase), s.cfg.valid = true → positiveBudgets s.cfg → InRange s →
    TimerInRange s → OnTime s → hasFault s.fault .budget = false → atEntry k s → noReset s →
    ∃ n t u, 1 ≤ n ∧ n ≤ s.cfg.durMax k ∧ steps n s = .next t ∧
      exec (eventInstr k) s = .next u ∧ t.busy = none ∧ SameRegs t u ∧ SameOutputs t u ∧
      t.trace = u.trace ∧ t.fault = u.fault

/-- 70_reset_and_hazards R160, R166: the active-draw waveform. With `j` the cycles since the handler's
start, the colour lines show the border, pixel `x`, the border and blank at the same cycles on every
line with video active and for every pixel value; on a line with `VACT = 0` they do not change. -/
def Obligations.ActiveDrawWaveform : Prop :=
  ∀ (s : State) (j : Nat), s.cfg.valid = true → positiveBudgets s.cfg → InRange s →
    CellsEncoded s → TimerInRange s → OnTime s → hasFault s.fault .budget = false →
    atEntry .ad s → noReset s → notRestarted s → j < s.cfg.durMaxAd →
    let interior := s.cfg.bandTop ≤ s.line ∧ s.line < s.cfg.bandBot
    let b := s.cfg.borderCycles
    let pc := s.cfg.pixelCycles
    let t0 := s.cfg.latAd
    let w := s.cfg.w
    ∃ t, steps (j + 1) s = .next t ∧
      (s.vact = false → t.color = s.color) ∧
      (s.vact = true →
        (j < t0 → t.color = s.color) ∧
        (t0 ≤ j → j < t0 + b → t.color = s.cfg.borderFlags) ∧
        (∀ x, x < w → t0 + b + x * pc ≤ j → j < t0 + b + (x + 1) * pc →
          (interior → t.color = (Memory.read s.fb (s.row * w + x)).extractLsb' 0 9) ∧
          (¬interior → t.color = s.cfg.borderFlags)) ∧
        (t0 + b + w * pc ≤ j → j < t0 + 2 * b + w * pc → t.color = s.cfg.borderFlags) ∧
        (t0 + 2 * b + w * pc ≤ j → t.color = 0))

/-- 70_reset_and_hazards R161 to R163: with `j` the cycles since the handler's start, horizontal sync is
asserted from `LAT_SS` and deasserted from `LAT_BP`, vertical sync changes at `LAT_BPV` on the marker
lines, and the colour lines are blank from `LAT_FP`; before those cycles the lines keep their levels.
The latency is taken to fit the handler's longest busy time. -/
def Obligations.SyncAndBlankTiming : Prop :=
  ∀ (s : State) (k : Phase) (j : Nat), s.cfg.valid = true → positiveBudgets s.cfg → InRange s →
    TimerInRange s → OnTime s → hasFault s.fault .budget = false → atEntry k s → noReset s →
    notRestarted s → j < s.cfg.durMax k →
    ∃ t, steps (j + 1) s = .next t ∧
      (k = .ss → s.cfg.latSs < s.cfg.durMaxSs →
        t.hsync = if j < s.cfg.latSs then s.hsync else false) ∧
      (k = .bp → s.cfg.latBp ≤ s.cfg.latBpv → s.cfg.latBpv < s.cfg.durMaxBp →
        (t.hsync = if j < s.cfg.latBp then s.hsync else true) ∧
        (s.line + 1 = s.cfg.vsOn →
          t.vsync = if j < s.cfg.latBpv then s.vsync else s.cfg.vsyncActiveLevel) ∧
        (s.line + 1 = s.cfg.vsOff →
          t.vsync = if j < s.cfg.latBpv then s.vsync else !s.cfg.vsyncActiveLevel) ∧
        (s.line + 1 ≠ s.cfg.vsOn → s.line + 1 ≠ s.cfg.vsOff → t.vsync = s.vsync)) ∧
      (k = .fp → s.cfg.latFp < s.cfg.durMaxFp →
        t.color = if j < s.cfg.latFp then s.color else 0)
end

