-- ==== Sys2Proof/Laws/Memory.lean ====
section
/-! SUPPORT. The laws of the Frame Buffer: a read after a write, what a write leaves alone, and that
every memory operation keeps the canonical form. -/

namespace Sys2Proof.Machine

theorem Memory.find_write (i k : Nat) (v : Pixel) (m : Memory) :
    Memory.find k (Memory.write i v m) = if k = i then some v else Memory.find k m := by
  induction m with
  | nil => simp [Memory.write, Memory.find]
  | cons e m ih =>
    obtain ⟨j, u⟩ := e
    simp only [Memory.write]
    rcases Nat.lt_trichotomy i j with h | h | h
    · by_cases hk : k = i <;> simp [h, Memory.find, hk]
    · subst h
      by_cases hk : k = i <;> simp [Memory.find, hk]
    · rw [if_neg (by omega), if_neg (by omega)]
      by_cases hk : k = i
      · subst hk
        have hj : ¬ k = j := by omega
        simp [Memory.find, ih, hj]
      · simp [Memory.find, ih, hk]

/-- A read after a write: the written word in its cell, the old word in every other. -/
@[simp] theorem Memory.read_write (i k : Nat) (v : Pixel) (m : Memory) :
    Memory.read (Memory.write i v m) k = if k = i then v else Memory.read m k := by
  unfold Memory.read
  rw [Memory.find_write]
  split_ifs <;> rfl

/-- A fill writes the cells from `i` up to `i + count` and no other. -/
@[simp] theorem Memory.read_fill (v : Pixel) (count i k : Nat) (m : Memory) :
    Memory.read (Memory.fill v count i m) k =
      if i ≤ k ∧ k < i + count then v else Memory.read m k := by
  induction count generalizing i m with
  | zero => simp [Memory.fill]
  | succ n ih =>
    simp only [Memory.fill, ih, Memory.read_write]
    split_ifs <;> first | rfl | omega

theorem Memory.find_append (k : Nat) (a b : Memory) :
    Memory.find k (a ++ b) = (Memory.find k a).or (Memory.find k b) := by
  induction a with
  | nil => simp [Memory.find]
  | cons e a ih =>
    obtain ⟨j, u⟩ := e
    simp only [List.cons_append, Memory.find]
    split_ifs <;> simp [ih]

theorem Memory.find_filter (p : Nat → Bool) (k : Nat) (m : Memory) :
    Memory.find k (m.filter (fun e => p e.1)) = if p k then Memory.find k m else none := by
  induction m with
  | nil => simp [Memory.find]
  | cons e m ih =>
    obtain ⟨j, u⟩ := e
    by_cases hj : p j <;> by_cases hk : k = j <;> simp_all [Memory.find]

/-- A cut buffer: the new word below the cut, the old word from the cut on. -/
@[simp] theorem Memory.read_cutAt (cut k : Nat) (new old : Memory) :
    Memory.read (Memory.cutAt cut new old) k =
      if k < cut then Memory.read new k else Memory.read old k := by
  unfold Memory.read Memory.cutAt
  rw [Memory.find_append, Memory.find_filter (fun x => decide (x < cut)),
    Memory.find_filter (fun x => decide (cut ≤ x))]
  by_cases h : k < cut
  · simp [h, Nat.not_le.mpr h]
  · simp [h, Nat.le_of_not_lt h]

theorem Memory.risesFrom_mono {lo lo' : Nat} (m : Memory) (h : Memory.risesFrom lo m = true)
    (hl : lo' ≤ lo) : Memory.risesFrom lo' m = true := by
  cases m with
  | nil => rfl
  | cons e m =>
    obtain ⟨j, u⟩ := e
    simp only [Memory.risesFrom, Bool.and_eq_true, decide_eq_true_eq] at h ⊢
    exact ⟨by omega, h.2⟩

theorem Memory.risesFrom_write {lo : Nat} (i : Nat) (v : Pixel) (m : Memory)
    (h : Memory.risesFrom lo m = true) (hi : lo ≤ i) :
    Memory.risesFrom lo (Memory.write i v m) = true := by
  induction m generalizing lo with
  | nil => simp [Memory.write, Memory.risesFrom, hi]
  | cons e m ih =>
    obtain ⟨j, u⟩ := e
    simp only [Memory.risesFrom, Bool.and_eq_true, decide_eq_true_eq] at h
    simp only [Memory.write]
    split_ifs with h1 h2
    · simp only [Memory.risesFrom, Bool.and_eq_true, decide_eq_true_eq]
      exact ⟨hi, by omega, h.2⟩
    · subst h2
      simp only [Memory.risesFrom, Bool.and_eq_true, decide_eq_true_eq]
      exact ⟨hi, h.2⟩
    · simp only [Memory.risesFrom, Bool.and_eq_true, decide_eq_true_eq]
      exact ⟨h.1, ih h.2 (by omega)⟩

/-- A write keeps the canonical form. -/
theorem Memory.wf_write (i : Nat) (v : Pixel) (m : Memory) (h : Memory.wf m = true) :
    Memory.wf (Memory.write i v m) = true :=
  Memory.risesFrom_write i v m h (Nat.zero_le i)

/-- A fill keeps the canonical form. -/
theorem Memory.wf_fill (v : Pixel) (count i : Nat) (m : Memory) (h : Memory.wf m = true) :
    Memory.wf (Memory.fill v count i m) = true := by
  induction count generalizing i m with
  | zero => exact h
  | succ n ih => exact ih _ _ (Memory.wf_write i v m h)

theorem Memory.risesFrom_above (cut : Nat) {lo : Nat} (old : Memory)
    (ho : Memory.risesFrom lo old = true) :
    Memory.risesFrom (max lo cut) (old.filter (fun e => decide (cut ≤ e.1))) = true := by
  induction old generalizing lo with
  | nil => rfl
  | cons e m ih =>
    obtain ⟨j, u⟩ := e
    simp only [Memory.risesFrom, Bool.and_eq_true, decide_eq_true_eq] at ho
    by_cases hj : cut ≤ j
    · rw [List.filter_cons_of_pos (by simpa using hj)]
      simp only [Memory.risesFrom, Bool.and_eq_true, decide_eq_true_eq]
      refine ⟨by omega, ?_⟩
      have := ih ho.2
      rwa [Nat.max_eq_left (by omega)] at this
    · rw [List.filter_cons_of_neg (by simpa using hj)]
      exact Memory.risesFrom_mono _ (ih ho.2) (by omega)

/-- Cutting a buffer keeps the canonical form. -/
theorem Memory.wf_cutAt (cut : Nat) (new old : Memory) (hn : Memory.wf new = true)
    (ho : Memory.wf old = true) : Memory.wf (Memory.cutAt cut new old) = true := by
  have key : ∀ (lo : Nat) (m : Memory), lo ≤ max lo cut → Memory.risesFrom lo m = true →
      Memory.risesFrom lo (m.filter (fun e => decide (e.1 < cut))
        ++ old.filter (fun e => decide (cut ≤ e.1))) = true ∨ cut < lo := by
    intro lo m
    induction m generalizing lo with
    | nil =>
      intro _ _
      rcases Nat.lt_or_ge cut lo with h | h
      · exact .inr h
      · refine .inl (Memory.risesFrom_mono _ (Memory.risesFrom_above cut old ho) ?_)
        omega
    | cons e m ih =>
      obtain ⟨j, u⟩ := e
      intro _ h
      simp only [Memory.risesFrom, Bool.and_eq_true, decide_eq_true_eq] at h
      by_cases hj : j < cut
      · left
        rw [List.filter_cons_of_pos (by simpa using hj), List.cons_append]
        simp only [Memory.risesFrom, Bool.and_eq_true, decide_eq_true_eq]
        refine ⟨h.1, ?_⟩
        rcases ih (j + 1) (by omega) h.2 with hr | hr
        · exact hr
        · omega
      · rw [List.filter_cons_of_neg (by simpa using hj)]
        rcases ih lo (by omega) (Memory.risesFrom_mono _ h.2 (by omega)) with hr | hr
        · exact .inl hr
        · exact .inr hr
  rcases key 0 new (by omega) hn with h | h
  · exact h
  · omega

/-- Membership after a write: the written cell or a cell of before. -/
theorem Memory.mem_write {i : Nat} {v : Pixel} {m : Memory} {e : Cell}
    (h : e ∈ Memory.write i v m) : e = (i, v) ∨ e ∈ m := by
  induction m with
  | nil => simpa [Memory.write] using h
  | cons d m ih =>
    obtain ⟨j, u⟩ := d
    simp only [Memory.write] at h
    split_ifs at h with h1 h2
    · simpa using h
    · rcases List.mem_cons.mp h with h | h
      · exact .inl h
      · exact .inr (List.mem_cons_of_mem _ h)
    · rcases List.mem_cons.mp h with h | h
      · exact .inr (by simp [h])
      · rcases ih h with h | h
        · exact .inl h
        · exact .inr (List.mem_cons_of_mem _ h)

/-- A write inside the buffer keeps it in order. -/
theorem fbOk_write {c : Params} {i : Nat} (v : Pixel) {m : Memory} (h : fbOk c m = true)
    (hi : i < c.n) : fbOk c (Memory.write i v m) = true := by
  simp only [fbOk, Bool.and_eq_true, List.all_eq_true, decide_eq_true_eq] at h ⊢
  refine ⟨Memory.wf_write i v m h.1, fun e he => ?_⟩
  rcases Memory.mem_write he with rfl | he
  · exact hi
  · exact h.2 e he

/-- A fill inside the buffer keeps it in order. -/
theorem fbOk_fill {c : Params} (v : Pixel) (count i : Nat) {m : Memory} (h : fbOk c m = true)
    (hi : i + count ≤ c.n) : fbOk c (Memory.fill v count i m) = true := by
  induction count generalizing i m with
  | zero => exact h
  | succ n ih => exact ih _ (fbOk_write v h (by omega)) (by omega)

/-- A cut of two buffers in order is in order. -/
theorem fbOk_cutAt {c : Params} (cut : Nat) {new old : Memory} (hn : fbOk c new = true)
    (ho : fbOk c old = true) : fbOk c (Memory.cutAt cut new old) = true := by
  simp only [fbOk, Bool.and_eq_true, List.all_eq_true, decide_eq_true_eq] at hn ho ⊢
  refine ⟨Memory.wf_cutAt cut new old hn.1 ho.1, fun e he => ?_⟩
  simp only [Memory.cutAt, List.mem_append, List.mem_filter] at he
  rcases he with he | he
  · exact hn.2 e he.1
  · exact ho.2 e he.1

/-- The empty buffer is in order: no cell has been written. -/
@[simp] theorem fbOk_nil (c : Params) : fbOk c [] = true := rfl

end Sys2Proof.Machine
end

