-- ==== Sys2Proof/Laws/Pixel.lean ====
section
/-! SUPPORT. The laws of pixel words: what `ENCODE` puts in each half, and which words it makes. -/

namespace Sys2Proof.Machine

theorem getLsbD_encodePixel (f : Flags) (i : Nat) :
    (encodePixel f).getLsbD i = if i < 9 then f.getLsbD i else (~~~f).getLsbD (i - 9) :=
  (BitVec.getLsbD_append (x := ~~~f) (y := f) (i := i)).trans (by split_ifs <;> rfl)

@[simp] theorem setBits_encodePixel (f : Flags) : setBits (encodePixel f) = f := by
  apply BitVec.eq_of_getLsbD_eq
  intro i hi
  rw [setBits, BitVec.getLsbD_extractLsb', getLsbD_encodePixel]
  simp [hi]

@[simp] theorem clrBits_encodePixel (f : Flags) : clrBits (encodePixel f) = ~~~f := by
  apply BitVec.eq_of_getLsbD_eq
  intro i hi
  rw [clrBits, BitVec.getLsbD_extractLsb', getLsbD_encodePixel]
  simp [hi]

@[simp] theorem isEncoded_encodePixel (f : Flags) : isEncoded (encodePixel f) = true := by
  simp [isEncoded]

/-- A word is its two halves. -/
theorem clrBits_append_setBits (v : Pixel) : clrBits v ++ setBits v = v := by
  apply BitVec.eq_of_getLsbD_eq
  intro i hi
  simp only [setBits, clrBits, BitVec.getLsbD_append, BitVec.getLsbD_extractLsb']
  by_cases h : i < 9
  · simp [h]
  · have h2 : 9 + (i - 9) = i := by omega
    have h3 : i - 9 < 9 := by omega
    simp [h, h2, h3]

theorem isEncoded_iff (v : Pixel) : isEncoded v = true ↔ clrBits v = ~~~(setBits v) := by
  simp [isEncoded]

/-- An encoded word is the encoding of its `SET` half. -/
theorem encodePixel_setBits {v : Pixel} (h : isEncoded v = true) : encodePixel (setBits v) = v := by
  rw [isEncoded_iff] at h
  have := clrBits_append_setBits v
  rwa [h] at this

/-- Every palette word is encoded (10_state R33). -/
theorem isEncoded_palPx {c : Params} {i : Nat} {v : Pixel} (h : palPx c i = some v) :
    isEncoded v = true := by
  simp only [palPx, Option.map_eq_some_iff] at h
  obtain ⟨f, _, rfl⟩ := h
  exact isEncoded_encodePixel f

/-- A palette index below `P` has a word (20_memory R48). -/
theorem palPx_of_lt {c : Params} {i : Nat} (h : i < c.p) : ∃ v, palPx c i = some v := by
  have : i < c.palette.length := h
  exact ⟨_, by simp [palPx, List.getElem?_eq_getElem this]; rfl⟩

/-- `OUT_COLOR` of an encoded word shows its flags whatever was on the lines (44_output_host R115). -/
theorem driveColor_encodePixel (color f : Flags) : driveColor color (encodePixel f) = f := by
  simp only [driveColor, setBits_encodePixel, clrBits_encodePixel]
  apply BitVec.eq_of_getLsbD_eq
  intro i hi
  simp [hi]

end Sys2Proof.Machine
end

