-- ==== Sys2Proof/Laws/State.lean ====
section
/-! SUPPORT. The fields of the state after each named update, one lemma per field. -/

namespace Sys2Proof.Machine

variable (s : State)

@[simp] theorem raiseFault_cfg (f : Fault) : (raiseFault f s).cfg = s.cfg := rfl
@[simp] theorem raiseFault_line (f : Fault) : (raiseFault f s).line = s.line := rfl
@[simp] theorem raiseFault_vact (f : Fault) : (raiseFault f s).vact = s.vact := rfl
@[simp] theorem raiseFault_row (f : Fault) : (raiseFault f s).row = s.row := rfl
@[simp] theorem raiseFault_pixelX (f : Fault) : (raiseFault f s).pixelX = s.pixelX := rfl
@[simp] theorem raiseFault_hsync (f : Fault) : (raiseFault f s).hsync = s.hsync := rfl
@[simp] theorem raiseFault_vsync (f : Fault) : (raiseFault f s).vsync = s.vsync := rfl
@[simp] theorem raiseFault_color (f : Fault) : (raiseFault f s).color = s.color := rfl
@[simp] theorem raiseFault_widx (f : Fault) : (raiseFault f s).widx = s.widx := rfl
@[simp] theorem raiseFault_holdCnt (f : Fault) : (raiseFault f s).holdCnt = s.holdCnt := rfl
@[simp] theorem raiseFault_cur (f : Fault) : (raiseFault f s).cur = s.cur := rfl
@[simp] theorem raiseFault_fb (f : Fault) : (raiseFault f s).fb = s.fb := rfl
@[simp] theorem raiseFault_armed (f : Fault) : (raiseFault f s).armed = s.armed := rfl
@[simp] theorem raiseFault_tcnt (f : Fault) : (raiseFault f s).tcnt = s.tcnt := rfl
@[simp] theorem raiseFault_pend (f : Fault) : (raiseFault f s).pend = s.pend := rfl
@[simp] theorem raiseFault_busy (f : Fault) : (raiseFault f s).busy = s.busy := rfl
@[simp] theorem raiseFault_fault (f : Fault) : (raiseFault f s).fault = setFault s.fault f := rfl
@[simp] theorem raiseFault_request (f : Fault) : (raiseFault f s).request = s.request := rfl
@[simp] theorem raiseFault_resp (f : Fault) : (raiseFault f s).resp = s.resp := rfl
@[simp] theorem raiseFault_inputs (f : Fault) : (raiseFault f s).inputs = s.inputs := rfl
@[simp] theorem raiseFault_view (f : Fault) : (raiseFault f s).view = s.view := rfl
@[simp] theorem raiseFault_trace (f : Fault) : (raiseFault f s).trace = s.trace := rfl
@[simp] theorem raiseFault_draws (f : Fault) : (raiseFault f s).draws = s.draws := rfl

@[simp] theorem respond_cfg (v : Pixel) : (respond v s).cfg = s.cfg := rfl
@[simp] theorem respond_line (v : Pixel) : (respond v s).line = s.line := rfl
@[simp] theorem respond_vact (v : Pixel) : (respond v s).vact = s.vact := rfl
@[simp] theorem respond_row (v : Pixel) : (respond v s).row = s.row := rfl
@[simp] theorem respond_pixelX (v : Pixel) : (respond v s).pixelX = s.pixelX := rfl
@[simp] theorem respond_hsync (v : Pixel) : (respond v s).hsync = s.hsync := rfl
@[simp] theorem respond_vsync (v : Pixel) : (respond v s).vsync = s.vsync := rfl
@[simp] theorem respond_color (v : Pixel) : (respond v s).color = s.color := rfl
@[simp] theorem respond_widx (v : Pixel) : (respond v s).widx = s.widx := rfl
@[simp] theorem respond_holdCnt (v : Pixel) : (respond v s).holdCnt = s.holdCnt := rfl
@[simp] theorem respond_cur (v : Pixel) : (respond v s).cur = s.cur := rfl
@[simp] theorem respond_fb (v : Pixel) : (respond v s).fb = s.fb := rfl
@[simp] theorem respond_armed (v : Pixel) : (respond v s).armed = s.armed := rfl
@[simp] theorem respond_tcnt (v : Pixel) : (respond v s).tcnt = s.tcnt := rfl
@[simp] theorem respond_pend (v : Pixel) : (respond v s).pend = s.pend := rfl
@[simp] theorem respond_busy (v : Pixel) : (respond v s).busy = s.busy := rfl
@[simp] theorem respond_fault (v : Pixel) : (respond v s).fault = s.fault := rfl
@[simp] theorem respond_request (v : Pixel) : (respond v s).request = s.request := rfl
@[simp] theorem respond_resp (v : Pixel) : (respond v s).resp = some v := rfl
@[simp] theorem respond_inputs (v : Pixel) : (respond v s).inputs = s.inputs := rfl
@[simp] theorem respond_view (v : Pixel) : (respond v s).view = s.view := rfl
@[simp] theorem respond_trace (v : Pixel) : (respond v s).trace = s.trace := rfl
@[simp] theorem respond_draws (v : Pixel) : (respond v s).draws = s.draws := rfl

@[simp] theorem storeCell_cfg (i : Nat) (v : Pixel) : (storeCell i v s).cfg = s.cfg := rfl
@[simp] theorem storeCell_line (i : Nat) (v : Pixel) : (storeCell i v s).line = s.line := rfl
@[simp] theorem storeCell_vact (i : Nat) (v : Pixel) : (storeCell i v s).vact = s.vact := rfl
@[simp] theorem storeCell_row (i : Nat) (v : Pixel) : (storeCell i v s).row = s.row := rfl
@[simp] theorem storeCell_pixelX (i : Nat) (v : Pixel) : (storeCell i v s).pixelX = s.pixelX := rfl
@[simp] theorem storeCell_hsync (i : Nat) (v : Pixel) : (storeCell i v s).hsync = s.hsync := rfl
@[simp] theorem storeCell_vsync (i : Nat) (v : Pixel) : (storeCell i v s).vsync = s.vsync := rfl
@[simp] theorem storeCell_color (i : Nat) (v : Pixel) : (storeCell i v s).color = s.color := rfl
@[simp] theorem storeCell_widx (i : Nat) (v : Pixel) : (storeCell i v s).widx = s.widx := rfl
@[simp] theorem storeCell_holdCnt (i : Nat) (v : Pixel) : (storeCell i v s).holdCnt = s.holdCnt := rfl
@[simp] theorem storeCell_cur (i : Nat) (v : Pixel) : (storeCell i v s).cur = s.cur := rfl
@[simp] theorem storeCell_fb (i : Nat) (v : Pixel) : (storeCell i v s).fb = Memory.write i v s.fb := rfl
@[simp] theorem storeCell_armed (i : Nat) (v : Pixel) : (storeCell i v s).armed = s.armed := rfl
@[simp] theorem storeCell_tcnt (i : Nat) (v : Pixel) : (storeCell i v s).tcnt = s.tcnt := rfl
@[simp] theorem storeCell_pend (i : Nat) (v : Pixel) : (storeCell i v s).pend = s.pend := rfl
@[simp] theorem storeCell_busy (i : Nat) (v : Pixel) : (storeCell i v s).busy = s.busy := rfl
@[simp] theorem storeCell_fault (i : Nat) (v : Pixel) : (storeCell i v s).fault = s.fault := rfl
@[simp] theorem storeCell_request (i : Nat) (v : Pixel) : (storeCell i v s).request = s.request := rfl
@[simp] theorem storeCell_resp (i : Nat) (v : Pixel) : (storeCell i v s).resp = s.resp := rfl
@[simp] theorem storeCell_inputs (i : Nat) (v : Pixel) : (storeCell i v s).inputs = s.inputs := rfl
@[simp] theorem storeCell_view (i : Nat) (v : Pixel) : (storeCell i v s).view = s.view := rfl
@[simp] theorem storeCell_trace (i : Nat) (v : Pixel) : (storeCell i v s).trace = s.trace := rfl
@[simp] theorem storeCell_draws (i : Nat) (v : Pixel) : (storeCell i v s).draws = s.draws := rfl

@[simp] theorem storeAll_cfg (v : Pixel) : (storeAll v s).cfg = s.cfg := rfl
@[simp] theorem storeAll_line (v : Pixel) : (storeAll v s).line = s.line := rfl
@[simp] theorem storeAll_vact (v : Pixel) : (storeAll v s).vact = s.vact := rfl
@[simp] theorem storeAll_row (v : Pixel) : (storeAll v s).row = s.row := rfl
@[simp] theorem storeAll_pixelX (v : Pixel) : (storeAll v s).pixelX = s.pixelX := rfl
@[simp] theorem storeAll_hsync (v : Pixel) : (storeAll v s).hsync = s.hsync := rfl
@[simp] theorem storeAll_vsync (v : Pixel) : (storeAll v s).vsync = s.vsync := rfl
@[simp] theorem storeAll_color (v : Pixel) : (storeAll v s).color = s.color := rfl
@[simp] theorem storeAll_widx (v : Pixel) : (storeAll v s).widx = s.widx := rfl
@[simp] theorem storeAll_holdCnt (v : Pixel) : (storeAll v s).holdCnt = s.holdCnt := rfl
@[simp] theorem storeAll_cur (v : Pixel) : (storeAll v s).cur = s.cur := rfl
@[simp] theorem storeAll_fb (v : Pixel) : (storeAll v s).fb = Memory.fill v s.cfg.n 0 s.fb := rfl
@[simp] theorem storeAll_armed (v : Pixel) : (storeAll v s).armed = s.armed := rfl
@[simp] theorem storeAll_tcnt (v : Pixel) : (storeAll v s).tcnt = s.tcnt := rfl
@[simp] theorem storeAll_pend (v : Pixel) : (storeAll v s).pend = s.pend := rfl
@[simp] theorem storeAll_busy (v : Pixel) : (storeAll v s).busy = s.busy := rfl
@[simp] theorem storeAll_fault (v : Pixel) : (storeAll v s).fault = s.fault := rfl
@[simp] theorem storeAll_request (v : Pixel) : (storeAll v s).request = s.request := rfl
@[simp] theorem storeAll_resp (v : Pixel) : (storeAll v s).resp = s.resp := rfl
@[simp] theorem storeAll_inputs (v : Pixel) : (storeAll v s).inputs = s.inputs := rfl
@[simp] theorem storeAll_view (v : Pixel) : (storeAll v s).view = s.view := rfl
@[simp] theorem storeAll_trace (v : Pixel) : (storeAll v s).trace = s.trace := rfl
@[simp] theorem storeAll_draws (v : Pixel) : (storeAll v s).draws = s.draws := rfl

@[simp] theorem startTrace_cfg : (startTrace s).cfg = s.cfg := rfl
@[simp] theorem startTrace_line : (startTrace s).line = s.line := rfl
@[simp] theorem startTrace_vact : (startTrace s).vact = s.vact := rfl
@[simp] theorem startTrace_row : (startTrace s).row = s.row := rfl
@[simp] theorem startTrace_pixelX : (startTrace s).pixelX = s.pixelX := rfl
@[simp] theorem startTrace_hsync : (startTrace s).hsync = s.hsync := rfl
@[simp] theorem startTrace_vsync : (startTrace s).vsync = s.vsync := rfl
@[simp] theorem startTrace_color : (startTrace s).color = s.color := rfl
@[simp] theorem startTrace_widx : (startTrace s).widx = s.widx := rfl
@[simp] theorem startTrace_holdCnt : (startTrace s).holdCnt = s.holdCnt := rfl
@[simp] theorem startTrace_cur : (startTrace s).cur = s.cur := rfl
@[simp] theorem startTrace_fb : (startTrace s).fb = s.fb := rfl
@[simp] theorem startTrace_armed : (startTrace s).armed = s.armed := rfl
@[simp] theorem startTrace_tcnt : (startTrace s).tcnt = s.tcnt := rfl
@[simp] theorem startTrace_pend : (startTrace s).pend = s.pend := rfl
@[simp] theorem startTrace_busy : (startTrace s).busy = s.busy := rfl
@[simp] theorem startTrace_fault : (startTrace s).fault = s.fault := rfl
@[simp] theorem startTrace_request : (startTrace s).request = s.request := rfl
@[simp] theorem startTrace_resp : (startTrace s).resp = s.resp := rfl
@[simp] theorem startTrace_inputs : (startTrace s).inputs = s.inputs := rfl
@[simp] theorem startTrace_view : (startTrace s).view = s.view := rfl
@[simp] theorem startTrace_trace : (startTrace s).trace = [] := rfl
@[simp] theorem startTrace_draws : (startTrace s).draws = s.draws := rfl

@[simp] theorem record_cfg (op : Instr) : (record op s).cfg = s.cfg := rfl
@[simp] theorem record_line (op : Instr) : (record op s).line = s.line := rfl
@[simp] theorem record_vact (op : Instr) : (record op s).vact = s.vact := rfl
@[simp] theorem record_row (op : Instr) : (record op s).row = s.row := rfl
@[simp] theorem record_pixelX (op : Instr) : (record op s).pixelX = s.pixelX := rfl
@[simp] theorem record_hsync (op : Instr) : (record op s).hsync = s.hsync := rfl
@[simp] theorem record_vsync (op : Instr) : (record op s).vsync = s.vsync := rfl
@[simp] theorem record_color (op : Instr) : (record op s).color = s.color := rfl
@[simp] theorem record_widx (op : Instr) : (record op s).widx = s.widx := rfl
@[simp] theorem record_holdCnt (op : Instr) : (record op s).holdCnt = s.holdCnt := rfl
@[simp] theorem record_cur (op : Instr) : (record op s).cur = s.cur := rfl
@[simp] theorem record_fb (op : Instr) : (record op s).fb = s.fb := rfl
@[simp] theorem record_armed (op : Instr) : (record op s).armed = s.armed := rfl
@[simp] theorem record_tcnt (op : Instr) : (record op s).tcnt = s.tcnt := rfl
@[simp] theorem record_pend (op : Instr) : (record op s).pend = s.pend := rfl
@[simp] theorem record_busy (op : Instr) : (record op s).busy = s.busy := rfl
@[simp] theorem record_fault (op : Instr) : (record op s).fault = s.fault := rfl
@[simp] theorem record_request (op : Instr) : (record op s).request = s.request := rfl
@[simp] theorem record_resp (op : Instr) : (record op s).resp = s.resp := rfl
@[simp] theorem record_inputs (op : Instr) : (record op s).inputs = s.inputs := rfl
@[simp] theorem record_view (op : Instr) : (record op s).view = s.view := rfl
@[simp] theorem record_trace (op : Instr) : (record op s).trace = s.trace ++ [op] := rfl
@[simp] theorem record_draws (op : Instr) : (record op s).draws = s.draws := rfl

@[simp] theorem outColor_cfg (v : Pixel) : (outColor v s).cfg = s.cfg := rfl
@[simp] theorem outColor_line (v : Pixel) : (outColor v s).line = s.line := rfl
@[simp] theorem outColor_vact (v : Pixel) : (outColor v s).vact = s.vact := rfl
@[simp] theorem outColor_row (v : Pixel) : (outColor v s).row = s.row := rfl
@[simp] theorem outColor_pixelX (v : Pixel) : (outColor v s).pixelX = s.pixelX := rfl
@[simp] theorem outColor_hsync (v : Pixel) : (outColor v s).hsync = s.hsync := rfl
@[simp] theorem outColor_vsync (v : Pixel) : (outColor v s).vsync = s.vsync := rfl
@[simp] theorem outColor_color (v : Pixel) : (outColor v s).color = driveColor s.color v := rfl
@[simp] theorem outColor_widx (v : Pixel) : (outColor v s).widx = s.widx := rfl
@[simp] theorem outColor_holdCnt (v : Pixel) : (outColor v s).holdCnt = s.holdCnt := rfl
@[simp] theorem outColor_cur (v : Pixel) : (outColor v s).cur = s.cur := rfl
@[simp] theorem outColor_fb (v : Pixel) : (outColor v s).fb = s.fb := rfl
@[simp] theorem outColor_armed (v : Pixel) : (outColor v s).armed = s.armed := rfl
@[simp] theorem outColor_tcnt (v : Pixel) : (outColor v s).tcnt = s.tcnt := rfl
@[simp] theorem outColor_pend (v : Pixel) : (outColor v s).pend = s.pend := rfl
@[simp] theorem outColor_busy (v : Pixel) : (outColor v s).busy = s.busy := rfl
@[simp] theorem outColor_fault (v : Pixel) : (outColor v s).fault = s.fault := rfl
@[simp] theorem outColor_request (v : Pixel) : (outColor v s).request = s.request := rfl
@[simp] theorem outColor_resp (v : Pixel) : (outColor v s).resp = s.resp := rfl
@[simp] theorem outColor_inputs (v : Pixel) : (outColor v s).inputs = s.inputs := rfl
@[simp] theorem outColor_view (v : Pixel) : (outColor v s).view = s.view := rfl
@[simp] theorem outColor_trace (v : Pixel) : (outColor v s).trace = s.trace ++ [.outColor v] := rfl
@[simp] theorem outColor_draws (v : Pixel) : (outColor v s).draws = s.draws := rfl

@[simp] theorem padFor_cfg (k : Nat) : (padFor k s).cfg = s.cfg := rfl
@[simp] theorem padFor_line (k : Nat) : (padFor k s).line = s.line := rfl
@[simp] theorem padFor_vact (k : Nat) : (padFor k s).vact = s.vact := rfl
@[simp] theorem padFor_row (k : Nat) : (padFor k s).row = s.row := rfl
@[simp] theorem padFor_pixelX (k : Nat) : (padFor k s).pixelX = s.pixelX := rfl
@[simp] theorem padFor_hsync (k : Nat) : (padFor k s).hsync = s.hsync := rfl
@[simp] theorem padFor_vsync (k : Nat) : (padFor k s).vsync = s.vsync := rfl
@[simp] theorem padFor_color (k : Nat) : (padFor k s).color = s.color := rfl
@[simp] theorem padFor_widx (k : Nat) : (padFor k s).widx = s.widx := rfl
@[simp] theorem padFor_holdCnt (k : Nat) : (padFor k s).holdCnt = s.holdCnt := rfl
@[simp] theorem padFor_cur (k : Nat) : (padFor k s).cur = s.cur := rfl
@[simp] theorem padFor_fb (k : Nat) : (padFor k s).fb = s.fb := rfl
@[simp] theorem padFor_armed (k : Nat) : (padFor k s).armed = s.armed := rfl
@[simp] theorem padFor_tcnt (k : Nat) : (padFor k s).tcnt = s.tcnt := rfl
@[simp] theorem padFor_pend (k : Nat) : (padFor k s).pend = s.pend := rfl
@[simp] theorem padFor_busy (k : Nat) : (padFor k s).busy = s.busy := rfl
@[simp] theorem padFor_fault (k : Nat) : (padFor k s).fault = s.fault := rfl
@[simp] theorem padFor_request (k : Nat) : (padFor k s).request = s.request := rfl
@[simp] theorem padFor_resp (k : Nat) : (padFor k s).resp = s.resp := rfl
@[simp] theorem padFor_inputs (k : Nat) : (padFor k s).inputs = s.inputs := rfl
@[simp] theorem padFor_view (k : Nat) : (padFor k s).view = s.view := rfl
@[simp] theorem padFor_trace (k : Nat) : (padFor k s).trace = s.trace ++ [.pad k] := rfl
@[simp] theorem padFor_draws (k : Nat) : (padFor k s).draws = s.draws := rfl

@[simp] theorem advanceLine_cfg : (advanceLine s).cfg = s.cfg := rfl
@[simp] theorem advanceLine_line : (advanceLine s).line = s.line + 1 := rfl
@[simp] theorem advanceLine_vact : (advanceLine s).vact = s.vact := rfl
@[simp] theorem advanceLine_row : (advanceLine s).row = (s.line + 1) / s.cfg.lpr := rfl
@[simp] theorem advanceLine_pixelX : (advanceLine s).pixelX = s.pixelX := rfl
@[simp] theorem advanceLine_hsync : (advanceLine s).hsync = s.hsync := rfl
@[simp] theorem advanceLine_vsync : (advanceLine s).vsync = s.vsync := rfl
@[simp] theorem advanceLine_color : (advanceLine s).color = s.color := rfl
@[simp] theorem advanceLine_widx : (advanceLine s).widx = s.widx := rfl
@[simp] theorem advanceLine_holdCnt : (advanceLine s).holdCnt = s.holdCnt := rfl
@[simp] theorem advanceLine_cur : (advanceLine s).cur = s.cur := rfl
@[simp] theorem advanceLine_fb : (advanceLine s).fb = s.fb := rfl
@[simp] theorem advanceLine_armed : (advanceLine s).armed = s.armed := rfl
@[simp] theorem advanceLine_tcnt : (advanceLine s).tcnt = s.tcnt := rfl
@[simp] theorem advanceLine_pend : (advanceLine s).pend = s.pend := rfl
@[simp] theorem advanceLine_busy : (advanceLine s).busy = s.busy := rfl
@[simp] theorem advanceLine_fault : (advanceLine s).fault = s.fault := rfl
@[simp] theorem advanceLine_request : (advanceLine s).request = s.request := rfl
@[simp] theorem advanceLine_resp : (advanceLine s).resp = s.resp := rfl
@[simp] theorem advanceLine_inputs : (advanceLine s).inputs = s.inputs := rfl
@[simp] theorem advanceLine_view : (advanceLine s).view = s.view := rfl
@[simp] theorem advanceLine_trace : (advanceLine s).trace = s.trace := rfl
@[simp] theorem advanceLine_draws : (advanceLine s).draws = s.draws := rfl

@[simp] theorem beginCycle_cfg : (beginCycle s).cfg = s.cfg := rfl
@[simp] theorem beginCycle_line : (beginCycle s).line = s.line := rfl
@[simp] theorem beginCycle_vact : (beginCycle s).vact = s.vact := rfl
@[simp] theorem beginCycle_row : (beginCycle s).row = s.row := rfl
@[simp] theorem beginCycle_pixelX : (beginCycle s).pixelX = s.pixelX := rfl
@[simp] theorem beginCycle_hsync : (beginCycle s).hsync = s.hsync := rfl
@[simp] theorem beginCycle_vsync : (beginCycle s).vsync = s.vsync := rfl
@[simp] theorem beginCycle_color : (beginCycle s).color = s.color := rfl
@[simp] theorem beginCycle_widx : (beginCycle s).widx = s.widx := rfl
@[simp] theorem beginCycle_holdCnt : (beginCycle s).holdCnt = s.holdCnt := rfl
@[simp] theorem beginCycle_cur : (beginCycle s).cur = s.cur := rfl
@[simp] theorem beginCycle_fb : (beginCycle s).fb = s.fb := rfl
@[simp] theorem beginCycle_armed : (beginCycle s).armed = s.armed := rfl
@[simp] theorem beginCycle_tcnt : (beginCycle s).tcnt = s.tcnt := rfl
@[simp] theorem beginCycle_pend : (beginCycle s).pend = s.pend := rfl
@[simp] theorem beginCycle_busy : (beginCycle s).busy = s.busy := rfl
@[simp] theorem beginCycle_fault : (beginCycle s).fault = s.fault := rfl
@[simp] theorem beginCycle_request : (beginCycle s).request = s.request := rfl
@[simp] theorem beginCycle_resp : (beginCycle s).resp = none := rfl
@[simp] theorem beginCycle_inputs : (beginCycle s).inputs = s.inputs.tail := rfl
@[simp] theorem beginCycle_view : (beginCycle s).view = s.view := rfl
@[simp] theorem beginCycle_trace : (beginCycle s).trace = s.trace := rfl
@[simp] theorem beginCycle_draws : (beginCycle s).draws = s.draws := rfl

@[simp] theorem driveSync_cfg (l : SyncLine) (level : Bool) :
    (driveSync l level s).cfg = s.cfg := by cases l <;> rfl
@[simp] theorem driveSync_line (l : SyncLine) (level : Bool) :
    (driveSync l level s).line = s.line := by cases l <;> rfl
@[simp] theorem driveSync_vact (l : SyncLine) (level : Bool) :
    (driveSync l level s).vact = s.vact := by cases l <;> rfl
@[simp] theorem driveSync_row (l : SyncLine) (level : Bool) :
    (driveSync l level s).row = s.row := by cases l <;> rfl
@[simp] theorem driveSync_pixelX (l : SyncLine) (level : Bool) :
    (driveSync l level s).pixelX = s.pixelX := by cases l <;> rfl
@[simp] theorem driveSync_horizontal_hsync (level : Bool) :
    (driveSync .horizontal level s).hsync = level := rfl
@[simp] theorem driveSync_vertical_hsync (level : Bool) :
    (driveSync .vertical level s).hsync = s.hsync := rfl
@[simp] theorem driveSync_horizontal_vsync (level : Bool) :
    (driveSync .horizontal level s).vsync = s.vsync := rfl
@[simp] theorem driveSync_vertical_vsync (level : Bool) :
    (driveSync .vertical level s).vsync = level := rfl
@[simp] theorem driveSync_color (l : SyncLine) (level : Bool) :
    (driveSync l level s).color = s.color := by cases l <;> rfl
@[simp] theorem driveSync_widx (l : SyncLine) (level : Bool) :
    (driveSync l level s).widx = s.widx := by cases l <;> rfl
@[simp] theorem driveSync_holdCnt (l : SyncLine) (level : Bool) :
    (driveSync l level s).holdCnt = s.holdCnt := by cases l <;> rfl
@[simp] theorem driveSync_cur (l : SyncLine) (level : Bool) :
    (driveSync l level s).cur = s.cur := by cases l <;> rfl
@[simp] theorem driveSync_fb (l : SyncLine) (level : Bool) :
    (driveSync l level s).fb = s.fb := by cases l <;> rfl
@[simp] theorem driveSync_armed (l : SyncLine) (level : Bool) :
    (driveSync l level s).armed = s.armed := by cases l <;> rfl
@[simp] theorem driveSync_tcnt (l : SyncLine) (level : Bool) :
    (driveSync l level s).tcnt = s.tcnt := by cases l <;> rfl
@[simp] theorem driveSync_pend (l : SyncLine) (level : Bool) :
    (driveSync l level s).pend = s.pend := by cases l <;> rfl
@[simp] theorem driveSync_busy (l : SyncLine) (level : Bool) :
    (driveSync l level s).busy = s.busy := by cases l <;> rfl
@[simp] theorem driveSync_fault (l : SyncLine) (level : Bool) :
    (driveSync l level s).fault = s.fault := by cases l <;> rfl
@[simp] theorem driveSync_request (l : SyncLine) (level : Bool) :
    (driveSync l level s).request = s.request := by cases l <;> rfl
@[simp] theorem driveSync_resp (l : SyncLine) (level : Bool) :
    (driveSync l level s).resp = s.resp := by cases l <;> rfl
@[simp] theorem driveSync_inputs (l : SyncLine) (level : Bool) :
    (driveSync l level s).inputs = s.inputs := by cases l <;> rfl
@[simp] theorem driveSync_view (l : SyncLine) (level : Bool) :
    (driveSync l level s).view = s.view := by cases l <;> rfl
@[simp] theorem driveSync_trace (l : SyncLine) (level : Bool) :
    (driveSync l level s).trace = s.trace := by cases l <;> rfl
@[simp] theorem driveSync_draws (l : SyncLine) (level : Bool) :
    (driveSync l level s).draws = s.draws := by cases l <;> rfl

@[simp] theorem resetOf_cfg (c : Params) : (State.resetOf c).cfg = c := rfl
@[simp] theorem resetOf_line (c : Params) : (State.resetOf c).line = 0 := rfl
@[simp] theorem resetOf_vact (c : Params) : (State.resetOf c).vact = true := rfl
@[simp] theorem resetOf_row (c : Params) : (State.resetOf c).row = 0 := rfl
@[simp] theorem resetOf_pixelX (c : Params) : (State.resetOf c).pixelX = 0 := rfl
@[simp] theorem resetOf_hsync (c : Params) : (State.resetOf c).hsync = true := rfl
@[simp] theorem resetOf_vsync (c : Params) : (State.resetOf c).vsync = !c.vsyncActiveLevel := rfl
@[simp] theorem resetOf_color (c : Params) : (State.resetOf c).color = 0 := rfl
@[simp] theorem resetOf_widx (c : Params) : (State.resetOf c).widx = 0 := rfl
@[simp] theorem resetOf_holdCnt (c : Params) : (State.resetOf c).holdCnt = 0 := rfl
@[simp] theorem resetOf_cur (c : Params) : (State.resetOf c).cur = c.n := rfl
@[simp] theorem resetOf_fb (c : Params) : (State.resetOf c).fb = [] := rfl
@[simp] theorem resetOf_armed (c : Params) : (State.resetOf c).armed = false := rfl
@[simp] theorem resetOf_tcnt (c : Params) : (State.resetOf c).tcnt = 0 := rfl
@[simp] theorem resetOf_pend (c : Params) : (State.resetOf c).pend = [] := rfl
@[simp] theorem resetOf_busy (c : Params) : (State.resetOf c).busy = none := rfl
@[simp] theorem resetOf_fault (c : Params) : (State.resetOf c).fault = 0 := rfl
@[simp] theorem resetOf_request (c : Params) : (State.resetOf c).request = none := rfl
@[simp] theorem resetOf_resp (c : Params) : (State.resetOf c).resp = none := rfl
@[simp] theorem resetOf_inputs (c : Params) : (State.resetOf c).inputs = [] := rfl
@[simp] theorem resetOf_view (c : Params) : (State.resetOf c).view = none := rfl
@[simp] theorem resetOf_trace (c : Params) : (State.resetOf c).trace = [] := rfl
@[simp] theorem resetOf_draws (c : Params) : (State.resetOf c).draws = 0 := rfl

end Sys2Proof.Machine
end

