-- ==== Sys2Proof/Laws/Exec.lean ====
section
/-! SUPPORT. One spec lemma per shared operation and per part of a handler: everything it can do. -/

namespace Sys2Proof.Machine

/-- Every operation answers a next state: no fault of the block stops it (60_exceptions R132). -/
theorem exec_next (i : Instr) (s : State) : ∃ t, exec i s = .next t := by
  cases i <;> exact ⟨_, rfl⟩

/-- `perform` is the next state of `exec`. -/
theorem exec_eq_perform (i : Instr) (s : State) : exec i s = .next (perform i s) := by
  cases i <;> rfl

@[simp] theorem andThen_next (s : State) (f : State → Result) : andThen (.next s) f = f s := rfl

@[simp] theorem execAll_nil (s : State) : execAll [] s = .next s := rfl

@[simp] theorem execAll_cons (i : Instr) (l : List Instr) (s : State) :
    execAll (i :: l) s = execAll l (perform i s) := by
  simp [execAll, exec_eq_perform]

/-- A run over two lists is the run over the second from the end of the first. -/
theorem execAll_append (l l' : List Instr) (s : State) :
    execAll (l ++ l') s = andThen (execAll l s) (execAll l') := by
  induction l generalizing s with
  | nil => rfl
  | cons i l ih => simp [ih]

/-- `FB_SET_FLAT` in range with an encoded word is one cell write. -/
theorem setFlat_ok {i : Nat} {v : Pixel} {s : State} (hi : i < s.cfg.n) (hv : isEncoded v = true) :
    setFlat i v s = storeCell i v s := by
  simp [setFlat, inRangeI, hi, hv]

/-- A run of `FB_SET_FLAT` in range with an encoded word is one fill. -/
theorem setCells_eq {v : Pixel} (hv : isEncoded v = true) (count i : Nat) (s : State)
    (hi : i + count ≤ s.cfg.n) :
    setCells v count i s = { s with fb := Memory.fill v count i s.fb } := by
  induction count generalizing i s with
  | zero => rfl
  | succ n ih =>
    rw [setCells, setFlat_ok (by omega) hv, ih]
    · rfl
    · simp only [storeCell_cfg]; omega

/-- A chunk that has cells to write and a palette word (43_scheduler R108). -/
theorem chunkWrite_some {before s : State} {v : Pixel} (hc : s.cur < chunkEnd s)
    (hv : palPx s.cfg s.widx = some v) :
    chunkWrite before s =
      { s with fb := Memory.fill v (chunkEnd s - s.cur) s.cur s.fb, cur := chunkEnd s } := by
  have hle : chunkEnd s ≤ s.cfg.n := Nat.min_le_right _ _
  rw [chunkWrite, if_pos hc, hv]
  simp only
  rw [setCells_eq (isEncoded_palPx hv) _ _ _ (by omega)]

/-- A chunk with cells to write and no palette word raises `RANGE` (20_memory R48). -/
theorem chunkWrite_none {before s : State} (hc : s.cur < chunkEnd s)
    (hv : palPx s.cfg s.widx = none) : chunkWrite before s = raiseFault .range before := by
  rw [chunkWrite, if_pos hc, hv]

/-- A chunk without cells to write. -/
theorem chunkWrite_empty {before s : State} (hc : ¬ s.cur < chunkEnd s) :
    chunkWrite before s = { s with cur := chunkEnd s } := by
  rw [chunkWrite, if_neg hc]

/-- Everything `SCHED_STEP` can do: nothing more than the hold counter, a fill of one chunk with its
palette word, an empty chunk, or `RANGE` alone. -/
theorem schedStep_cases (s : State) :
    (s.line = s.cfg.v ∧ s.holdCnt + 1 < s.cfg.hold ∧
      schedStep s = { s with holdCnt := s.holdCnt + 1 }) ∨
    (s.line = s.cfg.v ∧ s.cfg.hold ≤ s.holdCnt + 1 ∧
      schedStep s = chunkWrite s
        { s with holdCnt := 0, cur := 0, widx := (s.widx + 1) % s.cfg.p }) ∨
    (s.line ≠ s.cfg.v ∧ s.cur < s.cfg.n ∧ schedStep s = chunkWrite s s) ∨
    (s.line ≠ s.cfg.v ∧ s.cfg.n ≤ s.cur ∧ schedStep s = s) := by
  unfold schedStep
  split_ifs with h1 h2 h3
  · exact .inl ⟨h1, h2, rfl⟩
  · exact .inr (.inl ⟨h1, Nat.le_of_not_lt h2, rfl⟩)
  · exact .inr (.inr (.inl ⟨h1, h3, rfl⟩))
  · exact .inr (.inr (.inr ⟨h1, Nat.le_of_not_lt h3, rfl⟩))

/-- The only fields a chunk can change besides `FAULT`, which it changes only by `RANGE`: it keeps
those of the state it works on, or those of the state the step began in. -/
theorem chunkWrite_frame (before s : State) :
    (∃ m cur, chunkWrite before s = { s with fb := m, cur := cur }) ∨
      chunkWrite before s = raiseFault .range before := by
  by_cases hc : s.cur < chunkEnd s
  · cases hv : palPx s.cfg s.widx with
    | none => exact .inr (chunkWrite_none hc hv)
    | some v => exact .inl ⟨_, _, chunkWrite_some hc hv⟩
  · exact .inl ⟨_, _, chunkWrite_empty hc⟩

/-- What `SCHED_STEP` leaves alone: everything but its own registers, the cells and `FAULT`. -/
theorem schedStep_frame (s : State) : ∃ h c w m f,
    schedStep s = { s with holdCnt := h, cur := c, widx := w, fb := m, fault := f } := by
  rcases schedStep_cases s with ⟨-, -, h⟩ | ⟨-, -, h⟩ | ⟨-, -, h⟩ | ⟨-, -, h⟩
  · exact ⟨_, _, _, _, _, h⟩
  · rcases chunkWrite_frame s { s with holdCnt := 0, cur := 0, widx := (s.widx + 1) % s.cfg.p }
      with ⟨m, c, hm⟩ | hm
    · exact ⟨_, _, _, _, _, h.trans hm⟩
    · exact ⟨_, _, _, _, _, h.trans hm⟩
  · rcases chunkWrite_frame s s with ⟨m, c, hm⟩ | hm
    · exact ⟨_, _, _, _, _, h.trans hm⟩
    · exact ⟨_, _, _, _, _, h.trans hm⟩
  · exact ⟨_, _, _, _, _, h⟩

/-- The start of `EV_BP`: horizontal sync deasserted, the line advanced (42_scan_timing R91). -/
theorem backPorch_start (s : State) :
    advanceLine (deassertSync .horizontal (startTrace s)) =
      { s with hsync := true, line := s.line + 1, row := (s.line + 1) / s.cfg.lpr,
               trace := [.outSyncSet .horizontal] } := rfl

/-- The vertical-sync level after the markers of a line (42_scan_timing R95). -/
def markedVsync (c : Params) (line : Nat) (level : Bool) : Bool :=
  if line = c.vsOff then !c.vsyncActiveLevel
  else if line = c.vsOn then c.vsyncActiveLevel else level

/-- The trace entries of the markers of a line (42_scan_timing R91). -/
def markerTrace (c : Params) (line : Nat) : List Instr :=
  (if line = c.vsOn then
    [if c.vsyncActiveLevel then .outSyncSet .vertical else .outSyncClr .vertical] else []) ++
  (if line = c.vsOff then
    [if c.vsyncActiveLevel then .outSyncClr .vertical else .outSyncSet .vertical] else [])

theorem assertSync_vertical (s : State) :
    assertSync .vertical s =
      { s with vsync := s.cfg.vsyncActiveLevel,
               trace := s.trace ++
                 [if s.cfg.vsyncActiveLevel then .outSyncSet .vertical else .outSyncClr .vertical] } := by
  cases hv : s.cfg.vsyncActiveLevel <;>
    simp [assertSync, activeLevel, hv, outSyncSet, outSyncClr, driveSync, record]

theorem deassertSync_vertical (s : State) :
    deassertSync .vertical s =
      { s with vsync := !s.cfg.vsyncActiveLevel,
               trace := s.trace ++
                 [if s.cfg.vsyncActiveLevel then .outSyncClr .vertical else .outSyncSet .vertical] } := by
  cases hv : s.cfg.vsyncActiveLevel <;>
    simp [deassertSync, activeLevel, hv, outSyncSet, outSyncClr, driveSync, record]

theorem vsOffTest_eq (t : State) :
    (if t.line = t.cfg.vsOff then deassertSync .vertical t else t) =
      { t with vsync := if t.line = t.cfg.vsOff then !t.cfg.vsyncActiveLevel else t.vsync,
               trace := t.trace ++ if t.line = t.cfg.vsOff then
                 [if t.cfg.vsyncActiveLevel then .outSyncClr .vertical else .outSyncSet .vertical]
                 else [] } := by
  split_ifs <;> simp [deassertSync_vertical, *]

/-- The marker tests change the vertical-sync line and the trace only (42_scan_timing R91). -/
theorem vsyncMarkers_eq (s : State) :
    vsyncMarkers s = { s with vsync := markedVsync s.cfg s.line s.vsync,
                              trace := s.trace ++ markerTrace s.cfg s.line } := by
  simp only [vsyncMarkers, vsOffTest_eq]
  by_cases h1 : s.line = s.cfg.vsOn
  · rw [if_pos h1, assertSync_vertical]
    simp [markedVsync, markerTrace, h1]
  · rw [if_neg h1]
    simp [markedVsync, markerTrace, h1]

/-- The trace of a streaming loop (42_scan_timing R99). -/
def streamTrace (px : Nat → Pixel) (cycles : Nat) : Nat → Nat → List Instr
  | 0, _ => []
  | count + 1, x => .outColor (px x) :: .pad cycles :: streamTrace px cycles count (x + 1)

/-- A streaming loop changes the pixel counter, the colour lines and the trace only. -/
theorem streamCells_frame (px : Nat → Pixel) (count x : Nat) (s : State) : ∃ c p,
    streamCells px count x s =
      { s with color := c, pixelX := p,
               trace := s.trace ++ streamTrace px s.cfg.pixelCycles count x } := by
  induction count generalizing x s with
  | zero => exact ⟨s.color, s.pixelX, by simp [streamCells, streamTrace]⟩
  | succ n ih =>
    obtain ⟨c, p, h⟩ := ih (x + 1) (emit (px x) s.cfg.pixelCycles { s with pixelX := x })
    exact ⟨c, p, by rw [streamCells, h]; simp [emit, padFor, outColor, record, streamTrace]⟩

/-- The end of a drawing: the right border and the blank colour (42_scan_timing R99). -/
theorem finishDraw_eq (s : State) :
    finishDraw s =
      { s with pixelX := s.cfg.w, color := 0,
               trace := s.trace ++
                 [.outColor (borderPx s.cfg), .pad s.cfg.borderCycles, .outColor blankPx] } := by
  simp [finishDraw, emit, padFor, outColor, record, blankPx, driveColor_encodePixel]

/-- The left border of a drawing (42_scan_timing R99). -/
theorem leftBorder_eq (s : State) :
    emit (borderPx s.cfg) s.cfg.borderCycles (startTrace s) =
      { s with color := s.cfg.borderFlags,
               trace := [.outColor (borderPx s.cfg), .pad s.cfg.borderCycles] } := by
  simp [emit, padFor, outColor, record, startTrace, borderPx, driveColor_encodePixel]

/-- The line trace of a drawn line (42_scan_timing R99). -/
def drawTrace (c : Params) (px : Nat → Pixel) : List Instr :=
  [.outColor (borderPx c), .pad c.borderCycles] ++ streamTrace px c.pixelCycles c.w 0 ++
    [.outColor (borderPx c), .pad c.borderCycles, .outColor blankPx]

/-- A drawing after its left border: the streaming loop and the end. -/
theorem drawLine_eq (px : Nat → Pixel) (s : State) (color : Flags) :
    finishDraw (streamCells px s.cfg.w 0
        { s with color := color,
                 trace := [.outColor (borderPx s.cfg), .pad s.cfg.borderCycles] }) =
      { s with pixelX := s.cfg.w, color := 0, trace := drawTrace s.cfg px } := by
  obtain ⟨c, p, h⟩ := streamCells_frame px s.cfg.w 0
    { s with color := color, trace := [.outColor (borderPx s.cfg), .pad s.cfg.borderCycles] }
  rw [h, finishDraw_eq]
  simp [drawTrace]

/-- Everything `EV_AD` can do (42_scan_timing R99 to R101): nothing with video inactive, a drawn line
streaming the row or the border, or `RANGE` for a row out of range. -/
theorem activeDraw_cases (s : State) :
    (s.vact = false ∧ activeDraw s = { s with trace := [] }) ∨
    (s.vact = true ∧ isInterior s.cfg s.line = true ∧ s.row < s.cfg.h ∧
      activeDraw s =
        { s with pixelX := s.cfg.w, color := 0, trace := drawTrace s.cfg (viewCell s s.row) }) ∨
    (s.vact = true ∧ isInterior s.cfg s.line = true ∧ s.cfg.h ≤ s.row ∧
      activeDraw s =
        { s with color := s.cfg.borderFlags, fault := setFault s.fault .range,
                 trace := [.outColor (borderPx s.cfg), .pad s.cfg.borderCycles] }) ∨
    (s.vact = true ∧ isInterior s.cfg s.line = false ∧
      activeDraw s =
        { s with pixelX := s.cfg.w, color := 0,
                 trace := drawTrace s.cfg (fun _ => borderPx s.cfg) }) := by
  by_cases hv : s.vact = true
  swap
  · have hf : s.vact = false := by simpa using hv
    exact .inl ⟨hf, by simp [activeDraw, startTrace, hf]⟩
  · right
    have hd : activeDraw s =
        if isInterior s.cfg s.line then
          match viewOf s.cfg s.row with
          | some y => finishDraw (streamCells (viewCell s y) s.cfg.w 0
              (emit (borderPx s.cfg) s.cfg.borderCycles (startTrace s)))
          | none => raiseFault .range (emit (borderPx s.cfg) s.cfg.borderCycles (startTrace s))
        else finishDraw (streamCells (fun _ => borderPx s.cfg) s.cfg.w 0
          (emit (borderPx s.cfg) s.cfg.borderCycles (startTrace s))) := by
      have h1 : (startTrace s).vact = true := hv
      simp only [activeDraw, h1, Bool.not_true, Bool.false_eq_true, if_false]
      rfl
    rw [leftBorder_eq, drawLine_eq] at hd
    cases hi : isInterior s.cfg s.line
    · refine .inr (.inr ⟨hv, rfl, ?_⟩)
      rw [hd, hi]
      exact if_neg (by simp)
    · by_cases hr : s.row < s.cfg.h
      · refine .inl ⟨hv, rfl, hr, ?_⟩
        rw [hd, hi, viewOf, if_pos hr]
        exact (if_pos rfl).trans (drawLine_eq (viewCell s s.row) s _)
      · refine .inr (.inl ⟨hv, rfl, Nat.le_of_not_lt hr, ?_⟩)
        rw [hd, hi, viewOf, if_neg hr]
        exact if_pos rfl

end Sys2Proof.Machine
end

