-- ==== Sys2Proof/Laws/Cycle.lean ====
section
/-! SUPPORT. The laws of one clock cycle: which parts of the state each of its actions touches. -/

namespace Sys2Proof.Machine

theorem refusedBy_eq_none_iff (c : Params) : c.refusedBy = none ↔ c.admitted = true := by
  simp [Params.refusedBy, Params.admitted, List.find?_eq_none, List.all_eq_true]

/-- A valid configuration is admitted (00_scope R7). -/
theorem admitted_of_valid {c : Params} (h : c.valid = true) : c.admitted = true := by
  simp only [Params.valid, Params.admitted, Params.refusedChecks, List.all_cons, List.all_nil,
    Bool.and_eq_true] at h ⊢
  tauto

/-- Under an admitted configuration a step is one clock cycle. -/
theorem step_of_admitted {s : State} (h : s.cfg.admitted = true) : step s = cycle s := by
  simp [step, (refusedBy_eq_none_iff s.cfg).mpr h]

/-- A cycle with `RST = 1`. -/
theorem cycle_of_reset {s : State} (h : (currentInput s).rst = true) :
    cycle s = .next (resetCycle (beginCycle s)) := by
  simp [cycle, h]

/-- A cycle with `RST = 0`. -/
theorem cycle_of_notReset {s : State} (h : notReset s) :
    cycle s = andThen (act (compareAll (afterInput s))) fun t => .next (clockEdge s.armed t) := by
  have h' : (currentInput s).rst = false := h
  simp [cycle, h', afterInput]

/-- Taking the input changes the inputs, the response and the request only. -/
theorem afterInput_eq (s : State) : ∃ r,
    afterInput s = { s with inputs := s.inputs.tail, resp := none, request := r } := by
  unfold afterInput latchRequest
  split
  · exact ⟨s.request, rfl⟩
  · exact ⟨_, rfl⟩

theorem matchSource_eq (k : Phase) (s : State) : ∃ p f,
    matchSource k s = { s with pend := p, fault := f } := by
  unfold matchSource
  split <;> split <;> exact ⟨_, _, rfl⟩

theorem compareSource_eq (k : Phase) (s : State) : ∃ p f,
    compareSource k s = { s with pend := p, fault := f } := by
  unfold compareSource
  split
  · exact matchSource_eq k s
  · exact ⟨s.pend, s.fault, rfl⟩

/-- The compares change `PEND` and `FAULT` only. -/
theorem compareAll_eq (s : State) : ∃ p f, compareAll s = { s with pend := p, fault := f } := by
  obtain ⟨p1, f1, h1⟩ := compareSource_eq .ss s
  obtain ⟨p2, f2, h2⟩ := compareSource_eq .bp { s with pend := p1, fault := f1 }
  obtain ⟨p3, f3, h3⟩ := compareSource_eq .ad { s with pend := p2, fault := f2 }
  obtain ⟨p4, f4, h4⟩ := compareSource_eq .fp { s with pend := p3, fault := f3 }
  exact ⟨p4, f4, by rw [compareAll, h1, h2, h3, h4]⟩

theorem compareSource_noMatch {k : Phase} {s : State} (h : s.armed = true → s.tcnt ≠ s.cfg.off k) :
    compareSource k s = s := by
  unfold compareSource
  rw [if_neg]
  simpa using h

/-- Without a match the compares do nothing. -/
theorem compareAll_noMatch {s : State} (h : noMatch s) : compareAll s = s := by
  unfold compareAll
  rw [compareSource_noMatch (fun a => h a .ss), compareSource_noMatch (fun a => h a .bp),
    compareSource_noMatch (fun a => h a .ad), compareSource_noMatch (fun a => h a .fp)]

/-- An output operation changes the output registers and the trace only. -/
theorem perform_output {op : Instr} (h : isOutput op = true) (s : State) : ∃ hs vs c,
    perform op s = { s with hsync := hs, vsync := vs, color := c, trace := s.trace ++ [op] } := by
  cases op <;> simp [isOutput] at h
  · exact ⟨_, _, _, rfl⟩
  · rename_i l; cases l <;> exact ⟨_, _, _, rfl⟩
  · rename_i l; cases l <;> exact ⟨_, _, _, rfl⟩
  · exact ⟨_, _, _, rfl⟩

/-- Output operations of a handler change the output registers and the trace only. -/
theorem performFirst_output (n : Nat) {todo : List Timed}
    (h : todo.all (fun e => isOutput e.op) = true) (s : State) : ∃ hs vs c tr,
    performFirst n todo s = { s with hsync := hs, vsync := vs, color := c, trace := tr } := by
  induction n generalizing todo s with
  | zero => cases todo <;> exact ⟨_, _, _, _, rfl⟩
  | succ n ih =>
    cases todo with
    | nil => exact ⟨_, _, _, _, rfl⟩
    | cons e rest =>
      simp only [List.all_cons, Bool.and_eq_true] at h
      obtain ⟨hs, vs, c, h1⟩ := perform_output h.1 s
      obtain ⟨hs', vs', c', tr', h2⟩ := ih h.2 (perform e.op s)
      exact ⟨hs', vs', c', tr', by rw [performFirst, h2, h1]⟩

theorem performDue_output {todo : List Timed}
    (h : todo.all (fun e => isOutput e.op) = true) (s : State) : ∃ hs vs c tr,
    performDue todo s = { s with hsync := hs, vsync := vs, color := c, trace := tr } := by
  induction todo generalizing s with
  | nil => exact ⟨_, _, _, _, rfl⟩
  | cons e rest ih =>
    obtain ⟨w, op⟩ := e
    simp only [List.all_cons, Bool.and_eq_true] at h
    cases w with
    | zero =>
      obtain ⟨hs, vs, c, h1⟩ := perform_output h.1 s
      obtain ⟨hs', vs', c', tr', h2⟩ := ih h.2 (perform op s)
      exact ⟨hs', vs', c', tr', by rw [performDue, h2, h1]⟩
    | succ w => exact ⟨_, _, _, _, rfl⟩

/-- A cycle of a handler that holds output operations only changes the output registers, the trace,
`BUSY` and the count of free values. -/
theorem handlerCycle_output {r : Running} (h : r.todo.all (fun e => isOutput e.op) = true)
    (s : State) : ∃ hs vs c tr d,
    handlerCycle r s =
      { s with hsync := hs, vsync := vs, color := c, trace := tr, draws := d,
               busy := handlerBusy r s } := by
  unfold handlerCycle handlerOps
  split_ifs
  · obtain ⟨hs, vs, c, tr, h1⟩ := performFirst_output r.todo.length h s
    exact ⟨hs, vs, c, tr, s.draws, by rw [h1]⟩
  · obtain ⟨hs, vs, c, tr, h1⟩ := performFirst_output (lateCount s r.todo) h s
    exact ⟨hs, vs, c, tr, s.draws + 1, by rw [h1]⟩
  · obtain ⟨hs, vs, c, tr, h1⟩ := performDue_output h s
    exact ⟨hs, vs, c, tr, s.draws, by rw [h1]⟩

theorem all_stillToDo {p : Timed → Bool} (hp : ∀ w w' op, p ⟨w, op⟩ = p ⟨w', op⟩)
    {todo : List Timed} (h : todo.all p = true) : (stillToDo todo).all p = true := by
  induction todo with
  | nil => rfl
  | cons e rest ih =>
    obtain ⟨w, op⟩ := e
    simp only [List.all_cons, Bool.and_eq_true] at h
    cases w with
    | zero => exact ih h.2
    | succ w =>
      simp only [stillToDo, List.all_cons, Bool.and_eq_true]
      exact ⟨(hp w (w + 1) op).trans h.1, h.2⟩

/-- A handler's rest holds output operations only when the handler did. -/
theorem handlerBusy_ok {c : Params} {r : Running} (s : State) (h : busyOk c (some r) = true) :
    busyOk c (handlerBusy r s) = true := by
  simp only [busyOk, Bool.and_eq_true] at h
  unfold handlerBusy handlerRest
  split_ifs
  · rfl
  · simp only [busyOk, Bool.and_eq_true]
    refine ⟨?_, h.2⟩
    rw [List.all_eq_true] at h ⊢
    exact fun e he => h.1 e (List.mem_of_mem_drop he)
  · simp only [busyOk, Bool.and_eq_true]
    exact ⟨all_stillToDo (fun _ _ _ => rfl) h.1, h.2⟩

theorem all_streamTrace (px : Nat → Pixel) (cycles count x : Nat) :
    (streamTrace px cycles count x).all isOutput = true := by
  induction count generalizing x with
  | zero => rfl
  | succ n ih => simp [streamTrace, isOutput, ih]

theorem all_drawTrace (c : Params) (px : Nat → Pixel) : (drawTrace c px).all isOutput = true := by
  simp [drawTrace, isOutput, all_streamTrace]

theorem all_markerTrace (c : Params) (line : Nat) : (markerTrace c line).all isOutput = true := by
  unfold markerTrace
  split_ifs <;> rfl

/-- Everything `EV_BP` can do besides what its scheduler step does (42_scan_timing R91): the visible
line, the frame end, or a scheduler step on the advanced line. -/
theorem backPorch_cases (s : State) :
    (s.line + 1 < s.cfg.v ∧ backPorch s =
      { s with hsync := true, line := s.line + 1, row := (s.line + 1) / s.cfg.lpr,
               trace := [.outSyncSet .horizontal] }) ∨
    (s.cfg.v ≤ s.line + 1 ∧ s.line + 1 = s.cfg.t ∧ backPorch s =
      { s with hsync := true, line := 0, row := 0, vact := true,
               vsync := markedVsync s.cfg (s.line + 1) s.vsync,
               trace := .outSyncSet .horizontal :: markerTrace s.cfg (s.line + 1) }) ∨
    (s.cfg.v ≤ s.line + 1 ∧ s.line + 1 ≠ s.cfg.t ∧ backPorch s = schedStep
      { s with hsync := true, line := s.line + 1, row := (s.line + 1) / s.cfg.lpr,
               vact := if s.line + 1 = s.cfg.v then false else s.vact,
               vsync := markedVsync s.cfg (s.line + 1) s.vsync,
               trace := .outSyncSet .horizontal :: markerTrace s.cfg (s.line + 1) }) := by
  unfold backPorch
  rw [backPorch_start]
  have hm : ∀ t : State, markInactive t = { t with vact := if t.line = t.cfg.v then false else t.vact } := by
    intro t
    unfold markInactive
    split_ifs <;> rfl
  by_cases h1 : s.line + 1 < s.cfg.v
  · exact .inl ⟨h1, by simp [h1]⟩
  · simp only [h1, if_false]
    rw [hm, vsyncMarkers_eq]
    by_cases h2 : s.line + 1 = s.cfg.t
    · refine .inr (.inl ⟨by omega, h2, ?_⟩)
      simp [frameEndOrSchedule, h2]
    · refine .inr (.inr ⟨by omega, h2, ?_⟩)
      simp [frameEndOrSchedule, h2]

theorem setCells_trace (v : Pixel) (count i : Nat) (s : State) :
    (setCells v count i s).trace = s.trace := by
  induction count generalizing i s with
  | zero => rfl
  | succ n ih =>
    rw [setCells, ih]
    unfold setFlat
    split_ifs <;> rfl

/-- The line trace of an event holds output operations only (42_scan_timing R89). -/
theorem event_trace_output (k : Phase) (s : State) :
    (perform (eventInstr k) s).trace.all isOutput = true := by
  cases k
  · rfl
  · show (backPorch s).trace.all isOutput = true
    rcases backPorch_cases s with ⟨-, h⟩ | ⟨-, -, h⟩ | ⟨-, -, h⟩
    · rw [h]; rfl
    · rw [h]; simp [isOutput, all_markerTrace]
    · obtain ⟨hc, c, w, m, f, hs⟩ := schedStep_frame
        { s with hsync := true, line := s.line + 1, row := (s.line + 1) / s.cfg.lpr,
                 vact := if s.line + 1 = s.cfg.v then false else s.vact,
                 vsync := markedVsync s.cfg (s.line + 1) s.vsync,
                 trace := .outSyncSet .horizontal :: markerTrace s.cfg (s.line + 1) }
      rw [h, hs]
      simp [isOutput, all_markerTrace]
  · show (activeDraw s).trace.all isOutput = true
    rcases activeDraw_cases s with ⟨-, h⟩ | ⟨-, -, -, h⟩ | ⟨-, -, -, h⟩ | ⟨-, -, h⟩ <;> rw [h]
    · rfl
    · exact all_drawTrace _ _
    · rfl
    · exact all_drawTrace _ _
  · rfl

theorem all_withWaits (w : Nat) {tr : List Instr} (h : tr.all isOutput = true) :
    (withWaits w tr).all (fun e => isOutput e.op) = true := by
  induction tr generalizing w with
  | nil => rfl
  | cons op rest ih =>
    simp only [List.all_cons, Bool.and_eq_true] at h
    simp only [withWaits, List.all_cons, Bool.and_eq_true]
    exact ⟨h.1, ih _ h.2⟩

/-- A scheduled trace holds the operations of the trace. -/
theorem all_schedule (c : Params) (k : Phase) {tr : List Instr} (h : tr.all isOutput = true) :
    (schedule c k tr).all (fun e => isOutput e.op) = true := by
  cases k
  · exact all_withWaits _ h
  · cases tr with
    | nil => rfl
    | cons op rest =>
      simp only [List.all_cons, Bool.and_eq_true] at h
      simp only [schedule, List.all_cons, Bool.and_eq_true]
      exact ⟨h.1, all_withWaits _ h.2⟩
  · exact all_withWaits _ h
  · exact all_withWaits _ h

/-- The running handler that a dispatch starts (60_exceptions R134). -/
def started (k : Phase) (rest : List Pending) (s : State) : Running where
  phase := k
  left := busyTime s.cfg k (schedule s.cfg k (perform (eventInstr k) { s with pend := rest }).trace)
    (Config.busyDraw s.draws)
  todo := schedule s.cfg k (perform (eventInstr k) { s with pend := rest }).trace
  fbBefore := s.fb

/-- Event entry, written out. -/
theorem dispatch_eq (k : Phase) (rest : List Pending) (s : State) :
    dispatch k rest s = .next (handlerCycle (started k rest s)
      { perform (eventInstr k) { s with pend := rest } with
        hsync := s.hsync, vsync := s.vsync, color := s.color, trace := [],
        busy := some (started k rest s), draws := s.draws + 1 }) := by
  rw [dispatch, exec_eq_perform]
  rfl

theorem started_output (k : Phase) (rest : List Pending) (s : State) :
    (started k rest s).todo.all (fun e => isOutput e.op) = true :=
  all_schedule _ _ (event_trace_output _ _)

/-- A busy time is never above `DUR_MAX_k` (60_exceptions R139). -/
theorem busyTime_le (c : Params) (k : Phase) (todo : List Timed) (draw : Nat) :
    busyTime c k todo draw ≤ c.durMax k := by
  unfold busyTime
  have := Nat.mod_lt draw (show 0 < c.durMax k -
    min (max (c.durMin k) (outputCycles todo)) (c.durMax k) + 1 by omega)
  simp only
  omega

end Sys2Proof.Machine
end

