-- ==== Sys2Proof/Laws/PerInstr.lean ====
section
/-! SUPPORT. Per-operation laws of the operation map: the code alone fixes the operation and its issuer
(30_encoding R66, R70). -/

namespace Sys2Proof.Laws.CodeFixesOperation

/-- Whatever the operand buses carry, the code of `i` decodes to an operation with the same code and
issuer. -/
def Statement (i : Instr) : Prop :=
  ∀ (c : Params) (o : Operands),
    ∃ j, decode c (opcode i) o = .ok j ∧ opcode j = opcode i ∧ issuer j = issuer i

theorem evSs : Statement .evSs := fun _ _ => ⟨_, rfl, rfl, rfl⟩

theorem evBp : Statement .evBp := fun _ _ => ⟨_, rfl, rfl, rfl⟩

theorem evAd : Statement .evAd := fun _ _ => ⟨_, rfl, rfl, rfl⟩

theorem evFp : Statement .evFp := fun _ _ => ⟨_, rfl, rfl, rfl⟩

theorem schedStep : Statement .schedStep := fun _ _ => ⟨_, rfl, rfl, rfl⟩

theorem fbGet (x y : Nat) : Statement (.fbGet x y) := fun _ _ => ⟨_, rfl, rfl, rfl⟩

theorem fbSet (x y : Nat) (v : Pixel) : Statement (.fbSet x y v) := fun _ _ => ⟨_, rfl, rfl, rfl⟩

theorem fbRow (y : Nat) : Statement (.fbRow y) := fun _ _ => ⟨_, rfl, rfl, rfl⟩

theorem fbFill (v : Pixel) : Statement (.fbFill v) := fun _ _ => ⟨_, rfl, rfl, rfl⟩

theorem fbGetFlat (j : Nat) : Statement (.fbGetFlat j) := fun _ _ => ⟨_, rfl, rfl, rfl⟩

theorem fbSetFlat (j : Nat) (v : Pixel) : Statement (.fbSetFlat j v) := fun _ _ => ⟨_, rfl, rfl, rfl⟩

theorem outColor (v : Pixel) : Statement (.outColor v) := fun _ _ => ⟨_, rfl, rfl, rfl⟩

theorem outSyncSet (l : SyncLine) : Statement (.outSyncSet l) := fun _ _ => ⟨_, rfl, rfl, rfl⟩

theorem outSyncClr (l : SyncLine) : Statement (.outSyncClr l) := fun _ _ => ⟨_, rfl, rfl, rfl⟩

theorem pad (k : Nat) : Statement (.pad k) := fun _ _ => ⟨_, rfl, rfl, rfl⟩

theorem encodeColor (f : Flags) : Statement (.encodeColor f) := fun _ _ => ⟨_, rfl, rfl, rfl⟩

theorem hostArm : Statement .hostArm := fun _ _ => ⟨_, rfl, rfl, rfl⟩

theorem hostDisarm : Statement .hostDisarm := fun _ _ => ⟨_, rfl, rfl, rfl⟩

end Sys2Proof.Laws.CodeFixesOperation
end

