-- ==== Sys2Proof/Laws/Step.lean ====
section
/-! SUPPORT. What an admitted configuration gives, everything one clock cycle can do, the cycles before
the next compare match, and stimulus programs one after another. -/

namespace Sys2Proof.Machine

theorem holds_of_valid {c : Params} (h : c.valid = true) (k : ConfigCheck) : c.holds k = true := by
  simp only [Params.valid, List.all_cons, List.all_nil, Bool.and_eq_true] at h
  cases k <;> tauto

/-- The conditions of 00_scope R7 that every admitted configuration meets. -/
structure Admitted (c : Params) : Prop where
  v1 : c.offSs < c.offBp ∧ c.offBp < c.offAd ∧ c.offAd < c.offFp ∧ c.offFp < c.linePeriod
  v2 : 1 ≤ c.v ∧ c.v < c.t
  v4 : 1 ≤ c.h ∧ 1 ≤ c.w ∧ c.v % c.h = 0
  v5 : c.v ≤ c.vsOn ∧ c.vsOn < c.vsOff ∧ c.vsOff ≤ c.t
  v6 : 1 ≤ c.bandTop ∧ c.bandTop ≤ c.bandBot ∧ c.bandBot + 1 ≤ c.v
  v7 : 1 ≤ c.p ∧ 1 ≤ c.hold ∧ 1 ≤ c.chunk
  v9 : c.offSs + c.entryLat + c.durMaxSs ≤ c.offBp ∧ c.offBp + c.entryLat + c.durMaxBp ≤ c.offAd ∧
    c.offAd + c.entryLat + c.durMaxAd ≤ c.offFp ∧
    c.offFp + c.entryLat + c.durMaxFp ≤ c.linePeriod + c.offSs
  v10 : c.drawCycles ≤ c.durMaxAd

theorem admitted_facts {c : Params} (h : c.admitted = true) : Admitted c := by
  have hk : ∀ k, k ≠ .v3 → c.holds k = true := by
    simp only [Params.admitted, Params.refusedChecks, List.all_cons, List.all_nil,
      Bool.and_eq_true] at h
    intro k
    cases k <;> simp <;> tauto
  constructor
  · simpa [Params.holds] using hk .v1
  · simpa [Params.holds] using hk .v2
  · simpa [Params.holds] using hk .v4
  · simpa [Params.holds] using hk .v5
  · simpa [Params.holds] using hk .v6
  · simpa [Params.holds] using hk .v7
  · simpa [Params.holds] using hk .v9
  · simpa [Params.holds] using hk .v10

/-- `LPR` divides the visible lines exactly (00_scope R8). -/
theorem lpr_exact {c : Params} (h : Admitted c) : 1 ≤ c.lpr ∧ c.v = c.lpr * c.h := by
  have h2 := h.v2
  have h4 := h.v4
  have hd := Nat.div_add_mod c.v c.h
  have he : c.v = c.v / c.h * c.h := by rw [Nat.mul_comm]; omega
  refine ⟨Nat.one_le_iff_ne_zero.mpr fun hz => ?_, he⟩
  have hz' : c.v / c.h = 0 := hz
  rw [hz'] at he
  omega

/-! ### One clock cycle -/

theorem hostPerform_next (r : HostReq) (s : State) : ∃ t, hostPerform r s = .next t := by
  unfold hostPerform
  split
  · exact ⟨_, rfl⟩
  · split_ifs
    · exact exec_next _ s
    · exact ⟨_, rfl⟩

/-- A dispatch has the registers and cells of the event; the output registers, the trace, `BUSY` and
the count of free values are those of the handler's first cycle. -/
theorem dispatch_frame (k : Phase) (rest : List Pending) (s : State) : ∃ hs vs c tr d u,
    dispatch k rest s = .next { perform (eventInstr k) { s with pend := rest } with
      hsync := hs, vsync := vs, color := c, trace := tr, draws := d,
      busy := handlerBusy (started k rest s) u } := by
  rw [dispatch_eq]
  obtain ⟨hs, vs, c, tr, d, h⟩ := handlerCycle_output (started_output k rest s)
    { perform (eventInstr k) { s with pend := rest } with
      hsync := s.hsync, vsync := s.vsync, color := s.color, trace := [],
      busy := some (started k rest s), draws := s.draws + 1 }
  exact ⟨hs, vs, c, tr, d, _, congrArg Host.Outcome.next h⟩

theorem act_running {s : State} {r : Running} (h : s.busy = some r) :
    act s = .next (handlerCycle r s) := by
  unfold act
  rw [h]

theorem act_dispatch {s : State} {k : Phase} {rest : List Pending} (hb : s.busy = none)
    (hp : s.pend = ⟨k, 0⟩ :: rest) (ha : s.armed = true) : act s = dispatch k rest s := by
  unfold act
  rw [hb, hp]
  simp [ha]

theorem act_serve {s : State} (hb : s.busy = none)
    (hp : s.armed = true → ∀ k rest, s.pend ≠ ⟨k, 0⟩ :: rest) : act s = serveHost s := by
  unfold act
  rw [hb]
  simp only
  split
  · split_ifs with h
    · rename_i heq
      exact absurd heq (hp h _ _)
    · rfl
  · rfl

/-- Everything the block can do in a cycle: a running handler goes on, an event is dispatched, a
request is performed, or nothing (60_exceptions R130, R134, R149). -/
inductive Acts (s : State) : State → Prop
  | running (r : Running) (hb : s.busy = some r) : Acts s (handlerCycle r s)
  | dispatched (k : Phase) (rest : List Pending) (hb : s.busy = none) (ha : s.armed = true)
      (hp : s.pend = ⟨k, 0⟩ :: rest) (hs vs : Bool) (c : Flags) (tr : List Instr) (d : Nat)
      (u : State) :
      Acts s { perform (eventInstr k) { s with pend := rest } with
        hsync := hs, vsync := vs, color := c, trace := tr, draws := d,
        busy := handlerBusy (started k rest s) u }
  | served (r : HostReq) (hb : s.busy = none) (hr : s.request = some r)
      (hp : s.armed = true → ∀ k rest, s.pend ≠ ⟨k, 0⟩ :: rest) (t : State)
      (ht : hostPerform r { s with request := none } = .next t) : Acts s t
  | idle (hb : s.busy = none) (hr : s.request = none)
      (hp : s.armed = true → ∀ k rest, s.pend ≠ ⟨k, 0⟩ :: rest) : Acts s s

theorem act_cases (s : State) : ∃ u, act s = .next u ∧ Acts s u := by
  rcases hb : s.busy with _ | r
  · by_cases hp : s.armed = true ∧ ∃ k rest, s.pend = ⟨k, 0⟩ :: rest
    · obtain ⟨ha, k, rest, hk⟩ := hp
      obtain ⟨hs, vs, c, tr, d, u, h⟩ := dispatch_frame k rest s
      exact ⟨_, (act_dispatch hb hk ha).trans h, .dispatched k rest hb ha hk hs vs c tr d u⟩
    · push Not at hp
      have h := act_serve hb hp
      rcases hr : s.request with _ | r
      · exact ⟨s, by rw [h]; simp [serveHost, hr], .idle hb hr hp⟩
      · obtain ⟨t, ht⟩ := hostPerform_next r { s with request := none }
        exact ⟨t, by rw [h]; simp [serveHost, hr, ht], .served r hb hr hp t ht⟩
  · exact ⟨_, act_running hb, .running r hb⟩

/-- Before the block acts, a cycle touches the input fields, `PEND` and `FAULT` only. -/
theorem afterCompare_eq (s : State) : ∃ p f, afterCompare s =
    { s with inputs := s.inputs.tail, resp := none, request := (afterInput s).request,
             pend := p, fault := f } := by
  obtain ⟨q, hq⟩ := afterInput_eq s
  obtain ⟨p, f, hpf⟩ := compareAll_eq (afterInput s)
  exact ⟨p, f, by rw [afterCompare, hpf, hq]⟩

/-- A step without reset: the block acts on the state after the compares, and the clock edge follows. -/
theorem step_of_notReset {s : State} (ha : s.cfg.admitted = true) (hr : notReset s) :
    step s = andThen (act (afterCompare s)) fun t => .next (clockEdge s.armed t) := by
  rw [step_of_admitted ha, cycle_of_notReset hr]
  rfl

/-- Everything a step can do without reset: after the input and the compares, which touch the input
fields, `PEND` and `FAULT`, the block acts and the clock edge follows. -/
theorem step_cases {s : State} (ha : s.cfg.admitted = true) (hr : notReset s) : ∃ q p f u,
    afterCompare s =
      { s with inputs := s.inputs.tail, resp := none, request := q, pend := p, fault := f } ∧
    Acts { s with inputs := s.inputs.tail, resp := none, request := q, pend := p, fault := f } u ∧
    step s = .next (clockEdge s.armed u) := by
  obtain ⟨q, hq⟩ := afterInput_eq s
  obtain ⟨p, f, hpf⟩ := compareAll_eq (afterInput s)
  obtain ⟨u, hu, hA⟩ := act_cases
    { s with inputs := s.inputs.tail, resp := none, request := q, pend := p, fault := f }
  refine ⟨q, p, f, u, by rw [afterCompare, hpf, hq], hA, ?_⟩
  rw [step_of_admitted ha, cycle_of_notReset hr, hpf, hq, hu]
  rfl

theorem matchSource_appends (k : Phase) (s : State) : ∃ x, (matchSource k s).pend = s.pend ++ x := by
  unfold matchSource
  split_ifs
  · exact ⟨[], by simp [raiseFault]⟩
  · exact ⟨[], by simp [raiseFault]⟩
  · exact ⟨_, rfl⟩
  · exact ⟨_, rfl⟩

theorem compareSource_appends (k : Phase) (s : State) :
    ∃ x, (compareSource k s).pend = s.pend ++ x := by
  unfold compareSource
  split_ifs
  · exact matchSource_appends _ _
  · exact ⟨[], by simp⟩

/-- The compares only append to `PEND` (60_exceptions R129). -/
theorem compareAll_appends (s : State) : ∃ x, (compareAll s).pend = s.pend ++ x := by
  obtain ⟨a, ha⟩ := compareSource_appends .ss s
  obtain ⟨b, hb⟩ := compareSource_appends .bp (compareSource .ss s)
  obtain ⟨c, hc⟩ := compareSource_appends .ad (compareSource .bp (compareSource .ss s))
  obtain ⟨d, hd⟩ :=
    compareSource_appends .fp (compareSource .ad (compareSource .bp (compareSource .ss s)))
  exact ⟨a ++ b ++ c ++ d, by rw [compareAll, hd, hc, hb, ha]; simp⟩

/-- What waited at the head of `PEND` stays the head through the compares. -/
theorem afterCompare_head {s : State} {e : Pending} {rest : List Pending} (h : s.pend = e :: rest) :
    ∃ new, (afterCompare s).pend = e :: (rest ++ new) := by
  obtain ⟨new, hn⟩ := compareAll_appends (afterInput s)
  obtain ⟨q, hq⟩ := afterInput_eq s
  exact ⟨new, by rw [afterCompare, hn, hq]; simp [h]⟩

/-- Where one source matches, the compares are its match. -/
theorem compareAll_match {s : State} {k : Phase} (ha : s.armed = true)
    (ht : ∀ k', s.tcnt = s.cfg.off k' ↔ k' = k) : compareAll s = matchSource k s := by
  have other : ∀ k', k' ≠ k → ∀ t : State, t.cfg = s.cfg → t.tcnt = s.tcnt → compareSource k' t = t :=
    fun k' hk t hc htt => compareSource_noMatch fun _ e => hk ((ht k').mp (by rw [← htt, ← hc]; exact e))
  have this : compareSource k s = matchSource k s := by
    unfold compareSource
    rw [if_pos]
    simp [ha, ht]
  obtain ⟨p, f, hm⟩ := matchSource_eq k s
  have hc : (matchSource k s).cfg = s.cfg := by rw [hm]
  have htt : (matchSource k s).tcnt = s.tcnt := by rw [hm]
  unfold compareAll
  cases k
  · rw [this, other .bp (by simp) _ hc htt, other .ad (by simp) _ hc htt, other .fp (by simp) _ hc htt]
  · rw [other .ss (by simp) _ rfl rfl, this, other .ad (by simp) _ hc htt,
      other .fp (by simp) _ hc htt]
  · rw [other .ss (by simp) _ rfl rfl, other .bp (by simp) _ rfl rfl, this,
      other .fp (by simp) _ hc htt]
  · rw [other .ss (by simp) _ rfl rfl, other .bp (by simp) _ rfl rfl, other .ad (by simp) _ rfl rfl,
      this]

/-! ### The outside, cycle by cycle -/

theorem notReset_of_noReset {s : State} (h : noReset s) : notReset s := by
  unfold notReset currentInput
  cases hi : s.inputs with
  | nil => rfl
  | cons p l => exact h p (by simp [hi])

theorem noReset_tail {s t : State} (h : noReset s) (hi : t.inputs = s.inputs.tail) : noReset t :=
  fun p hp => h p (List.mem_of_mem_tail (hi ▸ hp))

/-- The request at the port once the input is taken is one that waited or one that was to come. -/
theorem noRequest_afterInput {op : BitVec 8} {s : State} (h : noRequest op s) :
    ∀ r, (afterInput s).request = some r → r.op ≠ op := by
  intro r hr
  unfold afterInput latchRequest at hr
  split at hr
  · exact h.1 r hr
  · cases hi : s.inputs with
    | nil => simp [currentInput, hi] at hr
    | cons p l =>
      simp only [currentInput, hi] at hr
      exact h.2 p (by simp [hi]) r hr

theorem noRequest_tail {op : BitVec 8} {s t : State} (h : noRequest op s)
    (hi : t.inputs = s.inputs.tail)
    (hq : t.request = none ∨ t.request = (afterInput s).request) : noRequest op t := by
  refine ⟨fun r hr => ?_, fun p hp => h.2 p (List.mem_of_mem_tail (hi ▸ hp))⟩
  rcases hq with hq | hq
  · rw [hq] at hr
    cases hr
  · exact noRequest_afterInput h r (hq ▸ hr)

/-! ### The cycles before the next compare match -/

theorem off_lt {c : Params} (h : Admitted c) (k : Phase) : c.off k < c.linePeriod := by
  have := h.v1
  cases k <;> simp [Params.off] <;> omega

theorem untilMatch_self (c : Params) (k : Phase) : untilMatch c k (c.off k) = 0 := by
  unfold untilMatch
  rw [Nat.add_sub_cancel_left, Nat.mod_self]

theorem untilMatch_eq {c : Params} (h : Admitted c) (k : Phase) {t : Nat} (ht : t < c.linePeriod) :
    untilMatch c k t = if t ≤ c.off k then c.off k - t else c.off k + c.linePeriod - t := by
  have ho := off_lt h k
  unfold untilMatch
  split_ifs with hle
  · rw [show c.off k + c.linePeriod - t = (c.off k - t) + c.linePeriod by omega,
      Nat.add_mod_right, Nat.mod_eq_of_lt (by omega)]
  · rw [Nat.mod_eq_of_lt (by omega)]

theorem untilMatch_next {c : Params} (h : Admitted c) (k : Phase) {t : Nat}
    (ht : t < c.linePeriod) (hne : t ≠ c.off k) :
    untilMatch c k ((t + 1) % c.linePeriod) + 1 = untilMatch c k t := by
  have ho := off_lt h k
  have hn : (t + 1) % c.linePeriod = if t + 1 = c.linePeriod then 0 else t + 1 := by
    split_ifs with e
    · rw [e, Nat.mod_self]
    · exact Nat.mod_eq_of_lt (by omega)
  rw [hn]
  split_ifs with e <;> rw [untilMatch_eq h k (by omega), untilMatch_eq h k ht] <;>
    split_ifs <;> omega

/-- In a cycle without a match the next match comes one cycle nearer. -/
theorem untilNext_next {c : Params} (h : Admitted c) {t : Nat} (ht : t < c.linePeriod)
    (hne : ∀ k, t ≠ c.off k) : untilNext c ((t + 1) % c.linePeriod) + 1 = untilNext c t := by
  unfold untilNext
  have h1 := untilMatch_next h .ss ht (hne _)
  have h2 := untilMatch_next h .bp ht (hne _)
  have h3 := untilMatch_next h .ad ht (hne _)
  have h4 := untilMatch_next h .fp ht (hne _)
  omega

/-- While the next match is at least a cycle away no source matches. -/
theorem noMatch_of_untilNext {c : Params} {t : Nat} (h : 1 ≤ untilNext c t) (k : Phase) :
    t ≠ c.off k := by
  rintro rfl
  have := untilMatch_self c k
  unfold untilNext at h
  cases k <;> omega

/-! ### Stimulus programs -/

/-- A program after a prefix that runs goes on from the prefix's state, with the event then due. -/
theorem runStimulus_append {p : List Stim} {due : Phase} {s t : State}
    (h : runStimulus due p s = .next t) (q : List Stim) :
    runStimulus due (p ++ q) s = runStimulus (dueAfter due p s) q t := by
  induction p generalizing due s with
  | nil =>
    cases h
    rfl
  | cons e p ih =>
    cases e with
    | event k =>
      simp only [runStimulus] at h
      split_ifs at h with ha hk
      obtain rfl : k = due := not_not.mp hk
      rw [exec_eq_perform] at h
      simp only [List.cons_append, runStimulus, ha, exec_eq_perform, dueAfter, ne_eq, not_true,
        if_false, Bool.false_eq_true]
      exact ih h
    | host r =>
      obtain ⟨u, hu⟩ := hostPerform_next r s
      simp only [runStimulus, hu] at h
      simp only [List.cons_append, runStimulus, hu, dueAfter]
      exact ih h

end Sys2Proof.Machine
end

