-- ==== Sys2Proof/Tests/Slice0.lean ====
section
/-! SUPPORT. Tests with the vectors of spec/95_test_vectors.md, each named beside its test; the decoding
of every operation from a code written out bit by bit (30_encoding R61, R66); ill-formed operations; and
for every statement with premises a witness that meets them. -/

namespace Sys2Proof.Tests

open Sys2Proof Sys2Proof.Machine

/-- Config A of 95_test_vectors. -/
def cfgA : Params where
  w := 2
  h := 2
  v := 4
  t := 8
  vsOn := 5
  vsOff := 6
  bandTop := 1
  bandBot := 3
  linePeriod := 64
  offSs := 0
  offBp := 8
  offAd := 24
  offFp := 48
  borderCycles := 4
  pixelCycles := 2
  borderFlags := 0x1FF
  palette := [0x007, 0x038, 0x1C0]
  hold := 2
  chunk := 2
  vsyncActiveLevel := false
  entryLat := 1
  latSs := 1
  latBp := 1
  latBpv := 2
  latAd := 1
  latFp := 1
  durMinSs := 2
  durMaxSs := 6
  durMinBp := 2
  durMaxBp := 14
  durMinAd := 14
  durMaxAd := 22
  durMinFp := 2
  durMaxFp := 10

/-- The configuration of 95_test_vectors 2.2, `W = 3`, `H = 2`. -/
def cfg3 : Params := { cfgA with w := 3 }

/-- Config B of 95_test_vectors with `HOLD = 1`. -/
def cfgB : Params := { cfgA with t := 7, chunk := 1, hold := 1 }

/-- Config C of 95_test_vectors. -/
def cfgC : Params := { cfgA with vsOn := 4, vsOff := 8, hold := 1 }

/-- Config A with handlers that start in the cycle of their match. -/
def cfgZ : Params := { cfgA with entryLat := 0 }

/-- Config A with a back porch too long for its gap, which breaks V9 only. -/
def cfgLate : Params := { cfgA with durMaxBp := 40 }

def red : Pixel := 0x3F007

def green : Pixel := 0x38E38

def blue : Pixel := 0x07FC0

/-- A block whose six first cells hold RED, in INIT mode. -/
def initOf (c : Params) : State :=
  { State.resetOf c with fb := Memory.fill red c.n 0 [] }

/-- The same in RUN mode, at a line. -/
def runAt (c : Params) (line : Nat) : State :=
  { initOf c with armed := true, line := line, row := line / c.lpr, vact := decide (line < c.v) }

/-- In RUN mode with a handler running and nothing due. -/
def busyAt (c : Params) (tcnt left : Nat) (todo : List Timed) : State :=
  { runAt c 1 with
    tcnt := tcnt
    busy := some { phase := .bp, left := left, todo := todo, fbBefore := (initOf c).fb } }

/-- The state after a step, the same state where it answers none. -/
def afterStep (s : State) : State :=
  match step s with
  | .next t => t
  | .fault _ => s
  | .refused _ => s

/-! ### Decoding: every operation from its code, bit by bit -/

def ops : Operands := { x := 1, y := 1, i := 3, v := red, f := 0x007, s := 1, k := 16 }

theorem test_decode_evSs : decode cfgA 0b00000000#8 ops = .ok .evSs := rfl
theorem test_decode_evBp : decode cfgA 0b00000001#8 ops = .ok .evBp := rfl
theorem test_decode_evAd : decode cfgA 0b00000010#8 ops = .ok .evAd := rfl
theorem test_decode_evFp : decode cfgA 0b00000011#8 ops = .ok .evFp := rfl
theorem test_decode_schedStep : decode cfgA 0b00010000#8 ops = .ok .schedStep := rfl
theorem test_decode_fbGet : decode cfgA 0b00100000#8 ops = .ok (.fbGet 1 1) := rfl
theorem test_decode_fbSet : decode cfgA 0b00100001#8 ops = .ok (.fbSet 1 1 red) := rfl
theorem test_decode_fbRow : decode cfgA 0b00100010#8 ops = .ok (.fbRow 1) := rfl
theorem test_decode_fbFill : decode cfgA 0b00100011#8 ops = .ok (.fbFill red) := rfl
theorem test_decode_fbGetFlat : decode cfgA 0b00100100#8 ops = .ok (.fbGetFlat 3) := rfl
theorem test_decode_fbSetFlat : decode cfgA 0b00100101#8 ops = .ok (.fbSetFlat 3 red) := rfl
theorem test_decode_outColor : decode cfgA 0b00110000#8 ops = .ok (.outColor red) := rfl
theorem test_decode_outSyncSet : decode cfgA 0b00110001#8 ops = .ok (.outSyncSet .vertical) := rfl
theorem test_decode_outSyncClr : decode cfgA 0b00110010#8 ops = .ok (.outSyncClr .vertical) := rfl
theorem test_decode_pad : decode cfgA 0b00110011#8 ops = .ok (.pad 16) := rfl
theorem test_decode_encode : decode cfgA 0b01000000#8 ops = .ok (.encodeColor 0x007) := rfl
theorem test_decode_hostArm : decode cfgA 0b01010000#8 ops = .ok .hostArm := rfl
theorem test_decode_hostDisarm : decode cfgA 0b01010001#8 ops = .ok .hostDisarm := rfl

/-- The reserved codes 30_encoding R68 lists. -/
theorem test_decode_reserved :
    ([0x04, 0x11, 0x26, 0x34, 0x41, 0x52, 0x60, 0xFF] : List (BitVec 8)).all
      (fun op => decide (decode cfgA op ops = .error (reservedCode op))) = true := by decide

/-! ### Well-formedness: one operation for each check, refused (95_test_vectors 2.2 for the widths) -/

theorem test_wellFormed : WellFormed cfg3 (.fbGet 3 1) = true := by decide
theorem test_illFormed_x : WellFormed cfg3 (.fbGet 4 1) = false := by decide
theorem test_illFormed_x_set : WellFormed cfg3 (.fbSet 4 1 red) = false := by decide
theorem test_illFormed_y : WellFormed cfg3 (.fbSet 0 2 red) = false := by decide
theorem test_illFormed_y_row : WellFormed cfg3 (.fbRow 2) = false := by decide
theorem test_illFormed_i : WellFormed cfg3 (.fbGetFlat 8) = false := by decide
theorem test_illFormed_i_set : WellFormed cfg3 (.fbSetFlat 8 red) = false := by decide
theorem test_illFormed_k : WellFormed cfg3 (.pad 65536) = false := by decide

/-! ### Colour encoding, 2.1 -/

theorem test_encode_palette :
    encodePixel 0x000 = 0x3FE00 ∧ encodePixel 0x007 = 0x3F007 ∧ encodePixel 0x038 = 0x38E38 ∧
    encodePixel 0x1C0 = 0x07FC0 ∧ encodePixel 0x1FF = 0x001FF := by decide

theorem test_encode_patterns :
    encodePixel 0x03F = 0x3803F ∧ encodePixel 0x155 = 0x15555 ∧ encodePixel 0x0AA = 0x2AAAA ∧
    encodePixel 0x049 = 0x36C49 := by decide

/-! ### Frame Buffer, 2.2 -/

theorem test_fbGet :
    (perform (.fbGet 2 1) (initOf cfg3)).resp = some 0x3F007 ∧
    (perform (.fbGet 3 0) (initOf cfg3)).resp = some 0 ∧
    (perform (.fbGet 3 0) (initOf cfg3)).fault = 0x01 := by decide

theorem test_fbSet_writes :
    (perform (.fbGetFlat 5) (perform (.fbSet 2 1 blue) (initOf cfg3))).resp = some 0x07FC0 := by
  decide

theorem test_fbSet_order :
    (perform (.fbSet 0 0 0x3F000) (initOf cfg3)).fault = 0x02 ∧
    (perform (.fbSet 3 0 0) (initOf cfg3)).fault = 0x01 ∧
    (perform (.fbSet 3 0 0) (runAt cfg3 0)).fault = 0x08 := by decide

theorem test_fbGetFlat : (perform (.fbGetFlat 6) (initOf cfg3)).fault = 0x01 := by decide

theorem test_fbFill :
    (perform (.fbGet 2 1) (perform (.fbFill 0x3FE00) (initOf cfg3))).resp = some 0x3FE00 ∧
    (perform (.fbFill 0x00001) (initOf cfg3)).fault = 0x02 ∧
    (perform (.fbFill red) (runAt cfg3 0)).fault = 0x08 := by decide

theorem test_fbRow :
    (perform (.fbRow 1) (initOf cfg3)).view = some 1 ∧
    (perform (.fbRow 2) (initOf cfg3)).fault = 0x01 := by decide

theorem test_fbSetFlat :
    Memory.read (perform (.fbSetFlat 3 green) (initOf cfg3)).fb 3 = 0x38E38 ∧
    Memory.read (perform (.fbSetFlat 3 green) (initOf cfg3)).fb 4 = 0x3F007 := by decide

/-! ### Scan timing, 2.3 -/

/-- T1. -/
theorem test_evSs :
    (perform .evSs (initOf cfgA)).hsync = false ∧
    (perform .evSs (initOf cfgA)).trace = [.outSyncClr .horizontal] := by decide

/-- T4. -/
theorem test_evBp_hold :
    let t := perform .evBp (runAt cfgA 3)
    t.line = 4 ∧ t.row = 2 ∧ t.vact = false ∧ t.holdCnt = 1 ∧
      t.trace = [.outSyncSet .horizontal] := by decide

/-- The eighth back porch of config C: both the marker and the frame end. -/
theorem test_evBp_frameEnd :
    let t := perform .evBp { runAt cfgC 7 with vsync := false }
    t.line = 0 ∧ t.vact = true ∧ t.row = 0 ∧ t.vsync = true ∧
      t.trace = [.outSyncSet .horizontal, .outSyncSet .vertical] := by decide

/-- T9. -/
theorem test_evAd_interior :
    (perform .evAd { runAt cfgA 2 with fb := [(0, red), (1, red), (2, red), (3, green)] }).trace =
      [.outColor 0x001FF, .pad 4, .outColor 0x3F007, .pad 2, .outColor 0x38E38, .pad 2,
        .outColor 0x001FF, .pad 4, .outColor 0x3FE00] := by decide

/-- T10. -/
theorem test_evAd_border :
    let t := perform .evAd (runAt cfgA 3)
    t.color = 0 ∧ t.pixelX = 2 ∧ t.trace =
      [.outColor 0x001FF, .pad 4, .outColor 0x001FF, .pad 2, .outColor 0x001FF, .pad 2,
        .outColor 0x001FF, .pad 4, .outColor 0x3FE00] := by decide

/-- T13. -/
theorem test_evFp :
    let t := perform .evFp { initOf cfgA with color := 0x1FF }
    t.color = 0 ∧ t.trace = [.outColor 0x3FE00] := by decide

/-! ### Scheduler, 2.4 -/

/-- S2. -/
theorem test_schedStep_advance :
    let t := perform .schedStep { runAt cfgA 4 with holdCnt := 1, cur := 4 }
    t.holdCnt = 0 ∧ t.widx = 1 ∧ t.cur = 2 ∧
      t.fb = [(0, green), (1, green), (2, red), (3, red)] := by decide

/-- S5. -/
theorem test_schedStep_clamp :
    let t := perform .schedStep { runAt { cfgA with chunk := 3 } 5 with cur := 3, widx := 1 }
    t.cur = 4 ∧ t.fb = [(0, red), (1, red), (2, red), (3, green)] := by decide

/-! ### Output stage and host control, 2.5 -/

/-- O1, O3, O4, O5. -/
theorem test_outColor :
    (perform (.outColor red) { initOf cfgA with color := 0x1FF }).color = 0x007 ∧
    (perform (.outColor 0x00003) { initOf cfgA with color := 0x1F0 }).color = 0x1F3 ∧
    (perform (.outColor 0x3FFFF) { initOf cfgA with color := 0x0F0 }).color = 0x1FF ∧
    (perform (.outColor 0x00000) { initOf cfgA with color := 0x0A5 }).color = 0x0A5 := by decide

/-- O6. -/
theorem test_outSyncClr :
    (perform (.outSyncClr .horizontal) (initOf cfgA)).hsync = false := by decide

/-- O7. -/
theorem test_outSyncSet :
    (perform (.outSyncSet .vertical) { initOf cfgA with vsync := false }).vsync = true := by decide

/-- O9. -/
theorem test_pad : (perform (.pad 16) (initOf cfgA)).color = 0 := by decide

/-- H1, H2. -/
theorem test_hostArm :
    (perform .hostArm { initOf cfgA with tcnt := 37 }).tcnt = 0 ∧
    (perform .hostArm { initOf cfgA with tcnt := 37 }).armed = true ∧
    (perform .hostArm (runAt cfgA 0)).fault = 0x08 := by decide

/-- H4. -/
theorem test_hostDisarm :
    let t := perform .hostDisarm { runAt cfgA 0 with hsync := false }
    t.armed = false ∧ t.hsync = false := by decide

/-! ### Cycle level, 2.6 -/

/-- D7: the `EV_AD` match at `TCNT = 24` while the back porch still runs. -/
theorem test_match_budget :
    let t := compareAll (busyAt cfgA 24 5 [])
    t.fault = 0x20 ∧ t.pend.map (·.event) = [.ad] := by decide

/-- D8: a match of a source that is already pending. -/
theorem test_match_overrun :
    let t := compareAll { busyAt cfgA 48 13 [] with
      pend := [⟨.fp, 0⟩, ⟨.ss, 0⟩, ⟨.bp, 0⟩, ⟨.ad, 0⟩] }
    t.fault = 0x30 ∧ t.pend.map (·.event) = [.fp, .ss, .bp, .ad] := by decide

/-- D9. -/
theorem test_step_illegal :
    let t := afterStep { initOf cfgA with request := some { op := 0x60 } }
    t.fault = 0x04 ∧ t.resp = some 0 := by decide

/-- Config A is valid; config B breaks V3 only and is admitted; one that breaks V9 is refused. -/
theorem test_valid :
    cfgA.valid = true ∧ cfgZ.valid = true ∧ Config.reference.valid = true ∧ cfgC.valid = true ∧
    cfgB.valid = false ∧ cfgB.admitted = true ∧ cfgLate.refusedBy = some .v9 := by decide

theorem test_word_runs_first :
    (afterStep (State.reset.withFetchWord 8 0x50)).armed = true ∧
    (afterStep (State.reset.withFetchWord 8 0x31)).hsync = true ∧
    (afterStep (State.reset.withFetchWord 8 0x22)).view = some 0 ∧
    (afterStep (State.reset.withFetchWord 8 0x60)).fault = 0x04 := by decide

/-! ### Witnesses: for each statement with premises a state and operands that meet them, one for each of
its clauses, at a boundary of their ranges -/

theorem buses_zero : busesFit cfgA {} := by unfold busesFit; decide

/-- A state on a line of config A, with or without entry latency, with the registers of a block just booted. -/
theorem inRange_bootedA {s : State} (hc : s.cfg = cfgA ∨ s.cfg = cfgZ) (hl : s.line < 8)
    (hv : s.vact = decide (s.line < 4)) (hr : s.row = s.line / 2) (hw : s.widx = 0)
    (hh : s.holdCnt = 0) (hu : s.cur = 4) (hf : s.fb = (initOf cfgA).fb)
    (hb : busyOk cfgA s.busy = true) : InRange s := by
  rcases hc with hc | hc <;>
  exact {
    admitted := by rw [hc]; decide
    line_lt := by rw [hc]; exact hl
    vact_eq := by rw [hc]; exact hv
    row_eq := fun _ => by rw [hc]; exact hr
    widx_lt := by rw [hc, hw]; decide
    hold_lt := by rw [hc, hh]; decide
    cur_le := by rw [hc, hu]; decide
    fb_ok := by rw [hc, hf]; decide
    busy_ok := by rw [hc]; exact hb }

theorem inRange_runA (line : Nat) (h : line < 8) : InRange (runAt cfgA line) :=
  inRange_bootedA (.inl rfl) h rfl rfl rfl rfl rfl rfl rfl

theorem busyOk_A (left : Nat) : busyOk cfgA
    (some { phase := .bp, left := left, todo := [], fbBefore := (initOf cfgA).fb }) = true := by
  show (true && fbOk cfgA (initOf cfgA).fb) = true
  decide

theorem inRange_busyA (tcnt left : Nat) : InRange (busyAt cfgA tcnt left []) :=
  inRange_bootedA (.inl rfl) (by show 1 < 8; decide) rfl rfl rfl rfl rfl rfl (busyOk_A left)

theorem encoded_booted (i : Nat) (hi : i < cfgA.n) :
    isEncoded (Memory.read (initOf cfgA).fb i) = true := by
  change i < 4 at hi
  interval_cases i <;> decide

theorem cellsEncoded_runA (line : Nat) : CellsEncoded (runAt cfgA line) where
  now := encoded_booted
  before := fun _ h => by cases h

/-- The block at the dispatch of an event, `ENTRY_LAT` after its match. -/
def entryAt (k : Phase) (line tcnt : Nat) : State :=
  { runAt cfgA line with pend := [⟨k, 0⟩], tcnt := tcnt }

theorem inRange_entry (k : Phase) (line tcnt : Nat) (h : line < 8) : InRange (entryAt k line tcnt) :=
  inRange_bootedA (.inl rfl) h rfl rfl rfl rfl rfl rfl rfl

theorem timerInRange_entry (k : Phase) (line tcnt : Nat) (h : tcnt < 64) :
    TimerInRange (entryAt k line tcnt) where
  tcnt_lt := h
  distinct := List.nodup_singleton k
  disarmed := fun h => by cases h

theorem cellsEncoded_entry (k : Phase) (line tcnt : Nat) : CellsEncoded (entryAt k line tcnt) where
  now := encoded_booted
  before := fun _ h => by cases h

theorem onTime_entry :
    OnTime (entryAt .ss 1 1) ∧ OnTime (entryAt .bp 4 9) ∧ OnTime (entryAt .ad 1 25) ∧
    OnTime (entryAt .fp 1 49) := by
  refine ⟨?_, ?_, ?_, ?_⟩
  · show 0 + cfgA.durMax .ss ≤ untilNext cfgA 1; decide
  · show 0 + cfgA.durMax .bp ≤ untilNext cfgA 9; decide
  · show 0 + cfgA.durMax .ad ≤ untilNext cfgA 25; decide
  · show 0 + cfgA.durMax .fp ≤ untilNext cfgA 49; decide

theorem positiveBudgets_A : positiveBudgets cfgA := by intro k; cases k <;> decide

theorem positiveBudgets_Z : positiveBudgets cfgZ := positiveBudgets_A

theorem valid_A : cfgA.valid = true := by decide

theorem valid_Z : cfgZ.valid = true := by decide

theorem clean_budget : hasFault 0 .budget = false := by decide

/-- The block idle at the match of an event, on a line. -/
def matchAt (c : Params) (k : Phase) (line : Nat) : State := { runAt c line with tcnt := c.off k }

theorem inRange_matchZ (k : Phase) (line : Nat) (h : line < 8) : InRange (matchAt cfgZ k line) :=
  inRange_bootedA (.inr rfl) h rfl rfl rfl rfl rfl rfl rfl

theorem timerInRange_matchZ (k : Phase) (line : Nat) : TimerInRange (matchAt cfgZ k line) where
  tcnt_lt := by
    show cfgZ.off k < cfgZ.linePeriod
    cases k <;> decide
  distinct := List.nodup_nil
  disarmed := fun h => by cases h

theorem cellsEncoded_matchZ (k : Phase) (line : Nat) : CellsEncoded (matchAt cfgZ k line) where
  now := encoded_booted
  before := fun _ h => by cases h

/-- The same block with an `FB_GET` that waits at the port and another one to come. -/
def asking (s : State) : State :=
  { s with request := some { op := 0x20 }, inputs := [{}, { req := some { op := 0x20, x := 1 } }] }

theorem noReset_asking (s : State) : noReset (asking s) := by
  intro p hp
  simp only [asking, List.mem_cons, List.not_mem_nil, or_false] at hp
  rcases hp with rfl | rfl <;> rfl

theorem noRequest_asking (s : State) {op : BitVec 8} (h : 0x20 ≠ op) : noRequest op (asking s) := by
  refine ⟨fun r hr => ?_, fun p hp r hr => ?_⟩
  · cases hr
    exact h
  · simp only [asking, List.mem_cons, List.not_mem_nil, or_false] at hp
    rcases hp with rfl | rfl <;> cases hr
    exact h

theorem notRestarted_asking (s : State) : notRestarted (asking s) :=
  .inl (noRequest_asking s (by decide))

theorem inRange_asking {s : State} (h : InRange s) : InRange (asking s) := { h with }

theorem timerInRange_asking {s : State} (h : TimerInRange s) : TimerInRange (asking s) := { h with }

theorem cellsEncoded_asking {s : State} (h : CellsEncoded s) : CellsEncoded (asking s) := { h with }

/-- The handler starts in this cycle: after its entry latency, or with none in the cycle of its match. -/
theorem atEntry_asking (line tcnt : Nat) (h : ∀ k, tcnt ≠ cfgA.off k) (k : Phase) :
    atEntry k (asking (entryAt k line tcnt)) := by
  have hn : ∀ k', ¬ (tcnt = cfgA.off k') := h
  refine ⟨rfl, rfl, ?_⟩
  unfold afterCompare
  rw [compareAll_noMatch (fun _ k' => hn k')]
  rfl

theorem atEntry_matchZ (k : Phase) (line : Nat) : atEntry k (asking (matchAt cfgZ k line)) := by
  cases k <;> exact ⟨rfl, rfl, rfl⟩

theorem witness_OperationMap : busesFit cfgA {} ∧
    (0x04 : BitVec 8) ∉ ([0x00, 0x01, 0x02, 0x03, 0x10, 0x20, 0x21, 0x22, 0x23, 0x24, 0x25, 0x30, 0x31,
      0x32, 0x33, 0x40, 0x50, 0x51] : List (BitVec 8)) := ⟨buses_zero, by decide⟩

theorem witness_DecodeTotalUnambiguous :
    opcode (.fbGet 0 0) = opcode (.fbGet 1 1) := rfl

theorem witness_DecodeEncode : WellFormed cfgA (.fbSet 1 1 red) = true ∧
    decode cfgA 0x33 { k := 65535 } = .ok (.pad 65535) := by decide

theorem witness_EncodeColour : encodePixel 0x1FF = encodePixel 0x1FF ∧
    red.extractLsb' 9 9 = ~~~(red.extractLsb' 0 9) := by decide

theorem witness_FbGetReadsCell : busesFit cfgA {} ∧
    ((1 < (initOf cfgA).cfg.w ∧ 1 < (initOf cfgA).cfg.h) ∧
      ¬(2 < (initOf cfgA).cfg.w ∧ 1 < (initOf cfgA).cfg.h)) := ⟨buses_zero, by decide⟩

theorem witness_FbSetWritesCell : busesFit cfgA {} ∧
    (runAt cfgA 0).armed = true ∧
    ((initOf cfgA).armed = false ∧ ¬(1 < (initOf cfgA).cfg.w ∧ 2 < (initOf cfgA).cfg.h)) ∧
    ((initOf cfgA).armed = false ∧ 1 < (initOf cfgA).cfg.w ∧ 1 < (initOf cfgA).cfg.h ∧
      (0x3F000 : Pixel).extractLsb' 9 9 ≠ ~~~((0x3F000 : Pixel).extractLsb' 0 9)) ∧
    red.extractLsb' 9 9 = ~~~(red.extractLsb' 0 9) := ⟨buses_zero, by decide⟩

theorem witness_FbRowAnswersView : busesFit cfgA {} ∧
    1 < (initOf cfgA).cfg.h ∧ (initOf cfgA).cfg.h ≤ 2 := ⟨buses_zero, by decide⟩

theorem witness_FbFillWritesEveryCell : (runAt cfgA 0).armed = true ∧
    (initOf cfgA).armed = false ∧
    (0x00001 : Pixel).extractLsb' 9 9 ≠ ~~~((0x00001 : Pixel).extractLsb' 0 9) ∧
    red.extractLsb' 9 9 = ~~~(red.extractLsb' 0 9) := by decide

theorem witness_FbGetFlatReadsCell : busesFit cfgA {} ∧ 3 < (initOf cfgA).cfg.n ∧
    (initOf cfgA).cfg.n ≤ 4 ∧ 1 < (initOf cfgA).cfg.w ∧ 1 < (initOf cfgA).cfg.h :=
  ⟨buses_zero, by decide⟩

theorem witness_FbSetFlatWritesCell : busesFit cfgA {} ∧ (initOf cfgA).cfg.n ≤ 4 ∧
    3 < (initOf cfgA).cfg.n ∧
    (0x3F000 : Pixel).extractLsb' 9 9 ≠ ~~~((0x3F000 : Pixel).extractLsb' 0 9) ∧
    green.extractLsb' 9 9 = ~~~(green.extractLsb' 0 9) := ⟨buses_zero, by decide⟩

theorem witness_SetThenGet : (initOf cfgA).armed = false ∧ 1 < (initOf cfgA).cfg.w ∧
    1 < (initOf cfgA).cfg.h ∧ blue.extractLsb' 9 9 = ~~~(blue.extractLsb' 0 9) ∧
    (0 < (initOf cfgA).cfg.w ∧ 1 < (initOf cfgA).cfg.h ∧ ¬(0 = 1 ∧ 1 = 1)) ∧
    3 < (initOf cfgA).cfg.n := by decide

theorem witness_InternalIndexOutOfRange :
    (let s := { runAt cfgA 5 with cur := 0, widx := 3 };
      s.line ≠ s.cfg.v ∧ s.cur < s.cfg.n ∧ 1 ≤ s.cfg.chunk ∧ s.cfg.p ≤ s.widx) ∧
    (let s := { runAt cfgA 2 with row := 2 };
      s.vact = true ∧ s.cfg.bandTop ≤ s.line ∧ s.line < s.cfg.bandBot ∧ s.cfg.h ≤ s.row) := by decide

theorem witness_BackPorchEvent :
    (runAt cfgA 2).line + 1 < cfgA.v ∧
    (cfgA.v ≤ (runAt cfgA 7).line + 1 ∧ (runAt cfgA 7).line + 1 = cfgA.t) ∧
    (cfgA.v ≤ (runAt cfgA 3).line + 1 ∧ (runAt cfgA 3).line + 1 ≠ cfgA.t) := by decide

theorem witness_RowMapping : (runAt cfgA 2).cfg.valid = true ∧
    (perform .evBp (runAt cfgA 2)).line < (perform .evBp (runAt cfgA 2)).cfg.v ∧
    (perform .evBp (runAt cfgA 2)).row = 1 := by decide

theorem witness_VsyncOnMarkerLines : (runAt cfgA 4).cfg.valid = true ∧
    (runAt cfgA 4).line < (runAt cfgA 4).cfg.t ∧ vsyncOnMarkers (runAt cfgA 4) := by
  unfold vsyncOnMarkers; decide

theorem witness_ActiveDrawEvent :
    (runAt cfgA 4).vact = false ∧
    ((runAt cfgA 2).vact = true ∧ cfgA.bandTop ≤ (runAt cfgA 2).line ∧
      (runAt cfgA 2).line < cfgA.bandBot ∧ (runAt cfgA 2).row < cfgA.h) ∧
    ((runAt cfgA 3).vact = true ∧
      ¬(cfgA.bandTop ≤ (runAt cfgA 3).line ∧ (runAt cfgA 3).line < cfgA.bandBot)) := by decide

theorem witness_InteriorLineReadout : InRange (runAt cfgA 2) ∧ (runAt cfgA 2).vact = true ∧
    (runAt cfgA 2).cfg.bandTop ≤ (runAt cfgA 2).line ∧
    (runAt cfgA 2).line < (runAt cfgA 2).cfg.bandBot ∧ 1 < (runAt cfgA 2).cfg.w :=
  ⟨inRange_runA 2 (by decide), by decide⟩

theorem witness_BorderLine : (runAt cfgA 0).vact = true ∧
    ¬((runAt cfgA 0).cfg.bandTop ≤ (runAt cfgA 0).line ∧
      (runAt cfgA 0).line < (runAt cfgA 0).cfg.bandBot) := by decide

theorem witness_LineSequencing : (initOf cfgA).cfg.valid = true ∧ (initOf cfgA).line = 0 ∧
    1 ≤ 7 ∧ 7 ≤ (initOf cfgA).cfg.t - 1 := by decide

theorem witness_SchedulerStep :
    ((runAt cfgA 4).line = cfgA.v ∧ (runAt cfgA 4).holdCnt + 1 < cfgA.hold) ∧
    (let s := { runAt cfgA 4 with holdCnt := 1, widx := 2 };
      s.line = s.cfg.v ∧ s.cfg.hold ≤ s.holdCnt + 1 ∧
        s.cfg.palette[(s.widx + 1) % s.cfg.p]? = some 0x007) ∧
    (let s := { runAt cfgA 5 with cur := 3 };
      s.line ≠ s.cfg.v ∧ s.cur < s.cfg.n ∧ s.cfg.palette[s.widx]? = some 0x007) ∧
    ((runAt cfgA 5).line ≠ cfgA.v ∧ cfgA.n ≤ (runAt cfgA 5).cur) := by decide

theorem witness_BoundedWork :
    Memory.read (perform .schedStep { runAt cfgA 4 with holdCnt := 1 }).fb 1 ≠
      Memory.read (runAt cfgA 4).fb 1 := by decide

/-- On the last visible line with the hold about to elapse. -/
def beforeRewrite (c : Params) : State := { runAt c (c.v - 1) with holdCnt := c.hold - 1 }

theorem witness_RewriteCompletes : (beforeRewrite cfgA).cfg.valid = true ∧
    InRange (beforeRewrite cfgA) ∧ (beforeRewrite cfgA).line = (beforeRewrite cfgA).cfg.v - 1 ∧
    (beforeRewrite cfgA).holdCnt + 1 = (beforeRewrite cfgA).cfg.hold ∧
    1 ≤ 4 ∧ 4 ≤ (beforeRewrite cfgA).cfg.t - (beforeRewrite cfgA).cfg.v := by
  refine ⟨by decide, ?_, by decide⟩
  exact { admitted := by decide, line_lt := by decide, vact_eq := rfl, row_eq := fun _ => rfl,
          widx_lt := by decide, hold_lt := by decide, cur_le := by decide, fb_ok := by decide,
          busy_ok := rfl }

theorem witness_CyclicalLaw : Config.reference.valid = true := by decide

theorem inRange_beforeRewriteB : InRange (beforeRewrite cfgB) :=
  { admitted := by decide, line_lt := by decide, vact_eq := rfl, row_eq := fun _ => rfl,
    widx_lt := by decide, hold_lt := by decide, cur_le := by decide, fb_ok := by decide,
    busy_ok := rfl }

theorem inRange_initB : InRange (initOf cfgB) :=
  { admitted := by decide, line_lt := by decide, vact_eq := rfl, row_eq := fun _ => rfl,
    widx_lt := by decide, hold_lt := by decide, cur_le := by decide, fb_ok := by decide,
    busy_ok := rfl }

/-- Config B tears: `CHUNK * (T - V) = 3 < N = 4`, and cell 3 is the one never repainted. -/
theorem witness_TearingBoundary :
    (InRange (beforeRewrite cfgB) ∧ (beforeRewrite cfgB).line = (beforeRewrite cfgB).cfg.v - 1 ∧
      (beforeRewrite cfgB).holdCnt + 1 = (beforeRewrite cfgB).cfg.hold ∧
      cfgB.chunk * (cfgB.t - cfgB.v) < cfgB.n) ∧
    (InRange (initOf cfgB) ∧ (initOf cfgB).line = 0 ∧ (initOf cfgB).cfg.hold = 1 ∧
      cfgB.chunk * (cfgB.t - cfgB.v) ≤ 3 ∧ 3 < cfgB.n) :=
  ⟨⟨inRange_beforeRewriteB, by decide⟩, inRange_initB, by decide⟩

theorem witness_WriterAndReaderDisjoint : InRange (beforeRewrite cfgB) ∧
    Memory.read (perform .evBp (beforeRewrite cfgB)).fb 0 ≠ Memory.read (beforeRewrite cfgB).fb 0 :=
  ⟨inRange_beforeRewriteB, by decide⟩

theorem witness_OutColorDrivesLines : red.extractLsb' 9 9 = ~~~(red.extractLsb' 0 9) := by decide

theorem witness_OutSyncDrivesLine : ({} : Operands).s = 0 ∧ ({ s := 1 } : Operands).s = 1 := by decide

theorem witness_OutputStability :
    ((∀ k, Instr.pad 65535 ≠ eventInstr k) ∧ (∃ k, Instr.pad 65535 = .pad k)) ∧
    ((∀ k, Instr.schedStep ≠ eventInstr k) ∧ isOutput .schedStep = false) ∧
    ((initOf cfgA).cfg.admitted = true ∧ notReset (initOf cfgA) ∧ (initOf cfgA).armed = false ∧
      (initOf cfgA).busy = none) := by
  refine ⟨⟨fun k => by cases k <;> exact fun h => Instr.noConfusion h, 65535, rfl⟩,
    ⟨fun k => by cases k <;> exact fun h => Instr.noConfusion h, rfl⟩, by decide, rfl, rfl, rfl⟩

theorem witness_SameTraceSameOutputs : SameOutputs (runAt cfgA 2) (runAt cfgA 1) ∧
    (perform (eventInstr .ad) (runAt cfgA 2)).trace = (perform (eventInstr .ad) (runAt cfgA 1)).trace :=
  ⟨⟨rfl, rfl, rfl⟩, by decide⟩

theorem witness_HostArmStartsTimer : (initOf cfgA).armed = false ∧ (runAt cfgA 0).armed = true := by
  decide

theorem witness_HostWritesRefusedInRun : (runAt cfgA 0).armed = true ∧
    (∃ x y v, Instr.fbSet 0 0 red = .fbSet x y v) ∧ (∃ x y, Instr.fbGet 2 0 = .fbGet x y) :=
  ⟨rfl, ⟨0, 0, red, rfl⟩, 2, 0, rfl⟩

theorem witness_IllegalHostCodes :
    (0x25 : BitVec 8) ∉ ([0x20, 0x21, 0x23, 0x24, 0x40, 0x50, 0x51] : List (BitVec 8)) ∧
    (0x60 : BitVec 8) ∉ ([0x20, 0x21, 0x23, 0x24, 0x40, 0x50, 0x51] : List (BitVec 8)) ∧
    (runAt cfgA 0).armed = true ∧ (0x50 : BitVec 8) ∈ ([0x21, 0x23, 0x50] : List (BitVec 8)) := by
  decide

/-- The block with `RST` held in this cycle. -/
def resetNow (s : State) : State := { s with inputs := [{ rst := true }] }

theorem witness_FaultIsSticky :
    ((initOf cfgA).cfg.admitted = true ∧ notReset (initOf cfgA)) ∧
    ((resetNow (initOf cfgA)).cfg.admitted = true ∧
      (currentInput (resetNow (initOf cfgA))).rst = true) := ⟨⟨by decide, rfl⟩, by decide, rfl⟩

theorem witness_EventsRaiseNoFault : InRange (runAt cfgA 3) := inRange_runA 3 (by decide)

theorem witness_ResetCycle :
    ((resetNow (busyAt cfgA 10 3 [])).cfg.admitted = true ∧
      (currentInput (resetNow (busyAt cfgA 10 3 []))).rst = true ∧
      (resetNow (busyAt cfgA 10 3 [])).busy.isSome = true) ∧
    (resetNow (initOf cfgA)).busy = none ∧
    ((initOf cfgA).cfg.admitted = true ∧ notReset (initOf cfgA) ∧ (initOf cfgA).armed = false ∧
      (initOf cfgA).busy = none) :=
  ⟨⟨by decide, rfl, rfl⟩, rfl, by decide, rfl, rfl, rfl⟩

/-- `HOST_ARM` waits at the port of a block in INIT mode: the next cycle enters RUN. -/
theorem witness_ResetCycle_arms :
    (afterStep { initOf cfgA with request := some { op := 0x50 } }).armed = true := by decide

theorem witness_BootSequence : cfgA.valid = true := by decide

/-- A prefix that ends in INIT mode, one after which `EV_BP` is due, and one that has just armed. -/
theorem witness_StimulusPrograms :
    (∃ t, runProgram .fp [.host { op := 0x50 }, .event .ss, .host { op := 0x51 }] (initOf cfgA) =
      .next t ∧ t.armed = false) ∧
    (let p : List Stim := [.host { op := 0x50 }, .event .ss, .host { op := 0x20 }];
      (∃ t, runProgram .fp p (initOf cfgA) = .next t ∧ t.armed = true) ∧
      Phase.ad ≠ dueAfter .fp p (initOf cfgA) ∧ Phase.bp = dueAfter .fp p (initOf cfgA)) ∧
    (∃ t u, runProgram .fp [] (initOf cfgA) = .next t ∧ hostPerform { op := 0x50 } t = .next u ∧
      t.armed = false ∧ u.armed = true) ∧
    ((initOf cfgA).cfg.admitted = true ∧ (initOf cfgA).armed = false) :=
  ⟨⟨_, rfl, rfl⟩, ⟨⟨_, rfl, rfl⟩, by decide, by decide⟩, ⟨_, _, rfl, rfl, rfl, rfl⟩, by decide⟩

theorem witness_ResetMeetsInvariants : cfgC.valid = true := by decide

/-- A configuration whose event offsets are not in order is refused by name. -/
theorem witness_StepAnswers : (initOf cfgA).cfg.valid = true ∧
    step (initOf { cfgA with offBp := 0 }) = .refused (.configuration .v1) := ⟨by decide, rfl⟩

/-- A dispatch after the entry latency, and one in the cycle of the match with a request waiting. -/
theorem witness_StepStartsEvent :
    ((entryAt .bp 4 9).cfg.admitted = true ∧ notReset (entryAt .bp 4 9) ∧
      (entryAt .bp 4 9).armed = true ∧ (entryAt .bp 4 9).busy = none ∧
      (entryAt .bp 4 9).pend = ⟨.bp, 0⟩ :: [] ∧
      (afterCompare (entryAt .bp 4 9)).pend = ⟨.bp, 0⟩ :: []) ∧
    (let s := asking (matchAt cfgZ .ad 1);
      s.cfg.admitted = true ∧ notReset s ∧ s.armed = true ∧ s.busy = none ∧ s.pend = [] ∧
      s.tcnt = s.cfg.off .ad ∧ (afterCompare s).pend = ⟨.ad, 0⟩ :: []) :=
  ⟨⟨by decide, rfl, rfl, rfl, rfl, rfl⟩, by decide, rfl, rfl, rfl, rfl, rfl, rfl⟩

/-- A request served in a quiet cycle and in a match cycle without a dispatch; one that waits for a
running handler, for a dispatch, and for a dispatch in the cycle of its match. -/
theorem witness_StepServesHost :
    (∀ tcnt ∈ [5, 24],
      let s := { runAt cfgA 1 with tcnt := tcnt, request := some { op := 0x24, i := 3 } };
      s.cfg.admitted = true ∧ notReset s ∧ s.busy = none ∧ ¬dispatches s ∧
      (afterInput s).request = some { op := 0x24, i := 3 } ∧
      decode s.cfg 0x24 (hostOperands { op := 0x24, i := 3 }) = .ok (.fbGetFlat 3) ∧
      issuer (.fbGetFlat 3) = .host) ∧
    (InRange (busyAt cfgA 10 3 []) ∧ notReset (busyAt cfgA 10 3 []) ∧
      (busyAt cfgA 10 3 []).busy ≠ none) ∧
    (InRange (entryAt .bp 4 9) ∧ notReset (entryAt .bp 4 9) ∧ dispatches (entryAt .bp 4 9)) ∧
    (InRange (asking (matchAt cfgZ .ad 1)) ∧ notReset (asking (matchAt cfgZ .ad 1)) ∧
      dispatches (asking (matchAt cfgZ .ad 1))) := by
  refine ⟨fun tcnt ht => ?_, ⟨inRange_busyA 10 3, rfl, fun h => by cases h⟩,
    ⟨inRange_entry .bp 4 9 (by decide), rfl, rfl, rfl, .bp, [], rfl⟩,
    inRange_asking (inRange_matchZ .ad 1 (by decide)), rfl, rfl, rfl, .ad, [], rfl⟩
  simp only [List.mem_cons, List.not_mem_nil, or_false] at ht
  rcases ht with rfl | rfl
  · refine ⟨by decide, rfl, rfl, ?_, rfl, rfl, rfl⟩
    rintro ⟨-, -, k, rest, h⟩
    cases h
  · refine ⟨by decide, rfl, rfl, ?_, rfl, rfl, rfl⟩
    rintro ⟨-, -, k, rest, h⟩
    cases h

/-- An operation due in the middle of a run, and the last one of a run, in a match cycle too. -/
theorem witness_StepPerformsInternal :
    (let s := busyAt cfgA 10 5 [⟨0, .outSyncSet .horizontal⟩, ⟨1, .outSyncClr .vertical⟩];
      s.cfg.admitted = true ∧ notReset s ∧
      s.busy = some { phase := .bp, left := 5,
                      todo := ⟨0, .outSyncSet .horizontal⟩ :: [⟨1, .outSyncClr .vertical⟩],
                      fbBefore := (initOf cfgA).fb } ∧
      2 ≤ 5 ∧ hasFault (afterCompare s).fault .budget = false ∧
      ∀ e ∈ ([⟨1, .outSyncClr .vertical⟩] : List Timed).head?, e.wait ≠ 0) ∧
    (∀ tcnt, let s := busyAt cfgA tcnt 1 [⟨0, .schedStep⟩];
      s.cfg.admitted = true ∧ notReset s ∧
      s.busy = some { phase := .bp, left := 1, todo := [⟨0, .schedStep⟩],
                      fbBefore := (initOf cfgA).fb }) := by
  refine ⟨⟨by decide, rfl, rfl, by decide, by decide, ?_⟩, fun _ => ⟨admitted_of_valid valid_A, rfl, rfl⟩⟩
  intro e he
  cases he
  decide

theorem witness_TimerCounts :
    (InRange (runAt cfgA 1) ∧ notReset (runAt cfgA 1) ∧ (runAt cfgA 1).armed = true ∧
      (afterStep (runAt cfgA 1)).armed = true) ∧
    ((afterStep (initOf cfgA)).armed = false ∧
      (afterStep { initOf cfgA with request := some { op := 0x50 } }).armed = true) :=
  ⟨⟨inRange_runA 1 (by decide), rfl, rfl, rfl⟩, by decide⟩

/-- The compare under a configuration that breaks V9, for a source that is not pending and one that is,
with and without a running handler; and the step under config A. -/
theorem witness_MatchWhileBusy :
    (cfgLate.admitted = false ∧ (busyAt cfgLate 24 5 []).armed = true ∧
      (∀ k', (busyAt cfgLate 24 5 []).tcnt = (busyAt cfgLate 24 5 []).cfg.off k' ↔ k' = .ad) ∧
      Phase.ad ∉ (busyAt cfgLate 24 5 []).pend.map (fun e => e.event) ∧
      Phase.ad ∈ ({ matchAt cfgLate .ad 1 with pend := [⟨.ad, 0⟩] } : State).pend.map
        (fun e => e.event)) ∧
    (let s := busyAt cfgA 24 5 [];
      InRange s ∧ notReset s ∧ s.armed = true ∧ s.tcnt = s.cfg.off .ad ∧
      s.busy = some { phase := .bp, left := 5, todo := [], fbBefore := (initOf cfgA).fb } ∧
      Phase.ad ∉ s.pend.map (fun e => e.event)) ∧
    (let s := { busyAt cfgA 24 5 [] with pend := [⟨.ad, 0⟩] };
      InRange s ∧ notReset s ∧ s.tcnt = s.cfg.off .ad ∧
      Phase.ad ∈ s.pend.map (fun e => e.event)) := by
  refine ⟨⟨by decide, rfl, fun k' => ?_, by decide, by decide⟩,
    ⟨inRange_busyA 24 5, rfl, rfl, rfl, rfl, by decide⟩, ?_, rfl, rfl, by decide⟩
  · cases k' <;> decide
  · exact inRange_bootedA (.inl rfl) (by decide) rfl rfl rfl rfl rfl rfl (busyOk_A 5)

theorem witness_IdleCycle :
    (let s := { runAt cfgA 1 with tcnt := 5 };
      s.cfg.admitted = true ∧ notReset s ∧ noMatch s ∧ s.busy = none ∧
      (s.armed = true → ∀ k rest, s.pend ≠ ⟨k, 0⟩ :: rest) ∧ (afterInput s).request = none) := by
  refine ⟨by decide, rfl, fun _ k => by cases k <;> decide, rfl, fun _ k rest h => ?_, rfl⟩
  cases h

/-- A drawing handler that starts after its entry latency, and one that starts at its match. -/
theorem witness_BusyTimeBounds :
    ((entryAt .ad 1 25).cfg.valid = true ∧ InRange (entryAt .ad 1 25) ∧
      cfgA.durMin .ad ≤ cfgA.durMax .ad ∧ notReset (entryAt .ad 1 25) ∧
      (entryAt .ad 1 25).armed = true ∧ (entryAt .ad 1 25).busy = none ∧
      (afterCompare (entryAt .ad 1 25)).pend = ⟨.ad, 0⟩ :: [] ∧ (entryAt .ad 1 25).vact = true) ∧
    ((matchAt cfgZ .ad 1).cfg.valid = true ∧ InRange (matchAt cfgZ .ad 1) ∧ notReset (matchAt cfgZ .ad 1) ∧
      (matchAt cfgZ .ad 1).armed = true ∧ (matchAt cfgZ .ad 1).busy = none ∧
      (afterCompare (matchAt cfgZ .ad 1)).pend = ⟨.ad, 0⟩ :: []) :=
  ⟨⟨by decide, inRange_entry .ad 1 25 (by decide), by decide, rfl, rfl, rfl, rfl, rfl⟩,
    by decide, inRange_matchZ .ad 1 (by decide), rfl, rfl, rfl, rfl⟩

theorem witness_RangesKept : InRange (runAt cfgA 7) := inRange_runA 7 (by decide)

theorem witness_CellsStayEncoded : InRange (runAt cfgA 7) ∧ CellsEncoded (runAt cfgA 7) :=
  ⟨inRange_runA 7 (by decide), cellsEncoded_runA 7⟩

theorem witness_BudgetsKept :
    (entryAt .bp 4 9).cfg.valid = true ∧ positiveBudgets (entryAt .bp 4 9).cfg ∧
    InRange (entryAt .bp 4 9) ∧ TimerInRange (entryAt .bp 4 9) ∧ OnTime (entryAt .bp 4 9) ∧
    notReset (entryAt .bp 4 9) :=
  ⟨by decide, positiveBudgets_A, inRange_entry .bp 4 9 (by decide),
    timerInRange_entry .bp 4 9 (by decide), onTime_entry.2.1, rfl⟩

/-- The block on time at a match, which the first part of `BudgetsKept` is about. -/
theorem witness_BudgetsKept_match :
    (let s := { runAt cfgA 1 with tcnt := 24 };
      s.armed = true ∧ s.tcnt = s.cfg.off .ad ∧ OnTime s) := ⟨rfl, rfl, trivial⟩

/-- The match of an idle block with requests at the port, with and without an entry latency. -/
theorem witness_HandlerStartCycle (c : Params) (hc : c = cfgA ∨ c = cfgZ) :
    (asking (matchAt c .ad 1)).cfg.valid = true ∧ (asking (matchAt c .ad 1)).armed = true ∧
    (asking (matchAt c .ad 1)).tcnt = (asking (matchAt c .ad 1)).cfg.off .ad ∧
    (asking (matchAt c .ad 1)).busy = none ∧ (asking (matchAt c .ad 1)).pend = [] ∧
    noReset (asking (matchAt c .ad 1)) ∧ noRequest 0x51 (asking (matchAt c .ad 1)) ∧
    1 ≤ (asking (matchAt c .ad 1)).cfg.durMax .ad := by
  refine ⟨?_, rfl, ?_, rfl, rfl, noReset_asking _, noRequest_asking _ (by decide), ?_⟩ <;>
  rcases hc with rfl | rfl <;> decide

theorem offs_A {tcnt : Nat} (h : tcnt ∈ [1, 9, 25, 49]) : ∀ k, tcnt ≠ cfgA.off k := by
  intro k
  simp only [List.mem_cons, List.not_mem_nil, or_false] at h
  rcases h with rfl | rfl | rfl | rfl <;> cases k <;> decide

/-- The premises of `HandlerRunMatchesEvent`, with requests at the port: the start of the handler after
its entry latency, and in the cycle of its match. -/
theorem witness_HandlerRunMatchesEvent :
    (let s := asking (entryAt .bp 4 9);
      s.cfg.valid = true ∧ positiveBudgets s.cfg ∧ InRange s ∧ TimerInRange s ∧ OnTime s ∧
      hasFault s.fault .budget = false ∧ atEntry .bp s ∧ noReset s) ∧
    (let s := asking (matchAt cfgZ .ad 1);
      s.cfg.valid = true ∧ positiveBudgets s.cfg ∧ InRange s ∧ TimerInRange s ∧ OnTime s ∧
      hasFault s.fault .budget = false ∧ atEntry .ad s ∧ noReset s) :=
  ⟨⟨by decide, positiveBudgets_A, inRange_asking (inRange_entry .bp 4 9 (by decide)),
      timerInRange_asking (timerInRange_entry .bp 4 9 (by decide)), onTime_entry.2.1, by decide,
      atEntry_asking 4 9 (offs_A (by decide)) .bp, noReset_asking _⟩,
    by decide, positiveBudgets_Z, inRange_asking (inRange_matchZ .ad 1 (by decide)),
    timerInRange_asking (timerInRange_matchZ .ad 1), trivial, by decide, atEntry_matchZ .ad 1,
    noReset_asking _⟩

/-- An interior line after the entry latency, the same with `ENTRY_LAT = 0`, a border line, and a line
with video inactive. -/
theorem witness_ActiveDrawWaveform :
    (∀ line < 8, let s := asking (entryAt .ad line 25);
      s.cfg.valid = true ∧ positiveBudgets s.cfg ∧ InRange s ∧ CellsEncoded s ∧ TimerInRange s ∧
      OnTime s ∧ hasFault s.fault .budget = false ∧ atEntry .ad s ∧ noReset s ∧ notRestarted s ∧
      21 < s.cfg.durMaxAd) ∧
    (let s := asking (matchAt cfgZ .ad 1);
      s.cfg.valid = true ∧ positiveBudgets s.cfg ∧ InRange s ∧ CellsEncoded s ∧ TimerInRange s ∧
      OnTime s ∧ hasFault s.fault .budget = false ∧ atEntry .ad s ∧ noReset s ∧ notRestarted s ∧
      21 < s.cfg.durMaxAd) ∧
    ((entryAt .ad 1 25).vact = true ∧ (entryAt .ad 3 25).vact = true ∧
      (entryAt .ad 4 25).vact = false) :=
  ⟨fun line h => ⟨valid_A, positiveBudgets_A, inRange_asking (inRange_entry .ad line 25 h),
      cellsEncoded_asking (cellsEncoded_entry .ad line 25),
      timerInRange_asking (timerInRange_entry .ad line 25 (by decide)), onTime_entry.2.2.1,
      clean_budget, atEntry_asking line 25 (offs_A (by decide)) .ad, noReset_asking _,
      notRestarted_asking _, show 21 < cfgA.durMaxAd by decide⟩,
    ⟨by decide, positiveBudgets_Z, inRange_asking (inRange_matchZ .ad 1 (by decide)),
      cellsEncoded_asking (cellsEncoded_matchZ .ad 1), timerInRange_asking (timerInRange_matchZ .ad 1),
      trivial, by decide, atEntry_matchZ .ad 1, noReset_asking _, notRestarted_asking _, by decide⟩,
    rfl, rfl, rfl⟩

/-- Each sync handler after its entry latency, and each handler with `ENTRY_LAT = 0`. -/
theorem witness_SyncAndBlankTiming :
    (∀ k line tcnt, (k, line, tcnt) ∈ [(Phase.ss, 1, 1), (.bp, 4, 9), (.bp, 5, 9), (.fp, 1, 49)] →
      let s := asking (entryAt k line tcnt)
      s.cfg.valid = true ∧ positiveBudgets s.cfg ∧ InRange s ∧ TimerInRange s ∧ OnTime s ∧
      hasFault s.fault .budget = false ∧ atEntry k s ∧ noReset s ∧ notRestarted s ∧
      5 < s.cfg.durMax k) ∧
    (∀ k, let s := asking (matchAt cfgZ k 4)
      s.cfg.valid = true ∧ positiveBudgets s.cfg ∧ InRange s ∧ TimerInRange s ∧ OnTime s ∧
      hasFault s.fault .budget = false ∧ atEntry k s ∧ noReset s ∧ notRestarted s ∧
      5 < s.cfg.durMax k) ∧
    cfgA.latSs < cfgA.durMaxSs ∧ cfgA.latBp ≤ cfgA.latBpv ∧ cfgA.latBpv < cfgA.durMaxBp ∧
    cfgA.latFp < cfgA.durMaxFp ∧ (entryAt .bp 4 9).line + 1 = cfgA.vsOn ∧
    (entryAt .bp 5 9).line + 1 = cfgA.vsOff := by
  refine ⟨fun k line tcnt h => ?_, fun k => ⟨valid_Z, positiveBudgets_Z,
    inRange_asking (inRange_matchZ k 4 (by decide)), timerInRange_asking (timerInRange_matchZ k 4),
    trivial, clean_budget, atEntry_matchZ k 4, noReset_asking _, notRestarted_asking _, ?_⟩, by decide⟩
  swap
  · show 5 < cfgZ.durMax k
    cases k <;> decide
  have premises : ∀ (k : Phase) (line tcnt : Nat), line < 8 → tcnt ∈ [1, 9, 25, 49] →
      OnTime (entryAt k line tcnt) →
      let s := asking (entryAt k line tcnt)
      InRange s ∧ TimerInRange s ∧ OnTime s ∧ atEntry k s ∧ noReset s ∧ notRestarted s :=
    fun k line tcnt hl ht ho =>
      ⟨inRange_asking (inRange_entry k line tcnt hl),
        timerInRange_asking (timerInRange_entry k line tcnt
          (by simp only [List.mem_cons, List.not_mem_nil, or_false] at ht; omega)),
        ho, atEntry_asking line tcnt (offs_A ht) k, noReset_asking _, notRestarted_asking _⟩
  simp only [List.mem_cons, List.not_mem_nil, or_false, Prod.mk.injEq] at h
  rcases h with ⟨rfl, rfl, rfl⟩ | ⟨rfl, rfl, rfl⟩ | ⟨rfl, rfl, rfl⟩ | ⟨rfl, rfl, rfl⟩
  · obtain ⟨a, b, c, d, e, f⟩ := premises .ss 1 1 (by decide) (by decide) onTime_entry.1
    exact ⟨by decide, positiveBudgets_A, a, b, c, by decide, d, e, f, by decide⟩
  · obtain ⟨a, b, c, d, e, f⟩ := premises .bp 4 9 (by decide) (by decide) onTime_entry.2.1
    exact ⟨by decide, positiveBudgets_A, a, b, c, by decide, d, e, f, by decide⟩
  · obtain ⟨a, b, c, d, e, f⟩ := premises .bp 5 9 (by decide) (by decide) onTime_entry.2.1
    exact ⟨by decide, positiveBudgets_A, a, b, c, by decide, d, e, f, by decide⟩
  · obtain ⟨a, b, c, d, e, f⟩ := premises .fp 1 49 (by decide) (by decide) onTime_entry.2.2.2
    exact ⟨by decide, positiveBudgets_A, a, b, c, by decide, d, e, f, by decide⟩

end Sys2Proof.Tests
end

section
/-! PROOFS. When a step answers a next state, and by which name it is refused otherwise (00_scope R7,
60_exceptions R148). -/

namespace Sys2Proof.Machine

/-- The conditions that are refused are all but V3 (log 15). -/
theorem mem_refusedChecks_iff (k : ConfigCheck) : k ∈ Params.refusedChecks ↔ k ≠ .v3 := by
  cases k <;> decide

theorem admitted_iff_holds (c : Params) :
    c.admitted = true ↔ ∀ k, k ≠ .v3 → c.holds k = true := by
  simp only [Params.admitted, List.all_eq_true, mem_refusedChecks_iff]

theorem holds_of_refusedBy {c : Params} {k : ConfigCheck} (h : c.refusedBy = some k) :
    c.holds k = false := by
  simpa using List.find?_some h

theorem step_of_refusedBy {s : State} {k : ConfigCheck} (h : s.cfg.refusedBy = some k) :
    step s = .refused (.configuration k) := by
  simp only [step, h]

/-- Under an admitted configuration a step is total, with and without reset: neither a cycle of the
block nor a reset cycle ends in a fault or a refusal. -/
theorem step_next_of_admitted {s : State} (ha : s.cfg.admitted = true) : ∃ t, step s = .next t := by
  by_cases hr : notReset s
  · obtain ⟨_, _, _, u, _, _, hstep⟩ := step_cases ha hr
    exact ⟨clockEdge s.armed u, hstep⟩
  · have hrst : (currentInput s).rst = true := by simpa [notReset] using hr
    exact ⟨_, (step_of_admitted ha).trans (cycle_of_reset hrst)⟩

/-- A step either runs under an admitted configuration or is refused by a condition that fails. -/
theorem step_next_or_refused (s : State) :
    (s.cfg.admitted = true ∧ ∃ t, step s = .next t) ∨
    (∃ k, s.cfg.holds k = false ∧ step s = .refused (.configuration k)) := by
  rcases hk : s.cfg.refusedBy with _ | k
  · have ha := (refusedBy_eq_none_iff s.cfg).mp hk
    exact .inl ⟨ha, step_next_of_admitted ha⟩
  · exact .inr ⟨k, holds_of_refusedBy hk, step_of_refusedBy hk⟩

theorem step_next_iff_admitted (s : State) : (∃ t, step s = .next t) ↔ s.cfg.admitted = true := by
  refine ⟨fun ⟨t, ht⟩ => ?_, step_next_of_admitted⟩
  obtain ⟨ha, _⟩ | ⟨k, _, hrefused⟩ := step_next_or_refused s
  · exact ha
  · rw [hrefused] at ht
    cases ht

/-- Settles O46: a step is total under an admitted configuration, and `refusedBy` names a condition
that fails under any other. -/
theorem stepAnswers : Obligations.StepAnswers := by
  intro s
  refine ⟨(step_next_iff_admitted s).trans (admitted_iff_holds s.cfg),
    fun hv => step_next_of_admitted (admitted_of_valid hv), fun hn => ?_⟩
  exact (step_next_or_refused s).resolve_left fun h => hn h.2

end Sys2Proof.Machine
end

section
/-! PROOFS. What every operation and every clock cycle keeps: the sticky bits of `FAULT`, the ranges of
10_state R42 and the encoded cells of 20_memory R49; and that the state after reset meets them. -/

namespace Sys2Proof.Machine

/-! ### Sticky bits and painted buffers -/

/-- Every bit set in `w` is set in `w'` (10_state R38). -/
def FaultKept (w w' : BitVec 6) : Prop := w &&& w' = w

theorem faultKept_refl (w : BitVec 6) : FaultKept w w := BitVec.and_self

theorem FaultKept.trans {w₁ w₂ w₃ : BitVec 6} (h : FaultKept w₁ w₂) (h' : FaultKept w₂ w₃) :
    FaultKept w₁ w₃ := by
  calc w₁ &&& w₃ = w₁ &&& w₂ &&& w₃ := by rw [h]
    _ = w₁ &&& (w₂ &&& w₃) := BitVec.and_assoc ..
    _ = w₁ := by rw [h', h]

theorem faultKept_setFault (w : BitVec 6) (f : Fault) : FaultKept w (setFault w f) := by
  unfold FaultKept setFault
  ext i
  simp +contextual [Bool.and_or_distrib_left]

/-- Every cell of the buffer holds an encoded word (20_memory R49). -/
def AllEncoded (c : Params) (m : Memory) : Prop :=
  ∀ i, i < c.n → isEncoded (Memory.read m i) = true

/-- One operation's work on the buffer: an encoded word written into a run of cells below `N`, which
may be empty. -/
def Painted (c : Params) (m m' : Memory) : Prop :=
  ∃ v i count, isEncoded v = true ∧ i + count ≤ c.n ∧ m' = Memory.fill v count i m

theorem painted_refl (c : Params) (m : Memory) : Painted c m m :=
  ⟨blankPx, 0, 0, isEncoded_encodePixel 0, Nat.zero_le _, rfl⟩

theorem painted_write {c : Params} {i : Nat} {v : Pixel} (hv : isEncoded v = true) (hi : i < c.n)
    (m : Memory) : Painted c m (Memory.write i v m) :=
  ⟨v, i, 1, hv, hi, rfl⟩

theorem Painted.fbOk {c : Params} {m m' : Memory} (h : Painted c m m') (hm : fbOk c m = true) :
    fbOk c m' = true := by
  obtain ⟨v, i, count, -, hi, rfl⟩ := h
  exact fbOk_fill v count i hm hi

theorem Painted.allEncoded {c : Params} {m m' : Memory} (h : Painted c m m')
    (hm : AllEncoded c m) : AllEncoded c m' := by
  obtain ⟨v, i, count, hv, -, rfl⟩ := h
  intro k hk
  rw [Memory.read_fill]
  split_ifs
  · exact hv
  · exact hm k hk

/-- The cell of coordinates in range is a cell of the buffer (20_memory R46, R48). -/
theorem flatIndex_lt {c : Params} {x y : Nat} (h : inRangeXY c x y = true) :
    flatIndex c x y < c.n := by
  simp only [inRangeXY, Bool.and_eq_true, decide_eq_true_eq] at h
  obtain ⟨hx, hy⟩ := h
  calc y * c.w + x < y * c.w + c.w := Nat.add_lt_add_left hx _
    _ = c.w * (y + 1) := by ring
    _ ≤ c.w * c.h := Nat.mul_le_mul_left _ hy

/-! ### What every operation does -/

/-- What any operation may do to the configuration, `BUSY`, `FAULT` and the cells. -/
structure OpEffect (s t : State) : Prop where
  cfg : t.cfg = s.cfg
  busy : t.busy = s.busy
  fault : FaultKept s.fault t.fault
  fb : Painted s.cfg s.fb t.fb

/-- The effect of an operation that leaves the line counter and the scheduler registers alone. -/
structure KeepsScan (s t : State) : Prop extends OpEffect s t where
  line : t.line = s.line
  vact : t.vact = s.vact
  row : t.row = s.row
  widx : t.widx = s.widx
  holdCnt : t.holdCnt = s.holdCnt
  cur : t.cur = s.cur

theorem keepsScan_refl (s : State) : KeepsScan s s :=
  ⟨⟨rfl, rfl, faultKept_refl _, painted_refl _ _⟩, rfl, rfl, rfl, rfl, rfl, rfl⟩

theorem keepsScan_raiseFault (f : Fault) (s : State) : KeepsScan s (raiseFault f s) :=
  { keepsScan_refl s with fault := faultKept_setFault s.fault f }

theorem keepsScan_respondFault (f : Fault) (s : State) : KeepsScan s (respondFault f s) :=
  { keepsScan_raiseFault f s with }

theorem keepsScan_fbGet (x y : Nat) (s : State) : KeepsScan s (perform (.fbGet x y) s) := by
  change KeepsScan s (if _ then _ else _)
  split_ifs
  · exact { keepsScan_refl s with }
  · exact keepsScan_respondFault _ s

theorem keepsScan_fbSet (x y : Nat) (v : Pixel) (s : State) :
    KeepsScan s (perform (.fbSet x y v) s) := by
  change KeepsScan s (if _ then _ else if _ then _ else if _ then _ else _)
  split_ifs with harmed hxy hv
  · exact keepsScan_respondFault _ s
  · exact keepsScan_respondFault _ s
  · exact keepsScan_respondFault _ s
  · exact { keepsScan_refl s with
      fb := painted_write (by simpa using hv) (flatIndex_lt (by simpa using hxy)) s.fb }

theorem keepsScan_fbRow (y : Nat) (s : State) : KeepsScan s (perform (.fbRow y) s) := by
  change KeepsScan s (rowView y s)
  unfold rowView
  split
  · exact { keepsScan_refl s with }
  · exact { keepsScan_raiseFault .range s with }

theorem keepsScan_fbFill (v : Pixel) (s : State) : KeepsScan s (perform (.fbFill v) s) := by
  change KeepsScan s (if _ then _ else if _ then _ else _)
  split_ifs with harmed hv
  · exact keepsScan_respondFault _ s
  · exact keepsScan_respondFault _ s
  · exact { keepsScan_refl s with
      fb := ⟨v, 0, s.cfg.n, by simpa using hv, by omega, rfl⟩ }

theorem keepsScan_fbGetFlat (i : Nat) (s : State) : KeepsScan s (perform (.fbGetFlat i) s) := by
  change KeepsScan s (if _ then _ else _)
  split_ifs
  · exact { keepsScan_refl s with }
  · exact keepsScan_respondFault _ s

theorem keepsScan_fbSetFlat (i : Nat) (v : Pixel) (s : State) :
    KeepsScan s (perform (.fbSetFlat i v) s) := by
  change KeepsScan s (setFlat i v s)
  unfold setFlat
  split_ifs with hi hv
  · exact keepsScan_raiseFault _ s
  · exact keepsScan_raiseFault _ s
  · exact { keepsScan_refl s with
      fb := painted_write (by simpa using hv) (by simpa [inRangeI] using hi) s.fb }

theorem keepsScan_hostArm (s : State) : KeepsScan s (perform .hostArm s) := by
  change KeepsScan s (if _ then _ else _)
  split_ifs
  · exact keepsScan_respondFault _ s
  · exact { keepsScan_refl s with }

theorem keepsScan_evAd (s : State) : KeepsScan s (perform .evAd s) := by
  change KeepsScan s (activeDraw s)
  rcases activeDraw_cases s with ⟨-, h⟩ | ⟨-, -, -, h⟩ | ⟨-, -, -, h⟩ | ⟨-, -, h⟩ <;> rw [h]
  · exact { keepsScan_refl s with }
  · exact { keepsScan_refl s with }
  · exact { keepsScan_raiseFault .range s with }
  · exact { keepsScan_refl s with }

theorem keepsScan_output {op : Instr} (h : isOutput op = true) (s : State) :
    KeepsScan s (perform op s) := by
  obtain ⟨hs, vs, c, heq⟩ := perform_output h s
  rw [heq]
  exact { keepsScan_refl s with }

/-- Only `EV_BP` and `SCHED_STEP` write the line counter or the scheduler registers. -/
theorem perform_keepsScan {i : Instr} (hbp : i ≠ .evBp) (hsched : i ≠ .schedStep) (s : State) :
    KeepsScan s (perform i s) := by
  cases i with
  | evBp => exact absurd rfl hbp
  | schedStep => exact absurd rfl hsched
  | evSs => exact { keepsScan_refl s with }
  | evAd => exact keepsScan_evAd s
  | evFp => exact { keepsScan_refl s with }
  | fbGet x y => exact keepsScan_fbGet x y s
  | fbSet x y v => exact keepsScan_fbSet x y v s
  | fbRow y => exact keepsScan_fbRow y s
  | fbFill v => exact keepsScan_fbFill v s
  | fbGetFlat i => exact keepsScan_fbGetFlat i s
  | fbSetFlat i v => exact keepsScan_fbSetFlat i v s
  | outColor v => exact keepsScan_output rfl s
  | outSyncSet l => exact keepsScan_output rfl s
  | outSyncClr l => exact keepsScan_output rfl s
  | pad k => exact keepsScan_output rfl s
  | encodeColor f => exact { keepsScan_refl s with }
  | hostArm => exact keepsScan_hostArm s
  | hostDisarm => exact { keepsScan_refl s with }

/-- A chunk is a painting up to its end, or `RANGE` alone (43_scheduler R105, R108). -/
theorem chunkWrite_cases (before s : State) :
    (∃ m, Painted s.cfg s.fb m ∧ chunkWrite before s = { s with fb := m, cur := chunkEnd s }) ∨
      chunkWrite before s = raiseFault .range before := by
  by_cases hc : s.cur < chunkEnd s
  · cases hv : palPx s.cfg s.widx with
    | none => exact .inr (chunkWrite_none hc hv)
    | some v =>
      have hend : chunkEnd s ≤ s.cfg.n := Nat.min_le_right _ _
      exact .inl ⟨_, ⟨v, s.cur, chunkEnd s - s.cur, isEncoded_palPx hv, by omega, rfl⟩,
        chunkWrite_some hc hv⟩
  · exact .inl ⟨s.fb, painted_refl _ _, chunkWrite_empty hc⟩

/-- Everything `SCHED_STEP` can leave: a count on the hold, a new window begun, the window gone on with,
`RANGE` alone, or nothing (43_scheduler R105 to R111). -/
inductive SchedOutcome (s : State) : State → Prop
  | held (h : s.holdCnt + 1 < s.cfg.hold) : SchedOutcome s { s with holdCnt := s.holdCnt + 1 }
  | begun (c : Nat) (m : Memory) (hc : c ≤ s.cfg.n) (hm : Painted s.cfg s.fb m) :
      SchedOutcome s
        { s with holdCnt := 0, widx := (s.widx + 1) % s.cfg.p, cur := c, fb := m }
  | continued (c : Nat) (m : Memory) (hc : c ≤ s.cfg.n) (hm : Painted s.cfg s.fb m) :
      SchedOutcome s { s with cur := c, fb := m }
  | outOfRange : SchedOutcome s (raiseFault .range s)
  | done : SchedOutcome s s

theorem schedStep_outcome (s : State) : SchedOutcome s (schedStep s) := by
  rcases schedStep_cases s with ⟨-, hh, h⟩ | ⟨-, -, h⟩ | ⟨-, -, h⟩ | ⟨-, -, h⟩ <;> rw [h]
  · exact .held hh
  · rcases chunkWrite_cases s
      { s with holdCnt := 0, cur := 0, widx := (s.widx + 1) % s.cfg.p } with ⟨m, hm, h⟩ | h <;> rw [h]
    · exact .begun _ m (Nat.min_le_right _ _) hm
    · exact .outOfRange
  · rcases chunkWrite_cases s s with ⟨m, hm, h⟩ | h <;> rw [h]
    · exact .continued _ m (Nat.min_le_right _ _) hm
    · exact .outOfRange
  · exact .done

theorem SchedOutcome.effect {s t : State} (h : SchedOutcome s t) : OpEffect s t := by
  have hrefl := (keepsScan_refl s).toOpEffect
  cases h with
  | held => exact { hrefl with }
  | begun c m hc hm => exact { hrefl with fb := hm }
  | continued c m hc hm => exact { hrefl with fb := hm }
  | outOfRange => exact (keepsScan_raiseFault .range s).toOpEffect
  | done => exact hrefl

theorem schedStep_effect (s : State) : OpEffect s (schedStep s) := (schedStep_outcome s).effect

theorem backPorch_effect (s : State) : OpEffect s (backPorch s) := by
  rcases backPorch_cases s with ⟨-, h⟩ | ⟨-, -, h⟩ | ⟨-, -, h⟩ <;> rw [h]
  · exact { (keepsScan_refl s).toOpEffect with }
  · exact { (keepsScan_refl s).toOpEffect with }
  · exact { schedStep_effect _ with }

theorem perform_effect (i : Instr) (s : State) : OpEffect s (perform i s) := by
  by_cases hbp : i = .evBp
  · subst hbp
    exact backPorch_effect s
  · by_cases hsched : i = .schedStep
    · subst hsched
      exact schedStep_effect s
    · exact (perform_keepsScan hbp hsched s).toOpEffect

theorem hostPerform_cases (r : HostReq) (s : State) :
    (∃ i, issuer i = .host ∧ hostPerform r s = .next (perform i s)) ∨
      hostPerform r s = .next (respondFault .illegal s) := by
  unfold hostPerform
  split
  · exact .inr rfl
  · next i _ =>
    split_ifs with hi
    · exact .inl ⟨i, hi, exec_eq_perform i s⟩
    · exact .inr rfl

/-- Neither a host operation nor a refused request touches the line counter or the scheduler. -/
theorem hostPerform_keepsScan {r : HostReq} {s t : State} (h : hostPerform r s = .next t) :
    KeepsScan s t := by
  rcases hostPerform_cases r s with ⟨i, hi, hp⟩ | hp <;> cases hp.symm.trans h
  · exact perform_keepsScan (by rintro rfl; cases hi) (by rintro rfl; cases hi) s
  · exact keepsScan_respondFault _ s

/-! ### `FAULT` is sticky -/

theorem performFirst_faultKept (n : Nat) (todo : List Timed) (s : State) :
    FaultKept s.fault (performFirst n todo s).fault := by
  induction n generalizing todo s with
  | zero => exact faultKept_refl _
  | succ n ih =>
    cases todo with
    | nil => exact faultKept_refl _
    | cons e rest => exact (perform_effect e.op s).fault.trans (ih rest _)

theorem performDue_faultKept (todo : List Timed) (s : State) :
    FaultKept s.fault (performDue todo s).fault := by
  induction todo generalizing s with
  | nil => exact faultKept_refl _
  | cons e rest ih =>
    obtain ⟨w, op⟩ := e
    cases w with
    | zero => exact (perform_effect op s).fault.trans (ih _)
    | succ w => exact faultKept_refl _

theorem handlerCycle_faultKept (r : Running) (s : State) :
    FaultKept s.fault (handlerCycle r s).fault := by
  change FaultKept s.fault (handlerOps r s).fault
  unfold handlerOps
  split_ifs
  · exact performFirst_faultKept _ _ s
  · exact performFirst_faultKept _ _ s
  · exact performDue_faultKept _ s

theorem matchSource_faultKept (k : Phase) (s : State) :
    FaultKept s.fault (matchSource k s).fault := by
  have hoverrun := faultKept_setFault s.fault .overrun
  unfold matchSource
  split_ifs
  · exact hoverrun.trans (faultKept_setFault _ .budget)
  · exact hoverrun
  · exact faultKept_setFault _ .budget
  · exact faultKept_refl _

theorem compareSource_faultKept (k : Phase) (s : State) :
    FaultKept s.fault (compareSource k s).fault := by
  unfold compareSource
  split_ifs
  · exact matchSource_faultKept k s
  · exact faultKept_refl _

theorem afterCompare_faultKept (s : State) : FaultKept s.fault (afterCompare s).fault := by
  obtain ⟨q, hq⟩ := afterInput_eq s
  have hinput : (afterInput s).fault = s.fault := by rw [hq]
  rw [← hinput]
  exact (compareSource_faultKept .ss _).trans <| (compareSource_faultKept .bp _).trans <|
    (compareSource_faultKept .ad _).trans (compareSource_faultKept .fp _)

theorem Acts.faultKept {s u : State} (h : Acts s u) : FaultKept s.fault u.fault := by
  cases h with
  | running r hb => exact handlerCycle_faultKept r s
  | dispatched k rest => exact (perform_effect (eventInstr k) { s with pend := rest }).fault
  | served r hb hr hp t ht => exact (hostPerform_keepsScan ht).fault
  | idle => exact faultKept_refl _

/-- A step in a cycle with `RST = 1`. -/
theorem step_of_reset {s : State} (ha : s.cfg.admitted = true) (hr : (currentInput s).rst = true) :
    step s = .next (resetCycle (beginCycle s)) :=
  (step_of_admitted ha).trans (cycle_of_reset hr)

theorem step_faultKept {s : State} (ha : s.cfg.admitted = true) (hr : notReset s) :
    ∃ t, step s = .next t ∧ FaultKept s.fault t.fault := by
  obtain ⟨q, p, f, u, hcompare, hacts, hstep⟩ := step_cases ha hr
  have hf : FaultKept s.fault f := by
    have := afterCompare_faultKept s
    rwa [hcompare] at this
  exact ⟨_, hstep, hf.trans hacts.faultKept⟩

/-- Settles O37: an operation and a cycle without `RST` only raise faults, and reset clears them. -/
theorem faultIsSticky : Obligations.FaultIsSticky :=
  ⟨fun i s => ⟨_, exec_eq_perform i s, (perform_effect i s).fault⟩,
    fun _ ha hr => step_faultKept ha hr,
    fun _ ha hr => ⟨_, step_of_reset ha hr, rfl⟩⟩

/-! ### The ranges of 10_state R42 -/

/-- The part of `InRange` about the line counter and the scheduler registers. -/
structure ScanInRange (s : State) : Prop where
  line_lt : s.line < s.cfg.t
  vact_eq : s.vact = decide (s.line < s.cfg.v)
  row_eq : s.line < s.cfg.v → s.row = s.line / s.cfg.lpr
  widx_lt : s.widx < s.cfg.p
  hold_lt : s.holdCnt < s.cfg.hold
  cur_le : s.cur ≤ s.cfg.n

theorem InRange.scan {s : State} (h : InRange s) : ScanInRange s := { h with }

theorem KeepsScan.scanInRange {s t : State} (e : KeepsScan s t) (h : ScanInRange s) :
    ScanInRange t where
  line_lt := by rw [e.line, e.cfg]; exact h.line_lt
  vact_eq := by rw [e.vact, e.line, e.cfg]; exact h.vact_eq
  row_eq := by rw [e.row, e.line, e.cfg]; exact h.row_eq
  widx_lt := by rw [e.widx, e.cfg]; exact h.widx_lt
  hold_lt := by rw [e.holdCnt, e.cfg]; exact h.hold_lt
  cur_le := by rw [e.cur, e.cfg]; exact h.cur_le

theorem SchedOutcome.scanInRange {s t : State} (hout : SchedOutcome s t) (h : ScanInRange s) :
    ScanInRange t := by
  have hp : 0 < s.cfg.p := Nat.zero_lt_of_lt h.widx_lt
  have hhold : 0 < s.cfg.hold := Nat.zero_lt_of_lt h.hold_lt
  cases hout with
  | held hh => exact { h with hold_lt := hh }
  | begun c m hc hm =>
    exact { h with hold_lt := hhold, widx_lt := Nat.mod_lt _ hp, cur_le := hc }
  | continued c m hc hm => exact { h with cur_le := hc }
  | outOfRange => exact { h with }
  | done => exact h

theorem schedStep_scanInRange {s : State} (h : ScanInRange s) : ScanInRange (schedStep s) :=
  (schedStep_outcome s).scanInRange h

/-- `EV_BP` keeps the line below `T`, and `VACT` and `ROW` in step with it (42_scan_timing R91 to R97):
it drops `VACT` on line `V` and raises it again at the frame end. -/
theorem backPorch_scanInRange {s : State} (ha : Admitted s.cfg) (h : ScanInRange s) :
    ScanInRange (backPorch s) := by
  obtain ⟨hv, hvt⟩ := ha.v2
  have hline := h.line_lt
  rcases backPorch_cases s with ⟨hlt, heq⟩ | ⟨-, -, heq⟩ | ⟨hle, hne, heq⟩ <;> rw [heq]
  · have hvact : s.vact = true := by rw [h.vact_eq]; exact decide_eq_true (by omega)
    exact { h with
      line_lt := hlt.trans hvt
      vact_eq := hvact.trans (decide_eq_true hlt).symm
      row_eq := fun _ => rfl }
  · exact { h with
      line_lt := by change 0 < s.cfg.t; omega
      vact_eq := (decide_eq_true hv).symm
      row_eq := fun _ => (Nat.zero_div _).symm }
  · refine schedStep_scanInRange { h with
      line_lt := by change s.line + 1 < s.cfg.t; omega
      vact_eq := ?_
      row_eq := fun hlt => absurd hlt (Nat.not_lt.mpr hle) }
    change (if s.line + 1 = s.cfg.v then false else s.vact) = decide (s.line + 1 < s.cfg.v)
    rw [h.vact_eq, decide_eq_false (Nat.not_lt.mpr hle)]
    split_ifs with hV
    · rfl
    · exact decide_eq_false (by omega)

theorem perform_scanInRange (i : Instr) {s : State} (ha : Admitted s.cfg) (h : ScanInRange s) :
    ScanInRange (perform i s) := by
  by_cases hbp : i = .evBp
  · subst hbp
    exact backPorch_scanInRange ha h
  · by_cases hsched : i = .schedStep
    · subst hsched
      exact schedStep_scanInRange h
    · exact (perform_keepsScan hbp hsched s).scanInRange h

theorem OpEffect.inRange {s t : State} (e : OpEffect s t) (h : InRange s) (hscan : ScanInRange t) :
    InRange t :=
  { hscan with
    admitted := by rw [e.cfg]; exact h.admitted
    fb_ok := by rw [e.cfg]; exact e.fb.fbOk h.fb_ok
    busy_ok := by rw [e.cfg, e.busy]; exact h.busy_ok }

/-- Every operation keeps the ranges, whoever issues it. -/
theorem perform_inRange (i : Instr) {s : State} (h : InRange s) : InRange (perform i s) :=
  (perform_effect i s).inRange h (perform_scanInRange i (admitted_facts h.admitted) h.scan)

theorem hostPerform_inRange {r : HostReq} {s t : State} (ht : hostPerform r s = .next t)
    (h : InRange s) : InRange t :=
  have e := hostPerform_keepsScan ht
  e.toOpEffect.inRange h (e.scanInRange h.scan)

/-- The output operations of a running handler, as `busyOk` states them. -/
theorem InRange.running {s : State} {r : Running} (h : InRange s) (hb : s.busy = some r) :
    r.todo.all (fun e => isOutput e.op) = true ∧ fbOk s.cfg r.fbBefore = true := by
  have := h.busy_ok
  rw [hb] at this
  simpa only [busyOk, Bool.and_eq_true] using this

theorem busyOk_some {c : Params} {r : Running} (hout : r.todo.all (fun e => isOutput e.op) = true)
    (hfb : fbOk c r.fbBefore = true) : busyOk c (some r) = true := by
  simp only [busyOk, hout, hfb, Bool.and_self]

/-- Whatever the block does in a cycle keeps the ranges. -/
theorem Acts.inRange {s u : State} (hacts : Acts s u) (h : InRange s) : InRange u := by
  cases hacts with
  | running r hb =>
    obtain ⟨hout, hfb⟩ := h.running hb
    obtain ⟨hs, vs, c, tr, d, heq⟩ := handlerCycle_output hout s
    rw [heq]
    exact { h with busy_ok := handlerBusy_ok s (busyOk_some hout hfb) }
  | dispatched k rest hb ha hp hs vs c tr d u =>
    have hcfg := (perform_effect (eventInstr k) { s with pend := rest }).cfg
    have hpend : InRange { s with pend := rest } := { h with }
    refine { perform_inRange (eventInstr k) hpend with busy_ok := ?_ }
    exact handlerBusy_ok u (busyOk_some (started_output k rest s) (by rw [hcfg]; exact h.fb_ok))
  | served r hb hr hp t ht => exact hostPerform_inRange ht { h with }
  | idle => exact h

theorem inRange_resetOf {c : Params} (ha : c.admitted = true) : InRange (State.resetOf c) := by
  obtain ⟨hv, hvt⟩ := (admitted_facts ha).v2
  obtain ⟨hp, hhold, -⟩ := (admitted_facts ha).v7
  exact {
    admitted := ha
    line_lt := Nat.zero_lt_of_lt hvt
    vact_eq := (decide_eq_true hv).symm
    row_eq := fun _ => (Nat.zero_div _).symm
    widx_lt := hp
    hold_lt := hhold
    cur_le := Nat.le_refl _
    fb_ok := fbOk_nil c
    busy_ok := rfl }

theorem fbOk_fbAfterReset {s : State} (h : InRange s) : fbOk s.cfg (fbAfterReset s) = true := by
  unfold fbAfterReset
  split
  · exact h.fb_ok
  · next r hb => exact fbOk_cutAt _ h.fb_ok (h.running hb).2

theorem inRange_resetCycle {s : State} (h : InRange s) : InRange (resetCycle s) :=
  have hfb := fbOk_fbAfterReset h
  { inRange_resetOf h.admitted with fb_ok := hfb }

/-- A property of states holds after a step when a reset establishes it and, without reset, whatever the
block does after the input and the compares does, up to the clock edge. -/
theorem step_establishes {P : State → Prop} {s : State} (ha : s.cfg.admitted = true)
    (hreset : P (resetCycle (beginCycle s)))
    (hcycle : ∀ q p f u,
      Acts { s with inputs := s.inputs.tail, resp := none, request := q, pend := p, fault := f } u →
      P (clockEdge s.armed u)) :
    ∃ t, step s = .next t ∧ P t := by
  by_cases hr : notReset s
  · obtain ⟨q, p, f, u, -, hacts, hstep⟩ := step_cases ha hr
    exact ⟨_, hstep, hcycle q p f u hacts⟩
  · exact ⟨_, step_of_reset ha (by simpa [notReset] using hr), hreset⟩

/-- Settles O54: reset, the input, the compares, whatever the block does and the clock edge each keep the
ranges. -/
theorem rangesKept : Obligations.RangesKept := by
  intro s h
  refine step_establishes h.admitted (inRange_resetCycle { h with }) fun q p f u hacts => ?_
  exact { hacts.inRange { h with } with }

/-! ### Encoded cells -/

theorem handlerBusy_fbBefore {r r' : Running} {s : State} (h : handlerBusy r s = some r') :
    r'.fbBefore = r.fbBefore := by
  unfold handlerBusy at h
  split_ifs at h
  cases h
  rfl

theorem OpEffect.cellsEncoded {s t : State} (e : OpEffect s t) (h : CellsEncoded s) :
    CellsEncoded t where
  now := by rw [e.cfg]; exact e.fb.allEncoded h.now
  before := by rw [e.cfg, e.busy]; exact h.before

/-- Whatever the block does in a cycle keeps every cell encoded, the buffer a dispatch sets aside for
reset included. -/
theorem Acts.cellsEncoded {s u : State} (hacts : Acts s u) (hr : InRange s) (h : CellsEncoded s) :
    CellsEncoded u := by
  cases hacts with
  | running r hb =>
    obtain ⟨hs, vs, c, tr, d, heq⟩ := handlerCycle_output (hr.running hb).1 s
    rw [heq]
    refine { now := h.now, before := fun r' hr' => ?_ }
    rw [handlerBusy_fbBefore hr']
    exact h.before r hb
  | dispatched k rest hb ha hp hs vs c tr d u =>
    have e := perform_effect (eventInstr k) { s with pend := rest }
    refine { now := (e.cellsEncoded { h with }).now, before := fun r' hr' => ?_ }
    rw [handlerBusy_fbBefore hr']
    change AllEncoded (perform (eventInstr k) { s with pend := rest }).cfg s.fb
    rw [e.cfg]
    exact h.now
  | served r hb hq hp t ht => exact (hostPerform_keepsScan ht).cellsEncoded { h with }
  | idle => exact h

/-- Reset keeps every cell encoded: a cut chunk mixes the buffer of now with the one set aside. -/
theorem cellsEncoded_resetCycle {s : State} (h : CellsEncoded s) : CellsEncoded (resetCycle s) where
  now := by
    change AllEncoded s.cfg (fbAfterReset s)
    unfold fbAfterReset
    split
    · exact h.now
    · next r hb =>
      intro i hi
      rw [Memory.read_cutAt]
      split_ifs
      · exact h.now i hi
      · exact h.before r hb i hi
  before := nofun

/-- Settles O55: every write is of an encoded word, and reset falls back on encoded cells. -/
theorem cellsStayEncoded : Obligations.CellsStayEncoded := by
  intro s hr h
  refine step_establishes hr.admitted (cellsEncoded_resetCycle { h with }) fun q p f u hacts => ?_
  exact { hacts.cellsEncoded { hr with } { h with } with }

/-! ### The state after reset -/

theorem timerInRange_resetOf {c : Params} (ha : Admitted c) : TimerInRange (State.resetOf c) where
  tcnt_lt := Nat.zero_lt_of_lt (off_lt ha .ss)
  distinct := List.nodup_nil
  disarmed := fun _ => ⟨rfl, rfl⟩

/-- Vertical sync starts deasserted, and line 0 lies above the marker lines (42_scan_timing R95). -/
theorem vsyncOnMarkers_resetOf {c : Params} (ha : Admitted c) :
    vsyncOnMarkers (State.resetOf c) := by
  have hv := ha.v2.1
  have hon := ha.v5.1
  refine iff_of_false (Bool.not_ne_self _) fun h => ?_
  have hle : c.vsOn ≤ 0 := h.1
  omega

theorem noReset_resetOf (c : Params) : noReset (State.resetOf c) := nofun

theorem noRequest_resetOf (c : Params) (op : BitVec 8) : noRequest op (State.resetOf c) :=
  ⟨nofun, nofun⟩

/-- Settles O45: the reset values meet each premise. -/
theorem resetMeetsInvariants : Obligations.ResetMeetsInvariants := by
  intro c hvalid
  have hadm := admitted_of_valid hvalid
  have ha := admitted_facts hadm
  exact ⟨inRange_resetOf hadm, timerInRange_resetOf ha, trivial, vsyncOnMarkers_resetOf ha,
    noReset_resetOf c, noRequest_resetOf c⟩

end Sys2Proof.Machine
end

section
/-! PROOFS. Accesses of the block itself to its memories: a palette or row index out of range
(20_memory R48), and the lines that write and the lines that read the Frame Buffer (R54). -/

namespace Sys2Proof.Machine

/-! ### Indices out of range -/

/-- A palette index at or beyond `P` has no word (20_memory R48). -/
theorem palPx_of_le {c : Params} {i : Nat} (h : c.p ≤ i) : palPx c i = none := by
  rw [palPx, List.getElem?_eq_none h, Option.map_none]

/-- A window with cells left has a chunk with cells to write (43_scheduler R108). -/
theorem cur_lt_chunkEnd {s : State} (hn : s.cur < s.cfg.n) (hc : 1 ≤ s.cfg.chunk) :
    s.cur < chunkEnd s :=
  Nat.lt_min.mpr ⟨Nat.lt_add_of_pos_right hc, hn⟩

theorem isInterior_iff (c : Params) (line : Nat) :
    isInterior c line = true ↔ c.bandTop ≤ line ∧ line < c.bandBot := by
  rw [isInterior, Bool.and_eq_true, decide_eq_true_eq, decide_eq_true_eq]

/-- A window that goes on with a palette index out of range raises `RANGE` alone. -/
theorem schedStep_paletteOutOfRange {s : State} (hl : s.line ≠ s.cfg.v) (hn : s.cur < s.cfg.n)
    (hc : 1 ≤ s.cfg.chunk) (hp : s.cfg.p ≤ s.widx) : schedStep s = raiseFault .range s := by
  rw [schedStep, if_neg hl, if_pos hn]
  exact chunkWrite_none (cur_lt_chunkEnd hn hc) (palPx_of_le hp)

/-- On an interior line whose row is out of range `EV_AD` ends after the left border. -/
theorem activeDraw_rowOutOfRange {s : State} (hv : s.vact = true)
    (hi : isInterior s.cfg s.line = true) (hr : s.cfg.h ≤ s.row) :
    activeDraw s =
      { s with color := s.cfg.borderFlags, fault := setFault s.fault .range,
               trace := [.outColor (borderPx s.cfg), .pad s.cfg.borderCycles] } := by
  rcases activeDraw_cases s with ⟨hoff, -⟩ | ⟨-, -, hrow, -⟩ | ⟨-, -, -, h⟩ | ⟨-, hborder, -⟩
  · exact absurd hv (Bool.eq_false_iff.mp hoff)
  · exact absurd hr (Nat.not_le.mpr hrow)
  · exact h
  · exact absurd hi (Bool.eq_false_iff.mp hborder)

/-- Settles O12: the chunk finds no palette word, and `FB_ROW` no view. -/
theorem internalIndexOutOfRange : Obligations.InternalIndexOutOfRange := by
  refine ⟨fun s hl hn hc hp => ?_, fun s hv htop hbot hr => ?_⟩
  · exact congrArg Host.Outcome.next (schedStep_paletteOutOfRange hl hn hc hp)
  · exact congrArg Host.Outcome.next
      (activeDraw_rowOutOfRange hv ((isInterior_iff _ _).mpr ⟨htop, hbot⟩) hr)

/-! ### Writer and reader of the Frame Buffer -/

/-- With video inactive `EV_AD` only starts an empty trace (42_scan_timing R99). -/
theorem activeDraw_inactive {s : State} (hv : s.vact = false) :
    activeDraw s = { s with trace := [] } := by
  rcases activeDraw_cases s with ⟨-, h⟩ | ⟨hon, -⟩ | ⟨hon, -⟩ | ⟨hon, -⟩
  · exact h
  all_goals exact absurd hon (Bool.eq_false_iff.mp hv)

/-- `EV_AD` writes no cell (20_memory R54). -/
theorem activeDraw_fb (s : State) : (activeDraw s).fb = s.fb := by
  rcases activeDraw_cases s with ⟨-, h⟩ | ⟨-, -, -, h⟩ | ⟨-, -, -, h⟩ | ⟨-, -, h⟩ <;> rw [h]

theorem schedStep_line (s : State) : (schedStep s).line = s.line := by
  obtain ⟨_, _, _, _, _, h⟩ := schedStep_frame s
  rw [h]

/-- An `EV_BP` that reaches a visible line writes no cell: the scheduler is called on no such line
(42_scan_timing R97). -/
theorem backPorch_fb_of_visible {s : State} (hvis : (backPorch s).line < s.cfg.v) :
    (backPorch s).fb = s.fb := by
  rcases backPorch_cases s with ⟨-, h⟩ | ⟨-, -, h⟩ | ⟨hle, -, h⟩
  · rw [h]
  · rw [h]
  · rw [h, schedStep_line] at hvis
    exact absurd hvis (Nat.not_lt.mpr hle)

/-- In the ranges of 10_state R42 a line at or beyond `V` has `VACT = 0`. -/
theorem InRange.vact_false {s : State} (h : InRange s) (hl : s.cfg.v ≤ s.line) : s.vact = false :=
  h.vact_eq.trans (decide_eq_false (Nat.not_lt.mpr hl))

/-- Settles O27: a back porch that writes a cell reached no visible line, and there `EV_AD` finds video
inactive. -/
theorem writerAndReaderDisjoint : Obligations.WriterAndReaderDisjoint := by
  refine ⟨fun s h => ⟨backPorch s, rfl, fun ⟨j, hj⟩ => ?_⟩,
    fun s => ⟨activeDraw s, rfl, activeDraw_fb s⟩⟩
  have hline : s.cfg.v ≤ (backPorch s).line := by
    by_contra hvis
    exact hj (by rw [backPorch_fb_of_visible (Nat.lt_of_not_le hvis)])
  have hrange : InRange (backPorch s) := perform_inRange .evBp h
  have hvact : (backPorch s).vact = false :=
    hrange.vact_false (by rwa [(backPorch_effect s).cfg])
  exact ⟨hline, hvact, fun m => congrArg Host.Outcome.next (activeDraw_inactive hvact)⟩

end Sys2Proof.Machine
end

section
/-! PROOFS. The operation map of 30_encoding R66: what a code decodes to, that decode and encode agree
(R64, R70), that decoding is total (R71), who issues an operation, and what the host port answers to the
codes it may not issue (R68, R69). -/

namespace Sys2Proof.Machine

/-! ### Operands on their buses -/

theorem busBits_lt (width a : Nat) : busBits width a < 2 ^ width :=
  Nat.mod_lt a (Nat.two_pow_pos width)

/-- A value that fits its bus is carried whole (30_encoding R64). -/
theorem busBits_of_lt {width a : Nat} (h : a < 2 ^ width) : busBits width a = a := Nat.mod_eq_of_lt h

theorem busBits_of_fitsX {c : Params} {x : Nat} (h : fitsX c x = true) :
    busBits (clog2 c.w) x = x :=
  busBits_of_lt (of_decide_eq_true h)

theorem busBits_of_fitsY {c : Params} {y : Nat} (h : fitsY c y = true) :
    busBits (clog2 c.h) y = y :=
  busBits_of_lt (of_decide_eq_true h)

theorem busBits_of_fitsI {c : Params} {i : Nat} (h : fitsI c i = true) :
    busBits (clog2 c.n) i = i :=
  busBits_of_lt (of_decide_eq_true h)

theorem toNat_ofNat_of_fitsK {k : Nat} (h : fitsK k = true) : (BitVec.ofNat 16 k).toNat = k :=
  Nat.mod_eq_of_lt (of_decide_eq_true h)

theorem fitsX_busBits (c : Params) (a : Nat) : fitsX c (busBits (clog2 c.w) a) = true :=
  decide_eq_true (busBits_lt _ a)

theorem fitsY_busBits (c : Params) (a : Nat) : fitsY c (busBits (clog2 c.h) a) = true :=
  decide_eq_true (busBits_lt _ a)

theorem fitsI_busBits (c : Params) (a : Nat) : fitsI c (busBits (clog2 c.n) a) = true :=
  decide_eq_true (busBits_lt _ a)

theorem fitsK_toNat (k : BitVec 16) : fitsK k.toNat = true := decide_eq_true k.isLt

/-- The `s` operand of a line names the line (30_encoding R72). -/
theorem syncLineOf_syncLineBit (l : SyncLine) : syncLineOf (syncLineBit l) = l := by
  cases l <;> rfl

/-! ### The decoder -/

/-- Everything the decoder can answer: a well-formed operation with the code it was given, or the name
under which the code is reserved (30_encoding R68, R71). -/
theorem decode_cases (c : Params) (op : BitVec 8) (o : Operands) :
    (∃ i, decode c op o = .ok i ∧ opcode i = op ∧ WellFormed c i = true) ∨
      decode c op o = .error (reservedCode op) := by
  unfold decode
  split
  case h_19 => exact .inr rfl
  all_goals
    rename_i hop
    refine .inl ⟨_, rfl, (BitVec.eq_of_toNat_eq hop).symm, ?_⟩
    simp [WellFormed, fitsX_busBits, fitsY_busBits, fitsI_busBits, fitsK_toNat]

theorem decode_ok {c : Params} {op : BitVec 8} {o : Operands} {i : Instr}
    (h : decode c op o = .ok i) : opcode i = op ∧ WellFormed c i = true := by
  obtain ⟨j, hj, hop, hwf⟩ | herr := decode_cases c op o
  · cases hj.symm.trans h
    exact ⟨hop, hwf⟩
  · cases herr.symm.trans h

/-- Whatever the operand buses carry, the code of an operation decodes to one of the same row: the same
mnemonic (30_encoding R66, R73). -/
theorem decode_opcode (c : Params) (i : Instr) (o : Operands) :
    ∃ j, decode c (opcode i) o = .ok j ∧ asmName j = asmName i := by
  cases i <;> exact ⟨_, rfl, rfl⟩

/-- A code of no row is rejected under its reserved name (30_encoding R68). -/
theorem decode_of_no_row {op : BitVec 8} (h : ∀ i, opcode i ≠ op) (c : Params) (o : Operands) :
    decode c op o = .error (reservedCode op) := by
  obtain ⟨i, -, hop, -⟩ | herr := decode_cases c op o
  · exact absurd hop (h i)
  · exact herr

theorem opcode_ne_of_decode_error {c : Params} {op : BitVec 8} {o : Operands} {e : DecodeError}
    (h : decode c op o = .error e) (i : Instr) : opcode i ≠ op := by
  rintro rfl
  obtain ⟨j, hj, -⟩ := decode_opcode c i o
  cases hj.symm.trans h

/-- A well-formed operation comes back from its encoding with every operand: each fits its bus
(30_encoding R64). -/
theorem decode_encode {c : Params} {i : Instr} (h : WellFormed c i = true) :
    decode c (opcode i) (operandsOf i) = .ok i := by
  cases i with
  | evSs | evBp | evAd | evFp | schedStep | hostArm | hostDisarm => rfl
  | fbFill _ | outColor _ | encodeColor _ => rfl
  | outSyncSet l | outSyncClr l => simp [decode, opcode, operandsOf, syncLineOf_syncLineBit]
  | pad k => simp [decode, opcode, operandsOf, toNat_ofNat_of_fitsK h]
  | fbRow y => simp [decode, opcode, operandsOf, busBits_of_fitsY h]
  | fbGetFlat j | fbSetFlat j _ => simp [decode, opcode, operandsOf, busBits_of_fitsI h]
  | fbGet x y | fbSet x y _ =>
    obtain ⟨hx, hy⟩ := Bool.and_eq_true_iff.mp h
    simp [decode, opcode, operandsOf, busBits_of_fitsX hx, busBits_of_fitsY hy]

/-- Settles O3: `decode_encode`, and `decode_ok` with it for what the decoder answers. -/
theorem decodeEncode : Obligations.DecodeEncode := by
  refine ⟨fun c i => decode_encode, fun c op o i h => ?_⟩
  obtain ⟨rfl, hwf⟩ := decode_ok h
  exact ⟨hwf, rfl, decode_encode hwf⟩

/-- Settles O2: `decode_cases`, and two operations with one code decode to one operation of their row. -/
theorem decodeTotalUnambiguous : Obligations.DecodeTotalUnambiguous := by
  refine ⟨fun c op o => ?_, fun i j hij => ?_⟩
  · obtain ⟨i, hi, hop, -⟩ | herr := decode_cases c op o
    · exact .inl ⟨i, hi, hop⟩
    · exact .inr ⟨⟨_, herr⟩, opcode_ne_of_decode_error herr⟩
  · obtain ⟨m, hm, hmi⟩ := decode_opcode Config.reference i {}
    obtain ⟨n, hn, hnj⟩ := decode_opcode Config.reference j {}
    rw [hij, hn] at hm
    cases hm
    exact hmi.symm.trans hnj

/-! ### The issuers and the host port -/

theorem issuer_lineTimer_iff (i : Instr) :
    issuer i = .lineTimer ↔ opcode i ∈ ([0x00, 0x01, 0x02, 0x03] : List (BitVec 8)) := by
  cases i <;> simp [issuer, opcode]

theorem issuer_handler_iff (i : Instr) : issuer i = .handler ↔
    opcode i ∈ ([0x10, 0x22, 0x25, 0x30, 0x31, 0x32, 0x33] : List (BitVec 8)) := by
  cases i <;> simp [issuer, opcode]

theorem issuer_host_iff (i : Instr) : issuer i = .host ↔
    opcode i ∈ ([0x20, 0x21, 0x23, 0x24, 0x40, 0x50, 0x51] : List (BitVec 8)) := by
  cases i <;> simp [issuer, opcode]

/-- Every code of an operation is one of the 18 of the map (30_encoding R66). -/
theorem opcode_mem_map (i : Instr) :
    opcode i ∈ ([0x00, 0x01, 0x02, 0x03, 0x10, 0x20, 0x21, 0x22, 0x23, 0x24, 0x25, 0x30, 0x31, 0x32,
      0x33, 0x40, 0x50, 0x51] : List (BitVec 8)) := by
  cases i <;> simp [opcode]

/-- Settles O1: each row by the decoder's own arm, its operands whole on buses that fit. -/
theorem operationMap : Obligations.OperationMap := by
  refine ⟨fun c o ⟨hx, hy, hi⟩ => ?_, fun c o op hop => ?_, fun i => ?_⟩
  · simp [decode, syncLineOf, busBits_of_lt hx, busBits_of_lt hy, busBits_of_lt hi]
  · exact decode_of_no_row (by rintro i rfl; exact hop (opcode_mem_map i)) c o
  · exact ⟨issuer_lineTimer_iff i, issuer_handler_iff i, issuer_host_iff i⟩

/-- A request whose code the host may issue is the operation it names (30_encoding R69). -/
theorem hostPerform_of_host {r : HostReq} {s : State} {i : Instr}
    (hd : decode s.cfg r.op (hostOperands r) = .ok i) (hi : issuer i = .host) :
    hostPerform r s = exec i s := by
  unfold hostPerform
  rw [hd]
  exact if_pos hi

/-- A reserved code and the code of an internal operation raise `ILLEGAL` (30_encoding R68, R69). -/
theorem hostPerform_illegal {r : HostReq}
    (hop : r.op ∉ ([0x20, 0x21, 0x23, 0x24, 0x40, 0x50, 0x51] : List (BitVec 8))) (s : State) :
    hostPerform r s = .next (respondFault .illegal s) := by
  unfold hostPerform
  split
  · rfl
  · next i hd =>
    have hissuer : ¬ issuer i = .host := by
      rw [issuer_host_iff, (decode_ok hd).1]
      exact hop
    exact if_neg hissuer

/-! In RUN mode a host write and a second arming raise `HOST_ARMED` alone (44_output_host R122). -/

section
variable {s : State} (ha : s.armed = true)
include ha

theorem exec_fbSet_of_armed (x y : Nat) (v : Pixel) :
    exec (.fbSet x y v) s = .next (respondFault .hostArmed s) :=
  congrArg Host.Outcome.next (if_pos ha)

theorem exec_fbFill_of_armed (v : Pixel) :
    exec (.fbFill v) s = .next (respondFault .hostArmed s) :=
  congrArg Host.Outcome.next (if_pos ha)

theorem exec_hostArm_of_armed : exec .hostArm s = .next (respondFault .hostArmed s) :=
  congrArg Host.Outcome.next (if_pos ha)

/-- A request of `FB_SET`, `FB_FILL` or `HOST_ARM` in RUN mode (30_encoding R69). -/
theorem hostPerform_of_armed {r : HostReq} (hop : r.op ∈ ([0x21, 0x23, 0x50] : List (BitVec 8))) :
    hostPerform r s = .next (respondFault .hostArmed s) := by
  obtain ⟨op, x, y, i, v, f⟩ := r
  simp only [List.mem_cons, List.not_mem_nil, or_false] at hop
  obtain rfl | rfl | rfl := hop
  · exact (hostPerform_of_host rfl rfl).trans (exec_fbSet_of_armed ha _ _ v)
  · exact (hostPerform_of_host rfl rfl).trans (exec_fbFill_of_armed ha v)
  · exact (hostPerform_of_host rfl rfl).trans (exec_hostArm_of_armed ha)

end

/-- Settles O36: both refusals of the host port, with the masks of their bits written out. -/
theorem illegalHostCodes : Obligations.IllegalHostCodes :=
  ⟨fun s _ hop => hostPerform_illegal hop s, fun _ _ ha hop => hostPerform_of_armed ha hop⟩

end Sys2Proof.Machine
end

section
/-! PROOFS. Stimulus programs (30_encoding R75, R76; 42_scan_timing R89): a program after one that
runs, what the next entry does there, and the boot program followed by frames. -/

namespace Sys2Proof.Machine

/-! ### What the runner does with one entry -/

section
variable {due k : Phase} {s : State}

theorem runStimulus_event_inInit (ha : s.armed = false) (rest : List Stim) :
    runStimulus due (.event k :: rest) s = .refused .eventInInit := by
  simp [runStimulus, ha]

theorem runStimulus_event_outOfOrder (ha : s.armed = true) (hk : k ≠ due) (rest : List Stim) :
    runStimulus due (.event k :: rest) s = .refused .eventOutOfOrder := by
  simp [runStimulus, ha, hk]

theorem runStimulus_event_due (ha : s.armed = true) (rest : List Stim) :
    runStimulus k (.event k :: rest) s = runStimulus k.next rest (perform (eventInstr k) s) := by
  simp [runStimulus, ha, exec_eq_perform]

theorem runStimulus_host {r : HostReq} {u : State} (hu : hostPerform r s = .next u)
    (rest : List Stim) : runStimulus due (.host r :: rest) s =
      runStimulus (dueAfterHost due s.armed u.armed) rest u := by
  simp [runStimulus, hu]

theorem dueAfter_host {r : HostReq} {u : State} (hu : hostPerform r s = .next u) (rest : List Stim) :
    dueAfter due (.host r :: rest) s = dueAfter (dueAfterHost due s.armed u.armed) rest u := by
  simp [dueAfter, hu]

/-- A program that runs has performed its first entry under the same configuration and gone on with its
rest, the next event of the line being due. -/
theorem runStimulus_cons_next {e : Stim} {p : List Stim} {t : State}
    (h : runStimulus due (e :: p) s = .next t) : ∃ due' u, u.cfg = s.cfg ∧
      runStimulus due' p u = .next t ∧ ∀ q, dueAfter due (e :: q) s = dueAfter due' q u := by
  cases e with
  | event k =>
    rcases ha : s.armed
    · cases (runStimulus_event_inInit ha p).symm.trans h
    · by_cases hk : k = due
      · subst hk
        exact ⟨k.next, _, (perform_effect (eventInstr k) s).cfg,
          (runStimulus_event_due ha p).symm.trans h, fun _ => rfl⟩
      · cases (runStimulus_event_outOfOrder ha hk p).symm.trans h
  | host r =>
    obtain ⟨u, hu⟩ := hostPerform_next r s
    exact ⟨_, u, (hostPerform_keepsScan hu).cfg, (runStimulus_host hu p).symm.trans h,
      dueAfter_host hu⟩

end

theorem runStimulus_cfg {p : List Stim} {due : Phase} {s t : State}
    (h : runStimulus due p s = .next t) : t.cfg = s.cfg := by
  induction p generalizing due s with
  | nil =>
    cases h
    rfl
  | cons e p ih =>
    obtain ⟨due', u, hcfg, hrun, -⟩ := runStimulus_cons_next h
    exact (ih hrun).trans hcfg

/-- The event due after two programs is the one due after the second from the end of the first. -/
theorem dueAfter_append {p : List Stim} {due : Phase} {s t : State}
    (h : runStimulus due p s = .next t) (q : List Stim) :
    dueAfter due (p ++ q) s = dueAfter (dueAfter due p s) q t := by
  induction p generalizing due s with
  | nil =>
    cases h
    rfl
  | cons e p ih =>
    obtain ⟨due', u, -, hrun, hdue⟩ := runStimulus_cons_next h
    calc dueAfter due (e :: (p ++ q)) s = dueAfter due' (p ++ q) u := hdue _
      _ = dueAfter (dueAfter due' p u) q t := ih hrun
      _ = dueAfter (dueAfter due (e :: p) s) q t := by rw [hdue]

/-! ### Programs on a block -/

theorem runProgram_of_admitted {s : State} (ha : s.cfg.admitted = true) (due : Phase)
    (p : List Stim) : runProgram due p s = runStimulus due p s := by
  simp [runProgram, (refusedBy_eq_none_iff s.cfg).mpr ha]

theorem runProgram_next {due : Phase} {p : List Stim} {s t : State}
    (h : runProgram due p s = .next t) :
    s.cfg.admitted = true ∧ runStimulus due p s = .next t := by
  unfold runProgram at h
  split at h
  · cases h
  · next hr => exact ⟨(refusedBy_eq_none_iff s.cfg).mp hr, h⟩

section
variable {due : Phase} {p : List Stim} {s t : State} (h : runProgram due p s = .next t)
include h

theorem admitted_of_runProgram : t.cfg.admitted = true := by
  obtain ⟨ha, hrun⟩ := runProgram_next h
  rwa [runStimulus_cfg hrun]

theorem runProgram_append (q : List Stim) :
    runProgram due (p ++ q) s = runStimulus (dueAfter due p s) q t := by
  obtain ⟨ha, hrun⟩ := runProgram_next h
  rw [runProgram_of_admitted ha, runStimulus_append hrun]

/-- After a program that runs, the event due completes and the next event of the line is due. -/
theorem runProgram_event_due {k : Phase} (ha : t.armed = true) (hk : k = dueAfter due p s)
    (rest : List Stim) : ∃ u, exec (eventInstr k) t = .next u ∧
      runProgram due (p ++ .event k :: rest) s = runProgram k.next rest u ∧
      dueAfter due (p ++ [.event k]) s = k.next := by
  have hadm : (perform (eventInstr k) t).cfg.admitted = true := by
    rw [(perform_effect (eventInstr k) t).cfg]
    exact admitted_of_runProgram h
  refine ⟨_, exec_eq_perform _ t, ?_, ?_⟩
  · rw [runProgram_append h, ← hk, runStimulus_event_due ha, runProgram_of_admitted hadm]
  · exact dueAfter_append (runProgram_next h).2 [.event k]

/-- After a program that runs, a host request completes; `EV_SS` is due when it has armed the timer, and
else the same event as before. -/
theorem runProgram_host (r : HostReq) (rest : List Stim) : ∃ u, hostPerform r t = .next u ∧
    dueAfter due (p ++ [.host r]) s =
      (if t.armed = false ∧ u.armed = true then .ss else dueAfter due p s) ∧
    runProgram due (p ++ .host r :: rest) s =
      runProgram (dueAfter due (p ++ [.host r]) s) rest u := by
  obtain ⟨u, hu⟩ := hostPerform_next r t
  have hadm : u.cfg.admitted = true := by
    rw [(hostPerform_keepsScan hu).cfg]
    exact admitted_of_runProgram h
  have hdue : dueAfter due (p ++ [.host r]) s =
      dueAfterHost (dueAfter due p s) t.armed u.armed :=
    (dueAfter_append (runProgram_next h).2 [.host r]).trans (dueAfter_host hu [])
  refine ⟨u, hu, ?_, ?_⟩
  · rw [hdue]
    simp [dueAfterHost]
  · rw [hdue, runProgram_append h, runStimulus_host hu, runProgram_of_admitted hadm]

end

/-! ### The boot program and frames -/

theorem backPorch_armed (s : State) : (backPorch s).armed = s.armed := by
  rcases backPorch_cases s with ⟨-, h⟩ | ⟨-, -, h⟩ | ⟨-, -, h⟩ <;> rw [h]
  obtain ⟨_, _, _, _, _, hsched⟩ := schedStep_frame
    { s with hsync := true, line := s.line + 1, row := (s.line + 1) / s.cfg.lpr,
             vact := if s.line + 1 = s.cfg.v then false else s.vact,
             vsync := markedVsync s.cfg (s.line + 1) s.vsync,
             trace := .outSyncSet .horizontal :: markerTrace s.cfg (s.line + 1) }
  rw [hsched]

theorem activeDraw_armed (s : State) : (activeDraw s).armed = s.armed := by
  rcases activeDraw_cases s with ⟨-, h⟩ | ⟨-, -, -, h⟩ | ⟨-, -, -, h⟩ | ⟨-, -, h⟩ <;> rw [h]

/-- An event leaves the mode as it is (60_exceptions R125). -/
theorem perform_event_armed (k : Phase) (s : State) :
    (perform (eventInstr k) s).armed = s.armed := by
  cases k with
  | ss => rfl
  | bp => exact backPorch_armed s
  | ad => exact activeDraw_armed s
  | fp => rfl

/-- A line of stimuli in RUN mode runs as the line of events, and leaves `EV_SS` due again
(30_encoding R75). -/
theorem runStimulus_line {s : State} (ha : s.armed = true) (rest : List Stim) : ∃ t,
    t.armed = true ∧ execAll lineOps s = .next t ∧
      runStimulus .ss (lineStim ++ rest) s = runStimulus .ss rest t := by
  have hss : (perform .evSs s).armed = true := (perform_event_armed .ss s).trans ha
  have hbp : (perform .evBp (perform .evSs s)).armed = true :=
    (perform_event_armed .bp _).trans hss
  have had : (perform .evAd (perform .evBp (perform .evSs s))).armed = true :=
    (perform_event_armed .ad _).trans hbp
  refine ⟨_, (perform_event_armed .fp _).trans had, by simp [lineOps, eventInstr], ?_⟩
  calc runStimulus .ss (lineStim ++ rest) s
    _ = runStimulus .bp (.event .bp :: .event .ad :: .event .fp :: rest) (perform .evSs s) :=
        runStimulus_event_due ha _
    _ = runStimulus .ad (.event .ad :: .event .fp :: rest) (perform .evBp (perform .evSs s)) :=
        runStimulus_event_due hss _
    _ = runStimulus .fp (.event .fp :: rest) (perform .evAd (perform .evBp (perform .evSs s))) :=
        runStimulus_event_due hbp _
    _ = runStimulus .ss rest (perform (eventInstr .fp) _) := runStimulus_event_due had _

theorem linesStim_succ (n : Nat) : linesStim (n + 1) = lineStim ++ linesStim n := rfl

theorem linesOps_succ (n : Nat) : linesOps (n + 1) = lineOps ++ linesOps n := rfl

/-- `lines n` in RUN mode, from a start of a line (30_encoding R75). -/
theorem runStimulus_lines (n : Nat) {s : State} (ha : s.armed = true) :
    runStimulus .ss (linesStim n) s = execAll (linesOps n) s := by
  induction n generalizing s with
  | zero => rfl
  | succ n ih =>
    obtain ⟨t, ht, hops, hstim⟩ := runStimulus_line ha (linesStim n)
    rw [linesStim_succ, linesOps_succ, hstim, execAll_append, hops, andThen_next, ih ht]

theorem perform_fbFill_armed (v : Pixel) (s : State) :
    (perform (.fbFill v) s).armed = s.armed := by
  change State.armed (if _ then _ else _) = _
  split_ifs <;> rfl

theorem perform_hostArm_armed (s : State) : (perform .hostArm s).armed = true := by
  change State.armed (if _ then _ else _) = _
  split_ifs with ha
  · exact ha
  · rfl

/-- The boot program of 30_encoding R75 fills the buffer and arms the timer, so `EV_SS` is due
(42_scan_timing R89). -/
theorem runStimulus_init {s : State} (ha : s.armed = false) (due : Phase) (v : Pixel)
    (rest : List Stim) : runStimulus due (initStim v ++ rest) s =
      runStimulus .ss rest (perform .hostArm (perform (.fbFill v) s)) := by
  have hfill : hostPerform { op := 0x23, v := v } s = .next (perform (.fbFill v) s) :=
    (hostPerform_of_host rfl rfl).trans (exec_eq_perform _ s)
  have harm : hostPerform { op := 0x50 } (perform (.fbFill v) s) =
      .next (perform .hostArm (perform (.fbFill v) s)) :=
    (hostPerform_of_host rfl rfl).trans (exec_eq_perform _ _)
  calc runStimulus due (initStim v ++ rest) s
    _ = runStimulus (dueAfterHost due s.armed (perform (.fbFill v) s).armed)
          (.host { op := 0x50 } :: rest) (perform (.fbFill v) s) := runStimulus_host hfill _
    _ = _ := runStimulus_host harm _
    _ = _ := by rw [perform_hostArm_armed, perform_fbFill_armed, ha]; rfl

/-- Settles O44: the runner's answer to the next entry, after a program that runs by `runProgram_append`;
the boot program and the frames after it operation by operation. -/
theorem stimulusPrograms : Obligations.StimulusPrograms := by
  refine ⟨fun s t due k p rest h ha => ?_, fun s t due k p rest h ha hk => ?_,
    fun s t due k p rest h ha hk => runProgram_event_due h ha hk rest,
    fun s t due r p rest h => runProgram_host h r rest, fun s due v n hadm ha => ?_⟩
  · exact (runProgram_append h _).trans (runStimulus_event_inInit ha rest)
  · exact (runProgram_append h _).trans (runStimulus_event_outOfOrder ha hk rest)
  · rw [runProgram_of_admitted hadm, runStimulus_init ha, execAll_cons, execAll_cons]
    exact runStimulus_lines _ (perform_hostArm_armed _)

end Sys2Proof.Machine
end

section
/-! PROOFS. Colour encoding (40_color_encoding R77, R79): `ENCODE` is inverted by the `SET` half, its
words are the encoded ones, and flags combine on that half. -/

namespace Sys2Proof.Machine

/-- The `SET` half gives the request back (40_color_encoding R77). -/
theorem encodePixel_injective : Function.Injective encodePixel :=
  Function.LeftInverse.injective setBits_encodePixel

/-- The encoded words are those `ENCODE` makes from their own `SET` half (30_encoding R62). -/
theorem isEncoded_iff_encodePixel_setBits (v : Pixel) :
    isEncoded v = true ↔ encodePixel (setBits v) = v := by
  constructor
  · exact encodePixel_setBits
  · intro h
    rw [← h]
    exact isEncoded_encodePixel _

/-- The OR of two requests asks for the lines of both (40_color_encoding R79). -/
theorem setBits_encodePixel_or (f g : Flags) :
    setBits (encodePixel (f ||| g)) = setBits (encodePixel f) ||| setBits (encodePixel g) := by
  simp only [setBits_encodePixel]

/-- Settles O4: both halves by the laws of pixel words, the image by
`isEncoded_iff_encodePixel_setBits`, and the three words of R77 by evaluation. -/
theorem encodeColour : Obligations.EncodeColour := by
  refine ⟨fun c o => rfl, fun f s => rfl,
    fun f => ⟨setBits_encodePixel f, clrBits_encodePixel f⟩,
    fun f g h => encodePixel_injective h, fun v => ?_, by decide, by decide, by decide,
    setBits_encodePixel_or⟩
  exact (isEncoded_iff v).symm.trans (isEncoded_iff_encodePixel_setBits v)

end Sys2Proof.Machine
end

section
/-! PROOFS. The Frame Buffer operations of 41_frame_buffer (R80 to R88): one equation per outcome of each
operation, the two views of the buffer, and what every operation keeps of the mode, the timer and the
ports. -/

namespace Sys2Proof.Machine

/-! ### The checks and the codes -/

theorem inRangeXY_iff {c : Params} {x y : Nat} : inRangeXY c x y = true ↔ x < c.w ∧ y < c.h := by
  simp [inRangeXY]

theorem inRangeI_iff {c : Params} {i : Nat} : inRangeI c i = true ↔ i < c.n := decide_eq_true_iff

section
variable {c : Params} {o : Operands} (h : busesFit c o)
include h

theorem decode_fbGet : decode c 0x20 o = .ok (.fbGet o.x o.y) := by
  obtain ⟨-, -, -, -, -, hget, -⟩ := operationMap.1 c o h
  exact hget

theorem decode_fbSet : decode c 0x21 o = .ok (.fbSet o.x o.y o.v) := by
  obtain ⟨-, -, -, -, -, -, hset, -⟩ := operationMap.1 c o h
  exact hset

theorem decode_fbRow : decode c 0x22 o = .ok (.fbRow o.y) := by
  obtain ⟨-, -, -, -, -, -, -, hrow, -⟩ := operationMap.1 c o h
  exact hrow

theorem decode_fbGetFlat : decode c 0x24 o = .ok (.fbGetFlat o.i) := by
  obtain ⟨-, -, -, -, -, -, -, -, -, hget, -⟩ := operationMap.1 c o h
  exact hget

theorem decode_fbSetFlat : decode c 0x25 o = .ok (.fbSetFlat o.i o.v) := by
  obtain ⟨-, -, -, -, -, -, -, -, -, -, hset, -⟩ := operationMap.1 c o h
  exact hset

end

/-! ### One equation per outcome -/

section
variable {s : State} {x y i : Nat} {v : Pixel}

theorem exec_fbGet_of_inRange (h : inRangeXY s.cfg x y = true) :
    exec (.fbGet x y) s = .next (respond (cellAt s (flatIndex s.cfg x y)) s) :=
  congrArg Host.Outcome.next (if_pos h)

theorem exec_fbGet_outOfRange (h : ¬ inRangeXY s.cfg x y = true) :
    exec (.fbGet x y) s = .next (respondFault .range s) :=
  congrArg Host.Outcome.next (if_neg h)

theorem exec_fbSet_outOfRange (ha : s.armed = false) (h : ¬ inRangeXY s.cfg x y = true) :
    exec (.fbSet x y v) s = .next (respondFault .range s) := by
  simp [exec, execFbSet, ha, h]

theorem exec_fbSet_notEncoded (ha : s.armed = false) (h : inRangeXY s.cfg x y = true)
    (hv : ¬ isEncoded v = true) : exec (.fbSet x y v) s = .next (respondFault .pixel s) := by
  simp [exec, execFbSet, ha, h, hv]

theorem exec_fbSet_stores (ha : s.armed = false) (h : inRangeXY s.cfg x y = true)
    (hv : isEncoded v = true) :
    exec (.fbSet x y v) s = .next (respond 0 (storeCell (flatIndex s.cfg x y) v s)) := by
  simp [exec, execFbSet, ha, h, hv]

theorem exec_fbRow_of_lt (h : y < s.cfg.h) : exec (.fbRow y) s = .next { s with view := some y } := by
  simp [exec, execFbRow, rowView, viewOf, h]

theorem exec_fbRow_of_le (h : s.cfg.h ≤ y) :
    exec (.fbRow y) s = .next (raiseFault .range { s with view := none }) := by
  simp [exec, execFbRow, rowView, viewOf, Nat.not_lt.mpr h]

theorem exec_fbFill_notEncoded (ha : s.armed = false) (hv : ¬ isEncoded v = true) :
    exec (.fbFill v) s = .next (respondFault .pixel s) := by
  simp [exec, execFbFill, ha, hv]

theorem exec_fbFill_stores (ha : s.armed = false) (hv : isEncoded v = true) :
    exec (.fbFill v) s = .next (respond 0 (storeAll v s)) := by
  simp [exec, execFbFill, ha, hv]

theorem exec_fbGetFlat_of_lt (h : i < s.cfg.n) :
    exec (.fbGetFlat i) s = .next (respond (cellAt s i) s) :=
  congrArg Host.Outcome.next (if_pos (inRangeI_iff.mpr h))

theorem exec_fbGetFlat_of_le (h : s.cfg.n ≤ i) :
    exec (.fbGetFlat i) s = .next (respondFault .range s) :=
  congrArg Host.Outcome.next (if_neg (inRangeI_iff.not.mpr h.not_gt))

theorem exec_fbSetFlat_of_le (h : s.cfg.n ≤ i) :
    exec (.fbSetFlat i v) s = .next (raiseFault .range s) := by
  simp [exec, execFbSetFlat, setFlat, inRangeI, h]

theorem exec_fbSetFlat_notEncoded (h : i < s.cfg.n) (hv : ¬ isEncoded v = true) :
    exec (.fbSetFlat i v) s = .next (raiseFault .pixel s) := by
  simp [exec, execFbSetFlat, setFlat, inRangeI, h, hv]

theorem exec_fbSetFlat_stores (h : i < s.cfg.n) (hv : isEncoded v = true) :
    exec (.fbSetFlat i v) s = .next (storeCell i v s) :=
  congrArg Host.Outcome.next (setFlat_ok h hv)

end

/-! ### The two views of the buffer -/

/-- Distinct coordinates in range are distinct cells (20_memory R46). -/
theorem flatIndex_inj {c : Params} {x y x' y' : Nat} (hx : x < c.w) (hx' : x' < c.w)
    (h : flatIndex c x' y' = flatIndex c x y) : x' = x ∧ y' = y := by
  have hrow (a b : Nat) (ha : a < c.w) : flatIndex c a b / c.w = b := by
    rw [flatIndex, Nat.add_comm, Nat.add_mul_div_right _ _ (Nat.zero_lt_of_lt ha),
      Nat.div_eq_of_lt ha, Nat.zero_add]
  have hy : y' = y := by rw [← hrow x' y' hx', h, hrow x y hx]
  subst hy
  exact ⟨Nat.add_left_cancel h, rfl⟩

/-- A flat index below `N` is the cell of its column and row, which are in range (20_memory R46). -/
theorem coordinates_of_flat {c : Params} {i : Nat} (h : i < c.n) :
    inRangeXY c (i % c.w) (i / c.w) = true ∧ flatIndex c (i % c.w) (i / c.w) = i := by
  have hw : 0 < c.w := Nat.pos_of_mul_pos_right (Nat.zero_lt_of_lt h)
  exact ⟨inRangeXY_iff.mpr ⟨Nat.mod_lt _ hw, Nat.div_lt_of_lt_mul h⟩, Nat.div_add_mod' i c.w⟩

/-- The flat read of the cell of coordinates in range is their read (41_frame_buffer R84). -/
theorem exec_fbGetFlat_flatIndex {s : State} {x y : Nat} (h : inRangeXY s.cfg x y = true) :
    exec (.fbGetFlat (flatIndex s.cfg x y)) s = exec (.fbGet x y) s :=
  (exec_fbGetFlat_of_lt (flatIndex_lt h)).trans (exec_fbGet_of_inRange h).symm

/-! ### Reads, writes and their round trip -/

/-- Settles O5: the two outcomes of `FB_GET`. -/
theorem fbGetReadsCell : Obligations.FbGetReadsCell :=
  ⟨fun _ _ => decode_fbGet,
    fun _ _ _ hx hy => exec_fbGet_of_inRange (inRangeXY_iff.mpr ⟨hx, hy⟩),
    fun _ _ _ h => exec_fbGet_outOfRange (inRangeXY_iff.not.mpr h)⟩

/-- Settles O6: the four outcomes of `FB_SET`, the last one a cell write. -/
theorem fbSetWritesCell : Obligations.FbSetWritesCell := by
  refine ⟨fun _ _ => decode_fbSet, fun s x y v ha => exec_fbSet_of_armed ha x y v,
    fun s x y v ha h => exec_fbSet_outOfRange ha (inRangeXY_iff.not.mpr h),
    fun s x y v ha hx hy hv => ?_, fun s x y v ha hx hy hv => ?_⟩
  · exact exec_fbSet_notEncoded ha (inRangeXY_iff.mpr ⟨hx, hy⟩) ((isEncoded_iff v).not.mpr hv)
  · exact ⟨_, exec_fbSet_stores ha (inRangeXY_iff.mpr ⟨hx, hy⟩) ((isEncoded_iff v).mpr hv),
      fun j => Memory.read_write _ j v s.fb⟩

/-- Settles O7: the two outcomes of `FB_ROW`; a view reads the cell where it is read. -/
theorem fbRowAnswersView : Obligations.FbRowAnswersView :=
  ⟨fun _ _ => decode_fbRow, fun _ _ => exec_fbRow_of_lt, fun _ _ => exec_fbRow_of_le,
    fun _ _ _ => rfl⟩

/-- Settles O8: the three outcomes of `FB_FILL`, the last one a fill of all `N` cells. -/
theorem fbFillWritesEveryCell : Obligations.FbFillWritesEveryCell := by
  refine ⟨fun _ _ => rfl, fun s v ha => exec_fbFill_of_armed ha v,
    fun s v ha hv => exec_fbFill_notEncoded ha ((isEncoded_iff v).not.mpr hv), fun s v ha hv => ?_⟩
  refine ⟨_, exec_fbFill_stores ha ((isEncoded_iff v).mpr hv), fun j => ?_⟩
  simp

/-- Settles O9: the two outcomes of `FB_GET_FLAT`, and its agreement with `FB_GET` by the row and the
column of a flat index. -/
theorem fbGetFlatReadsCell : Obligations.FbGetFlatReadsCell := by
  refine ⟨fun _ _ => decode_fbGetFlat, fun _ _ => exec_fbGetFlat_of_lt,
    fun _ _ => exec_fbGetFlat_of_le,
    fun _ _ _ hx hy => exec_fbGetFlat_flatIndex (inRangeXY_iff.mpr ⟨hx, hy⟩), fun s i h => ?_⟩
  obtain ⟨hxy, hflat⟩ := coordinates_of_flat h
  have hread := exec_fbGetFlat_flatIndex hxy
  rwa [hflat] at hread

/-- Settles O10: the three outcomes of `FB_SET_FLAT`, the last one a cell write. -/
theorem fbSetFlatWritesCell : Obligations.FbSetFlatWritesCell := by
  refine ⟨fun _ _ => decode_fbSetFlat, fun _ _ _ => exec_fbSetFlat_of_le,
    fun s i v h hv => exec_fbSetFlat_notEncoded h ((isEncoded_iff v).not.mpr hv),
    fun s i v h hv => ?_⟩
  exact ⟨_, exec_fbSetFlat_stores h ((isEncoded_iff v).mpr hv), fun j => Memory.read_write i j v s.fb⟩

/-- A cell written reads as the word written. -/
theorem cellAt_storeCell_same (i : Nat) (v : Pixel) (s : State) :
    cellAt (storeCell i v s) i = v :=
  (Memory.read_write i i v s.fb).trans (if_pos rfl)

/-- A cell write leaves every other cell as it was. -/
theorem cellAt_storeCell_ne {i j : Nat} (h : j ≠ i) (v : Pixel) (s : State) :
    cellAt (storeCell i v s) j = cellAt s j :=
  (Memory.read_write i j v s.fb).trans (if_neg h)

/-- Settles O11: the get reads the cell the set wrote; other coordinates are other cells by
`flatIndex_inj`. -/
theorem setThenGet : Obligations.SetThenGet := by
  refine ⟨fun s x y v ha hx hy hv => ?_, fun s i v hi hv => ?_⟩
  · have hxy : inRangeXY s.cfg x y = true := inRangeXY_iff.mpr ⟨hx, hy⟩
    refine ⟨_, _, exec_fbSet_stores ha hxy ((isEncoded_iff v).mpr hv), exec_fbGet_of_inRange hxy,
      congrArg some (cellAt_storeCell_same _ v s), fun x' y' hx' _ hne => ?_⟩
    exact cellAt_storeCell_ne (fun h => hne (flatIndex_inj hx hx' h)) v s
  · exact ⟨_, _, exec_fbSetFlat_stores hi ((isEncoded_iff v).mpr hv), exec_fbGetFlat_of_lt hi,
      congrArg some (cellAt_storeCell_same i v s), fun j hj => cellAt_storeCell_ne hj v s⟩

/-! ### What every operation keeps of the mode, the timer and the ports -/

/-- The waiting request, the inputs to come and the count of free values are the same. -/
structure KeepsPorts (s t : State) : Prop where
  request : t.request = s.request
  inputs : t.inputs = s.inputs
  draws : t.draws = s.draws

/-- The mode, the line timer's count and the pending events are the same too. -/
structure KeepsTimer (s t : State) : Prop extends KeepsPorts s t where
  armed : t.armed = s.armed
  tcnt : t.tcnt = s.tcnt
  pend : t.pend = s.pend

theorem keepsTimer_refl (s : State) : KeepsTimer s s := ⟨⟨rfl, rfl, rfl⟩, rfl, rfl, rfl⟩

theorem keepsTimer_respondFault (f : Fault) (s : State) : KeepsTimer s (respondFault f s) :=
  { keepsTimer_refl s with }

/-- A check keeps what both of its branches keep. -/
theorem KeepsTimer.ite {s t u : State} {p : Prop} [Decidable p] (ht : KeepsTimer s t)
    (hu : KeepsTimer s u) : KeepsTimer s (if p then t else u) := by
  split_ifs
  · exact ht
  · exact hu

theorem keepsTimer_schedStep (s : State) : KeepsTimer s (schedStep s) := by
  obtain ⟨_, _, _, _, _, h⟩ := schedStep_frame s
  rw [h]
  exact { keepsTimer_refl s with }

theorem keepsTimer_backPorch (s : State) : KeepsTimer s (backPorch s) := by
  rcases backPorch_cases s with ⟨-, h⟩ | ⟨-, -, h⟩ | ⟨-, -, h⟩ <;> rw [h]
  · exact { keepsTimer_refl s with }
  · exact { keepsTimer_refl s with }
  · exact { keepsTimer_schedStep _ with }

theorem keepsTimer_activeDraw (s : State) : KeepsTimer s (activeDraw s) := by
  rcases activeDraw_cases s with ⟨-, h⟩ | ⟨-, -, -, h⟩ | ⟨-, -, -, h⟩ | ⟨-, -, h⟩ <;> rw [h] <;>
    exact { keepsTimer_refl s with }

theorem keepsTimer_rowView (y : Nat) (s : State) : KeepsTimer s (rowView y s) := by
  unfold rowView
  split <;> exact { keepsTimer_refl s with }

theorem keepsTimer_output {op : Instr} (h : isOutput op = true) (s : State) :
    KeepsTimer s (perform op s) := by
  obtain ⟨_, _, _, heq⟩ := perform_output h s
  rw [heq]
  exact { keepsTimer_refl s with }

/-- Only `HOST_ARM` and `HOST_DISARM` write the mode, `TCNT` or `PEND` (60_exceptions R125). -/
theorem perform_keepsTimer {i : Instr} (harm : i ≠ .hostArm) (hdisarm : i ≠ .hostDisarm)
    (s : State) : KeepsTimer s (perform i s) := by
  have hfault (f : Fault) : KeepsTimer s (respondFault f s) := keepsTimer_respondFault f s
  cases i with
  | hostArm => exact absurd rfl harm
  | hostDisarm => exact absurd rfl hdisarm
  | evSs => exact { keepsTimer_refl s with }
  | evBp => exact keepsTimer_backPorch s
  | evAd => exact keepsTimer_activeDraw s
  | evFp => exact { keepsTimer_refl s with }
  | schedStep => exact keepsTimer_schedStep s
  | fbGet x y => exact .ite { keepsTimer_refl s with } (hfault _)
  | fbSet x y v =>
    exact .ite (hfault _) (.ite (hfault _) (.ite (hfault _) { keepsTimer_refl s with }))
  | fbRow y => exact keepsTimer_rowView y s
  | fbFill v => exact .ite (hfault _) (.ite (hfault _) { keepsTimer_refl s with })
  | fbGetFlat i => exact .ite { keepsTimer_refl s with } (hfault _)
  | fbSetFlat i v =>
    exact .ite { keepsTimer_refl s with } (.ite { keepsTimer_refl s with } { keepsTimer_refl s with })
  | outColor v => exact keepsTimer_output rfl s
  | outSyncSet l => exact keepsTimer_output rfl s
  | outSyncClr l => exact keepsTimer_output rfl s
  | pad k => exact keepsTimer_output rfl s
  | encodeColor f => exact { keepsTimer_refl s with }

theorem keepsPorts_hostArm (s : State) : KeepsPorts s (perform .hostArm s) := by
  change KeepsPorts s (if _ then _ else _)
  split_ifs
  · exact (keepsTimer_respondFault _ s).toKeepsPorts
  · exact ⟨rfl, rfl, rfl⟩

theorem keepsPorts_hostDisarm (s : State) : KeepsPorts s (perform .hostDisarm s) := ⟨rfl, rfl, rfl⟩

theorem perform_keepsPorts (i : Instr) (s : State) : KeepsPorts s (perform i s) := by
  by_cases harm : i = .hostArm
  · rw [harm]
    exact keepsPorts_hostArm s
  · by_cases hdisarm : i = .hostDisarm
    · rw [hdisarm]
      exact keepsPorts_hostDisarm s
    · exact (perform_keepsTimer harm hdisarm s).toKeepsPorts

theorem perform_tcnt {i : Instr} (harm : i ≠ .hostArm) (s : State) :
    (perform i s).tcnt = s.tcnt := by
  by_cases hdisarm : i = .hostDisarm
  · rw [hdisarm]
    rfl
  · exact (perform_keepsTimer harm hdisarm s).tcnt

/-- Settles O39: the configuration and `BUSY` by `perform_effect`, the ports by `perform_keepsPorts`,
the mode and the timer by `perform_keepsTimer`. -/
theorem operationsKeepModeAndConfiguration :
    Obligations.OperationsKeepModeAndConfiguration := by
  intro i s
  have heffect := perform_effect i s
  have hports := perform_keepsPorts i s
  refine ⟨perform i s, exec_eq_perform i s, heffect.cfg, heffect.busy, hports.request, hports.inputs,
    hports.draws, fun harm => perform_tcnt harm s, fun harm hdisarm => ?_, ?_, ?_⟩
  · have htimer := perform_keepsTimer harm hdisarm s
    exact ⟨htimer.pend, htimer.armed⟩
  · rintro rfl
    exact perform_hostArm_armed s
  · rintro rfl
    rfl

end Sys2Proof.Machine
end

section
/-! PROOFS. The back porch of 42_scan_timing (R91 to R97, R103): one equation per branch of `EV_BP`, the
line it reaches, the row it selects, the vertical-sync level it leaves, and a frame of back porches. -/

namespace Sys2Proof.Machine

/-! ### One equation per branch -/

/-- The state in which the `EV_BP` of a non-visible line other than the last calls its scheduler step
(42_scan_timing R97). -/
def beforeSchedule (s : State) : State :=
  { s with hsync := true, line := s.line + 1, row := (s.line + 1) / s.cfg.lpr,
           vact := if s.line + 1 = s.cfg.v then false else s.vact,
           vsync := markedVsync s.cfg (s.line + 1) s.vsync,
           trace := .outSyncSet .horizontal :: markerTrace s.cfg (s.line + 1) }

section
variable {s : State}

theorem backPorch_visible (h : s.line + 1 < s.cfg.v) :
    backPorch s = { s with hsync := true, line := s.line + 1, row := (s.line + 1) / s.cfg.lpr,
                           trace := [.outSyncSet .horizontal] } := by
  rcases backPorch_cases s with ⟨-, heq⟩ | ⟨hle, -, -⟩ | ⟨hle, -, -⟩
  · exact heq
  all_goals exact absurd h (Nat.not_lt.mpr hle)

theorem backPorch_frameEnd (hv : s.cfg.v ≤ s.line + 1) (ht : s.line + 1 = s.cfg.t) :
    backPorch s = { s with hsync := true, line := 0, vact := true, row := 0,
                           vsync := markedVsync s.cfg (s.line + 1) s.vsync,
                           trace := .outSyncSet .horizontal :: markerTrace s.cfg (s.line + 1) } := by
  rcases backPorch_cases s with ⟨hlt, -⟩ | ⟨-, -, heq⟩ | ⟨-, hne, -⟩
  · exact absurd hlt (Nat.not_lt.mpr hv)
  · exact heq
  · exact absurd ht hne

theorem backPorch_schedules (hv : s.cfg.v ≤ s.line + 1) (ht : s.line + 1 ≠ s.cfg.t) :
    backPorch s = schedStep (beforeSchedule s) := by
  rcases backPorch_cases s with ⟨hlt, -⟩ | ⟨-, heq, -⟩ | ⟨-, -, heq⟩
  · exact absurd hlt (Nat.not_lt.mpr hv)
  · exact absurd heq ht
  · exact heq

end

/-- Settles O14: the three branches of `EV_BP`. -/
theorem backPorchEvent : Obligations.BackPorchEvent := by
  refine ⟨fun _ _ => rfl, fun s => ⟨fun hvis => ?_, fun hv ht => ?_, fun hv ht => ?_⟩⟩
  · exact congrArg Host.Outcome.next (backPorch_visible hvis)
  · exact congrArg Host.Outcome.next (backPorch_frameEnd hv ht)
  · exact ⟨_, congrArg Host.Outcome.next (backPorch_schedules hv ht), rfl⟩

/-! ### The line counter -/

theorem backPorch_line_succ {s : State} (ht : s.line + 1 ≠ s.cfg.t) : (backPorch s).line = s.line + 1 := by
  rcases backPorch_cases s with ⟨-, h⟩ | ⟨-, heq, -⟩ | ⟨-, -, h⟩
  · rw [h]
  · exact absurd heq ht
  · rw [h, schedStep_line]

/-- After the last line of the frame the counter starts again with video active (42_scan_timing R96). -/
theorem backPorch_frameEnd_line {s : State} (hv : s.cfg.v < s.cfg.t)
    (ht : s.line + 1 = s.cfg.t) :
    (backPorch s).line = 0 ∧ (backPorch s).vact = true := by
  rw [backPorch_frameEnd (ht ▸ hv.le) ht]
  exact ⟨rfl, rfl⟩

/-- A run of one operation is its iterated effect. -/
theorem execAll_replicate (i : Instr) (n : Nat) (s : State) :
    execAll (List.replicate n i) s = .next ((perform i)^[n] s) := by
  induction n generalizing s with
  | zero => rfl
  | succ n ih => rw [List.replicate_succ, execAll_cons, ih, Function.iterate_succ_apply]

theorem iterate_perform_cfg (i : Instr) (n : Nat) (s : State) :
    ((perform i)^[n] s).cfg = s.cfg := by
  induction n with
  | zero => rfl
  | succ n ih => rw [Function.iterate_succ_apply', (perform_effect i _).cfg, ih]

/-- From line 0, back porch `j` of a frame reaches line `j` (42_scan_timing R103). -/
theorem iterate_evBp_line {s : State} (h0 : s.line = 0) {j : Nat} (hj : j < s.cfg.t) :
    ((perform .evBp)^[j] s).line = j := by
  induction j with
  | zero => exact h0
  | succ j ih =>
    have hline : ((perform .evBp)^[j] s).line = j := ih (Nat.lt_of_succ_lt hj)
    have hnotLast : ((perform .evBp)^[j] s).line + 1 ≠ ((perform .evBp)^[j] s).cfg.t := by
      rw [hline, iterate_perform_cfg]
      exact hj.ne
    rw [Function.iterate_succ_apply']
    exact (backPorch_line_succ hnotLast).trans (congrArg (· + 1) hline)

/-- Settles O21: back porch `j` reaches line `j`, and the one that finds line `T - 1` ends the frame. -/
theorem lineSequencing : Obligations.LineSequencing := by
  intro s hvalid h0
  obtain ⟨-, hvt⟩ := (admitted_facts (admitted_of_valid hvalid)).v2
  refine ⟨fun j hj1 hj => ⟨_, execAll_replicate .evBp j s, iterate_evBp_line h0 (by omega)⟩,
    _, execAll_replicate .evBp s.cfg.t s, ?_⟩
  obtain ⟨last, hlast⟩ : ∃ last, s.cfg.t = last + 1 := ⟨s.cfg.t - 1, by omega⟩
  have hcfg := iterate_perform_cfg .evBp last s
  have hline : ((perform .evBp)^[last] s).line = last := iterate_evBp_line h0 (by omega)
  rw [hlast, Function.iterate_succ_apply']
  exact backPorch_frameEnd_line (by rw [hcfg]; exact hvt) (by rw [hcfg, hline, hlast])

/-! ### The row -/

/-- An `EV_BP` that reaches a visible line selects the row of that line (42_scan_timing R92). -/
theorem backPorch_row_of_visible {s : State} (hvis : (backPorch s).line < s.cfg.v) :
    (backPorch s).row = (backPorch s).line / s.cfg.lpr := by
  rcases backPorch_cases s with ⟨-, h⟩ | ⟨-, -, h⟩ | ⟨hle, -, h⟩
  · rw [h]
  · rw [h]
    exact (Nat.zero_div _).symm
  · rw [h, schedStep_line] at hvis
    exact absurd hvis (Nat.not_lt.mpr hle)

/-- The row of a visible line is a row of the Frame Buffer (42_scan_timing R100). -/
theorem row_lt_of_visible {c : Params} (ha : Admitted c) {line : Nat} (hvis : line < c.v) :
    line / c.lpr < c.h :=
  Nat.div_lt_of_lt_mul ((lpr_exact ha).2 ▸ hvis)

/-- Settles O15: the row is `LINE / LPR`, which is `r` on the `LPR` lines from `LPR*r` on. -/
theorem rowMapping : Obligations.RowMapping := by
  intro s hvalid
  have ha := admitted_facts (admitted_of_valid hvalid)
  have hlpr : 0 < s.cfg.lpr := (lpr_exact ha).1
  refine ⟨backPorch s, rfl, fun hvis => ?_⟩
  rw [backPorch_row_of_visible hvis]
  refine ⟨row_lt_of_visible ha hvis, fun r => ?_⟩
  change (backPorch s).line / s.cfg.lpr = r ↔
    s.cfg.lpr * r ≤ (backPorch s).line ∧ (backPorch s).line ≤ s.cfg.lpr * r + s.cfg.lpr - 1
  rw [Nat.div_eq_iff hlpr, Nat.mul_comm r]

/-! ### Vertical sync -/

theorem schedStep_vsync (s : State) : (schedStep s).vsync = s.vsync := by
  obtain ⟨_, _, _, _, _, h⟩ := schedStep_frame s
  rw [h]

/-- `EV_BP` leaves the level of the marker tests; a visible line has no marker (42_scan_timing R95). -/
theorem backPorch_vsync {s : State} (ha : Admitted s.cfg) :
    (backPorch s).vsync = markedVsync s.cfg (s.line + 1) s.vsync := by
  obtain ⟨hon, honOff, -⟩ := ha.v5
  rcases backPorch_cases s with ⟨hlt, h⟩ | ⟨-, -, h⟩ | ⟨-, -, h⟩ <;> rw [h]
  · have hnotOff : s.line + 1 ≠ s.cfg.vsOff := by omega
    have hnotOn : s.line + 1 ≠ s.cfg.vsOn := by omega
    rw [markedVsync, if_neg hnotOff, if_neg hnotOn]
  · rw [schedStep_vsync]

/-- The marker tests carry the level from the lines `VS_ON` to `VS_OFF - 1` of one line to those of the
next. -/
theorem markedVsync_iff {c : Params} (h : c.vsOn < c.vsOff) {line : Nat} {level : Bool}
    (hlevel : level = c.vsyncActiveLevel ↔ c.vsOn ≤ line ∧ line < c.vsOff) :
    markedVsync c (line + 1) level = c.vsyncActiveLevel ↔
      c.vsOn ≤ line + 1 ∧ line + 1 < c.vsOff := by
  unfold markedVsync
  split_ifs with hoff hon
  · exact iff_of_false (Bool.not_ne_self _) (by omega)
  · exact iff_of_true rfl (by omega)
  · rw [hlevel]
    omega

theorem backPorch_vsyncOnMarkers {s : State} (ha : Admitted s.cfg) (h : vsyncOnMarkers s) :
    vsyncOnMarkers (backPorch s) := by
  obtain ⟨hv, hvt⟩ := ha.v2
  obtain ⟨hon, honOff, hoff⟩ := ha.v5
  unfold vsyncOnMarkers
  rw [(backPorch_effect s).cfg, backPorch_vsync ha, markedVsync_iff honOff h]
  by_cases ht : s.line + 1 = s.cfg.t
  · rw [(backPorch_frameEnd_line hvt ht).1]
    omega
  · rw [backPorch_line_succ ht]

theorem backPorch_line_lt {s : State} (ha : Admitted s.cfg) (h : s.line < s.cfg.t) :
    (backPorch s).line < s.cfg.t := by
  by_cases ht : s.line + 1 = s.cfg.t
  · rw [(backPorch_frameEnd_line ha.v2.2 ht).1]
    exact Nat.zero_lt_of_lt h
  · rw [backPorch_line_succ ht]
    omega

theorem activeDraw_vsync (s : State) : (activeDraw s).vsync = s.vsync := by
  rcases activeDraw_cases s with ⟨-, h⟩ | ⟨-, -, -, h⟩ | ⟨-, -, -, h⟩ | ⟨-, -, h⟩ <;> rw [h]

/-- Only the back porch moves vertical sync (42_scan_timing R95). -/
theorem perform_event_vsync {k : Phase} (hk : k ≠ .bp) (s : State) :
    (perform (eventInstr k) s).vsync = s.vsync := by
  cases k with
  | ss => rfl
  | bp => exact absurd rfl hk
  | ad => exact activeDraw_vsync s
  | fp => rfl

theorem eventInstr_eq_evBp_iff {k : Phase} : eventInstr k = .evBp ↔ k = .bp := by
  cases k <;> decide

theorem eventInstr_ne_schedStep (k : Phase) : eventInstr k ≠ .schedStep := by
  cases k <;> nofun

/-- Settles O16: the back porch moves the line and the level together, and every other event leaves both
alone. -/
theorem vsyncOnMarkerLines : Obligations.VsyncOnMarkerLines := by
  intro s k hvalid hline hmarkers
  have ha := admitted_facts (admitted_of_valid hvalid)
  refine ⟨_, exec_eq_perform _ s, ?_⟩
  by_cases hbp : k = .bp
  · subst hbp
    exact ⟨backPorch_vsyncOnMarkers ha hmarkers, backPorch_line_lt ha hline,
      fun hne => absurd rfl hne⟩
  · have hscan : KeepsScan s (perform (eventInstr k) s) :=
      perform_keepsScan (eventInstr_eq_evBp_iff.not.mpr hbp) (eventInstr_ne_schedStep k) s
    refine ⟨?_, by rwa [hscan.line], fun _ => perform_event_vsync hbp s⟩
    unfold vsyncOnMarkers
    rw [hscan.cfg, hscan.line, perform_event_vsync hbp s]
    exact hmarkers

end Sys2Proof.Machine
end

section
/-! PROOFS. The three other line events of 42_scan_timing: the drawing of a line (R99 to R101), sync-start
(R90) and front-porch (R102). -/

namespace Sys2Proof.Machine

/-! ### The trace of a drawn line -/

theorem streamTrace_eq_flatMap (px : Nat → Pixel) (cycles count x : Nat) :
    streamTrace px cycles count x =
      (List.range' x count).flatMap fun i => [.outColor (px i), .pad cycles] := by
  induction count generalizing x with
  | zero => rfl
  | succ n ih =>
    rw [streamTrace, ih, List.range'_succ, List.flatMap_cons]
    rfl

/-- A drawn line: the left border, the streaming loop, then the right border and blank. -/
theorem drawTrace_eq (c : Params) (px : Nat → Pixel) :
    drawTrace c px = .outColor (borderPx c) :: .pad c.borderCycles ::
      (streamTrace px c.pixelCycles c.w 0 ++
        [.outColor (borderPx c), .pad c.borderCycles, .outColor blankPx]) := rfl

/-- The trace the model draws is the one 42_scan_timing R99 lists. -/
theorem drawTrace_eq_lineTrace (c : Params) (px : Nat → Pixel) : drawTrace c px = lineTrace c px := by
  rw [drawTrace, streamTrace_eq_flatMap, ← List.range_eq_range']
  rfl

theorem streamTrace_length (px : Nat → Pixel) (cycles count x : Nat) :
    (streamTrace px cycles count x).length = 2 * count := by
  induction count generalizing x with
  | zero => rfl
  | succ n ih =>
    rw [streamTrace, List.length_cons, List.length_cons, ih]
    ring

theorem lineTrace_length (c : Params) (px : Nat → Pixel) : (lineTrace c px).length = 2 * c.w + 5 := by
  rw [← drawTrace_eq_lineTrace, drawTrace_eq]
  simp [streamTrace_length]

/-- Iteration `i` of a streaming loop leaves entries `2i` and `2i + 1` of its trace. -/
theorem streamTrace_getElem? (px : Nat → Pixel) (cycles : Nat) {count i : Nat} (h : i < count)
    (x : Nat) :
    (streamTrace px cycles count x)[2 * i]? = some (.outColor (px (x + i))) ∧
      (streamTrace px cycles count x)[2 * i + 1]? = some (.pad cycles) := by
  induction count generalizing i x with
  | zero => exact absurd h (Nat.not_lt_zero i)
  | succ n ih =>
    cases i with
    | zero => exact ⟨rfl, rfl⟩
    | succ i =>
      obtain ⟨hcolor, hpad⟩ := ih (Nat.lt_of_succ_lt_succ h) (x + 1)
      rw [Nat.add_right_comm] at hcolor
      exact ⟨hcolor, hpad⟩

/-- Pixel `x` of a drawn line is at entries `2x + 2` and `2x + 3` of its trace, after the left border. -/
theorem drawTrace_getElem? (c : Params) (px : Nat → Pixel) {x : Nat} (h : x < c.w) :
    (drawTrace c px)[2 * x + 2]? = some (.outColor (px x)) ∧
      (drawTrace c px)[2 * x + 3]? = some (.pad c.pixelCycles) := by
  obtain ⟨hcolor, hpad⟩ := streamTrace_getElem? px c.pixelCycles h 0
  rw [Nat.zero_add] at hcolor
  have hlen := streamTrace_length px c.pixelCycles c.w 0
  rw [drawTrace_eq]
  constructor
  · exact (List.getElem?_append_left (by omega)).trans hcolor
  · exact (List.getElem?_append_left (by omega)).trans hpad

/-! ### One equation per branch -/

section
variable {s : State} (hv : s.vact = true)
include hv

theorem activeDraw_interior (hi : isInterior s.cfg s.line = true) (hr : s.row < s.cfg.h) :
    activeDraw s =
      { s with pixelX := s.cfg.w, color := 0, trace := drawTrace s.cfg (viewCell s s.row) } := by
  rcases activeDraw_cases s with ⟨hoff, -⟩ | ⟨-, -, -, h⟩ | ⟨-, -, hle, -⟩ | ⟨-, hborder, -⟩
  · exact absurd hv (Bool.eq_false_iff.mp hoff)
  · exact h
  · exact absurd hr (Nat.not_lt.mpr hle)
  · exact absurd hi (Bool.eq_false_iff.mp hborder)

theorem activeDraw_border (hb : ¬(s.cfg.bandTop ≤ s.line ∧ s.line < s.cfg.bandBot)) :
    activeDraw s =
      { s with pixelX := s.cfg.w, color := 0,
               trace := drawTrace s.cfg (fun _ => borderPx s.cfg) } := by
  have hni := (isInterior_iff s.cfg s.line).not.mpr hb
  rcases activeDraw_cases s with ⟨hoff, -⟩ | ⟨-, hi, -, -⟩ | ⟨-, hi, -, -⟩ | ⟨-, -, h⟩
  · exact absurd hv (Bool.eq_false_iff.mp hoff)
  · exact absurd hi hni
  · exact absurd hi hni
  · exact h

end

/-- Settles O17: the branches of `EV_AD`, with the trace as the rule lists it. -/
theorem activeDrawEvent : Obligations.ActiveDrawEvent := by
  refine ⟨fun _ _ => rfl, fun s hv => congrArg Host.Outcome.next (activeDraw_inactive hv),
    fun s hv htop hbot hr => ?_, fun s hv hb => ?_, lineTrace_length⟩
  · have hi := (isInterior_iff s.cfg s.line).mpr ⟨htop, hbot⟩
    rw [← drawTrace_eq_lineTrace]
    exact congrArg Host.Outcome.next (activeDraw_interior hv hi hr)
  · rw [← drawTrace_eq_lineTrace]
    exact congrArg Host.Outcome.next (activeDraw_border hv hb)

/-! ### Interior lines -/

/-- Settles O18: the band lies inside the visible lines, so the row is in range and the line is drawn
from its cells. -/
theorem interiorLineReadout : Obligations.InteriorLineReadout := by
  intro s hrange hv htop hbot
  have ha := admitted_facts hrange.admitted
  obtain ⟨-, -, hband⟩ := ha.v6
  have hvis : s.line < s.cfg.v := by omega
  have hrow : s.row = s.line / s.cfg.lpr := hrange.row_eq hvis
  have hr : s.row < s.cfg.h := hrow ▸ row_lt_of_visible ha hvis
  have hdraw := activeDraw_interior hv ((isInterior_iff _ _).mpr ⟨htop, hbot⟩) hr
  refine ⟨hrow, hr, fun x hx => flatIndex_lt (inRangeXY_iff.mpr ⟨hx, hr⟩),
    _, congrArg Host.Outcome.next hdraw, rfl, rfl, fun x hx => ?_⟩
  exact drawTrace_getElem? s.cfg (viewCell s s.row) hx

/-! ### Border lines -/

/-- A hold after `OUT_COLOR` of an encoded word is a segment of its flags, whatever was on the lines. -/
theorem segments_emit (color f : Flags) (k : Nat) (rest : List Instr) :
    segments color (.outColor (encodePixel f) :: .pad k :: rest) = (f, k) :: segments f rest := by
  rw [segments, segments, driveColor_encodePixel]

theorem segments_streamTrace_const (f : Flags) (cycles count x : Nat) (rest : List Instr) :
    segments f (streamTrace (fun _ => encodePixel f) cycles count x ++ rest) =
      List.replicate count (f, cycles) ++ segments f rest := by
  induction count generalizing x with
  | zero => rfl
  | succ n ih =>
    rw [streamTrace, List.cons_append, List.cons_append, segments_emit, ih, List.replicate_succ]
    rfl

/-- The segments of a border line: the left border, the `W` pixels and the right border, all of the
border colour (42_scan_timing R101). -/
theorem segments_borderLine (c : Params) (color : Flags) :
    segments color (drawTrace c (fun _ => borderPx c)) =
      (c.borderFlags, c.borderCycles) :: (List.replicate c.w (c.borderFlags, c.pixelCycles) ++
        [(c.borderFlags, c.borderCycles)]) := by
  rw [drawTrace_eq, borderPx, segments_emit, segments_streamTrace_const, segments_emit]
  rfl

/-- Settles O19: the segments of a border line, whose trace mentions no cell. -/
theorem borderLine : Obligations.BorderLine := by
  intro s hv hb
  refine ⟨_, congrArg Host.Outcome.next (activeDraw_border hv hb), rfl, ?_, ?_, fun m => ?_⟩
  · intro g hg
    rw [segments_borderLine] at hg
    simp only [List.mem_cons, List.mem_append, List.mem_replicate, List.not_mem_nil, or_false] at hg
    rcases hg with rfl | ⟨-, rfl⟩ | rfl <;> rfl
  · rw [segments_borderLine]
    simp only [List.map_cons, List.map_append, List.map_replicate, List.map_nil, List.sum_cons,
      List.sum_append, List.sum_replicate, List.sum_nil, smul_eq_mul]
    ring
  · exact congrArg Host.Outcome.next (activeDraw_border (s := { s with fb := m }) hv hb)

/-! ### Sync-start and front-porch -/

/-- Settles O13: the asserted level of horizontal sync is 0. -/
theorem syncStartEvent : Obligations.SyncStartEvent := ⟨fun _ _ => rfl, fun _ => rfl⟩

/-- `OUT_COLOR(BLANK_PX)` leaves the colour lines at 0 (44_output_host R115). -/
theorem outColor_blankPx (s : State) :
    outColor blankPx s = { s with color := 0, trace := s.trace ++ [.outColor blankPx] } := by
  rw [outColor, blankPx, driveColor_encodePixel]
  rfl

/-- Settles O20: an empty trace, then the blank word. -/
theorem frontPorchEvent : Obligations.FrontPorchEvent :=
  ⟨fun _ _ => rfl, fun s => congrArg Host.Outcome.next (outColor_blankPx (startTrace s))⟩

end Sys2Proof.Machine
end

section
/-! PROOFS. The step of 43_scheduler (R105 to R112): one equation per branch of `SCHED_STEP` that finds its
palette word, and the cells a step may change. -/

namespace Sys2Proof.Machine

/-! ### One equation per branch -/

/-- A fill from `i` up to `e` (43_scheduler R108). -/
theorem read_fill_upTo (v : Pixel) (e i j : Nat) (m : Memory) :
    Memory.read (Memory.fill v (e - i) i m) j = if i ≤ j ∧ j < e then v else Memory.read m j := by
  rw [Memory.read_fill]
  exact if_congr (by omega) rfl rfl

theorem palPx_of_palette {c : Params} {i : Nat} {f : Flags} (h : c.palette[i]? = some f) :
    palPx c i = some (encodePixel f) := by
  rw [palPx, h, Option.map_some]

/-- A chunk that finds its palette word is a fill up to its end, which may write no cell. -/
theorem chunkWrite_fill {s : State} {v : Pixel} (hv : palPx s.cfg s.widx = some v) (before : State) :
    chunkWrite before s =
      { s with fb := Memory.fill v (chunkEnd s - s.cur) s.cur s.fb, cur := chunkEnd s } := by
  by_cases hc : s.cur < chunkEnd s
  · exact chunkWrite_some hc hv
  · rw [chunkWrite_empty hc, Nat.sub_eq_zero_of_le (Nat.le_of_not_lt hc)]
    rfl

section
variable {s : State}

theorem schedStep_held (hl : s.line = s.cfg.v) (hh : s.holdCnt + 1 < s.cfg.hold) :
    schedStep s = { s with holdCnt := s.holdCnt + 1 } := by
  rw [schedStep, if_pos hl, if_pos hh]

theorem schedStep_begins (hl : s.line = s.cfg.v) (hh : s.cfg.hold ≤ s.holdCnt + 1) {f : Flags}
    (hf : s.cfg.palette[(s.widx + 1) % s.cfg.p]? = some f) :
    schedStep s = { s with
      holdCnt := 0
      widx := (s.widx + 1) % s.cfg.p
      cur := min s.cfg.chunk s.cfg.n
      fb := Memory.fill (encodePixel f) (min s.cfg.chunk s.cfg.n - 0) 0 s.fb } := by
  have hend : chunkEnd { s with holdCnt := 0, cur := 0, widx := (s.widx + 1) % s.cfg.p } =
      min s.cfg.chunk s.cfg.n := congrArg (min · s.cfg.n) (Nat.zero_add s.cfg.chunk)
  rw [schedStep, if_pos hl, if_neg (Nat.not_lt.mpr hh), chunkWrite_fill (palPx_of_palette hf), hend]

theorem schedStep_continues (hl : s.line ≠ s.cfg.v) (hn : s.cur < s.cfg.n) {f : Flags}
    (hf : s.cfg.palette[s.widx]? = some f) :
    schedStep s = { s with
      cur := min (s.cur + s.cfg.chunk) s.cfg.n
      fb := Memory.fill (encodePixel f) (min (s.cur + s.cfg.chunk) s.cfg.n - s.cur) s.cur s.fb } := by
  rw [schedStep, if_neg hl, if_pos hn, chunkWrite_fill (palPx_of_palette hf)]
  rfl

theorem schedStep_idle (hl : s.line ≠ s.cfg.v) (hn : s.cfg.n ≤ s.cur) : schedStep s = s := by
  rw [schedStep, if_neg hl, if_neg (Nat.not_lt.mpr hn)]

end

/-- Settles O22: one equation for each of the four branches. -/
theorem schedulerStep : Obligations.SchedulerStep := by
  refine ⟨fun _ _ => rfl, fun s hl hh => congrArg Host.Outcome.next (schedStep_held hl hh),
    fun s f hl hh hf => ?_, fun s f hl hn hf => ?_,
    fun s hl hn => congrArg Host.Outcome.next (schedStep_idle hl hn)⟩
  · refine ⟨_, congrArg Host.Outcome.next (schedStep_begins hl hh hf), fun j => ?_⟩
    rw [read_fill_upTo]
    exact if_congr (and_iff_right (Nat.zero_le j)) rfl rfl
  · exact ⟨_, congrArg Host.Outcome.next (schedStep_continues hl hn hf),
      fun j => read_fill_upTo _ _ _ j s.fb⟩

/-! ### The cells a step may change -/

/-- A chunk changes cells from `CUR` up to its end and no other (43_scheduler R108); when it raises
`RANGE` the cells are those of the state the step began in. -/
theorem chunkWrite_changed {before s : State} (hfb : before.fb = s.fb) {j : Nat}
    (hj : Memory.read (chunkWrite before s).fb j ≠ Memory.read s.fb j) :
    s.cur ≤ j ∧ j < chunkEnd s := by
  cases hv : palPx s.cfg s.widx with
  | some v =>
    rw [chunkWrite_fill hv, read_fill_upTo] at hj
    by_contra hout
    exact hj (if_neg hout)
  | none =>
    by_cases hc : s.cur < chunkEnd s
    · rw [chunkWrite_none hc hv, raiseFault_fb, hfb] at hj
      exact absurd rfl hj
    · rw [chunkWrite_empty hc] at hj
      exact absurd rfl hj

/-- Settles O23: a window start works from cell 0, every other step from `CUR`, and a chunk ends after
`CHUNK` cells or at `N`. -/
theorem boundedWork : Obligations.BoundedWork := by
  intro s
  refine ⟨schedStep s, rfl, fun j hj => ?_⟩
  rcases schedStep_cases s with ⟨-, -, h⟩ | ⟨hl, -, h⟩ | ⟨hl, -, h⟩ | ⟨-, -, h⟩ <;> rw [h] at hj
  · exact absurd rfl hj
  · obtain ⟨hlo, hhi⟩ := chunkWrite_changed (before := s)
      (s := { s with holdCnt := 0, cur := 0, widx := (s.widx + 1) % s.cfg.p }) rfl hj
    rw [if_pos hl]
    exact ⟨hlo, Nat.lt_min.mp hhi⟩
  · obtain ⟨hlo, hhi⟩ := chunkWrite_changed rfl hj
    rw [if_neg hl]
    exact ⟨hlo, Nat.lt_min.mp hhi⟩
  · exact absurd rfl hj

end Sys2Proof.Machine
end

section
/-! PROOFS. The scheduler over the lines of a frame (43_scheduler R113, R114): what a back porch does to
the registers the scheduler works on, line by line; a window of back porches; a frame of lines; and the
frames after the boot sequence. -/

namespace Sys2Proof.Machine

/-! ### What the scheduler works on -/

/-- What the scheduler reads and writes: its registers, the line counter and the cells
(43_scheduler R105). -/
structure SchedView where
  cfg : Params
  line : Nat
  widx : Nat
  holdCnt : Nat
  cur : Nat
  cells : Nat → Pixel

def schedView (s : State) : SchedView where
  cfg := s.cfg
  line := s.line
  widx := s.widx
  holdCnt := s.holdCnt
  cur := s.cur
  cells := Memory.read s.fb

/-- The cells `px` with those below `e` holding the palette word of `f`. -/
def paintTo (f : Flags) (e : Nat) (px : Nat → Pixel) (j : Nat) : Pixel :=
  if j < e then encodePixel f else px j

theorem paintTo_paintTo (f f' : Flags) (e : Nat) (px : Nat → Pixel) :
    paintTo f e (paintTo f' e px) = paintTo f e px := by
  funext j
  unfold paintTo
  split_ifs <;> rfl

/-- A fill that goes on where the cells already hold the word paints up to its own end. -/
theorem read_fill_of_paintTo {m : Memory} {f : Flags} {i e : Nat} {px : Nat → Pixel} (hie : i ≤ e)
    (hm : Memory.read m = paintTo f i px) :
    Memory.read (Memory.fill (encodePixel f) (e - i) i m) = paintTo f e px := by
  funext j
  rw [read_fill_upTo, hm, paintTo, paintTo]
  by_cases hj : j < i
  · rw [if_neg (fun h => Nat.not_le.mpr hj h.1), if_pos hj, if_pos (hj.trans_le hie)]
  · rw [if_neg hj]
    exact if_congr (and_iff_right (Nat.le_of_not_lt hj)) rfl rfl

theorem paintTo_zero (f : Flags) (px : Nat → Pixel) : paintTo f 0 px = px := rfl

/-! ### One back porch -/

section
variable {s : State} {r : SchedView} (h : schedView s = r)
include h

theorem schedView_backPorch_visible (hv : r.line + 1 < r.cfg.v) :
    schedView (backPorch s) = { r with line := r.line + 1 } := by
  subst h
  rw [backPorch_visible hv]
  rfl

theorem schedView_backPorch_frameEnd (hv : r.cfg.v < r.cfg.t) (ht : r.line + 1 = r.cfg.t) :
    schedView (backPorch s) = { r with line := 0 } := by
  subst h
  rw [backPorch_frameEnd (ht ▸ hv.le) ht]
  rfl

theorem schedView_backPorch_held (hl : r.line + 1 = r.cfg.v) (hvt : r.cfg.v < r.cfg.t)
    (hh : r.holdCnt + 1 < r.cfg.hold) :
    schedView (backPorch s) = { r with line := r.line + 1, holdCnt := r.holdCnt + 1 } := by
  subst h
  rw [backPorch_schedules hl.ge (hl.trans_lt hvt).ne, schedStep_held (s := beforeSchedule s) hl hh]
  rfl

theorem schedView_backPorch_begins (hl : r.line + 1 = r.cfg.v) (hvt : r.cfg.v < r.cfg.t)
    (hh : r.cfg.hold ≤ r.holdCnt + 1) {f : Flags}
    (hf : r.cfg.palette[(r.widx + 1) % r.cfg.p]? = some f) :
    schedView (backPorch s) = { r with
      line := r.line + 1
      widx := (r.widx + 1) % r.cfg.p
      holdCnt := 0
      cur := min r.cfg.chunk r.cfg.n
      cells := paintTo f (min r.cfg.chunk r.cfg.n) r.cells } := by
  subst h
  rw [backPorch_schedules hl.ge (hl.trans_lt hvt).ne,
    schedStep_begins (s := beforeSchedule s) hl hh hf]
  exact congrArg (SchedView.mk _ _ _ _ _) (read_fill_of_paintTo (Nat.zero_le _) (paintTo_zero f _).symm)

theorem schedView_backPorch_continues (hl : r.cfg.v ≤ r.line) (ht : r.line + 1 < r.cfg.t) {f : Flags}
    (hf : r.cfg.palette[r.widx]? = some f) {px : Nat → Pixel} (hpx : r.cells = paintTo f r.cur px)
    (hn : r.cur < r.cfg.n) :
    schedView (backPorch s) = { r with
      line := r.line + 1
      cur := min (r.cur + r.cfg.chunk) r.cfg.n
      cells := paintTo f (min (r.cur + r.cfg.chunk) r.cfg.n) px } := by
  subst h
  rw [backPorch_schedules (Nat.le_succ_of_le hl) ht.ne,
    schedStep_continues (s := beforeSchedule s) (Nat.lt_succ_of_le hl).ne' hn hf]
  exact congrArg (SchedView.mk _ _ _ _ _)
    (read_fill_of_paintTo (Nat.le_min.mpr ⟨Nat.le_add_right _ _, Nat.le_of_lt hn⟩) hpx)

theorem schedView_backPorch_idle (hl : r.cfg.v ≤ r.line) (ht : r.line + 1 < r.cfg.t)
    (hn : r.cfg.n ≤ r.cur) : schedView (backPorch s) = { r with line := r.line + 1 } := by
  subst h
  rw [backPorch_schedules (Nat.le_succ_of_le hl) ht.ne,
    schedStep_idle (s := beforeSchedule s) (Nat.lt_succ_of_le hl).ne' hn]
  rfl

end

/-! ### A run of lines -/

/-- The scheduler sees of `g` what it sees of a back porch. -/
def ActsAsBackPorch (g : State → State) : Prop := ∀ s, schedView (g s) = schedView (backPorch s)

/-- What the scheduler has reached `m` lines into a window whose hold elapses, from the line before it
(43_scheduler R113). -/
def rewriteView (r : SchedView) (f : Flags) (m : Nat) : SchedView where
  cfg := r.cfg
  line := r.line + m
  widx := (r.widx + 1) % r.cfg.p
  holdCnt := 0
  cur := min (m * r.cfg.chunk) r.cfg.n
  cells := paintTo f (min (m * r.cfg.chunk) r.cfg.n) r.cells

/-- One more line of a rewrite: the next chunk, or nothing once `CUR = N`. -/
theorem schedView_backPorch_rewrite {s : State} {r : SchedView} {f : Flags} {m : Nat}
    (h : schedView s = rewriteView r f m) (hf : r.cfg.palette[(r.widx + 1) % r.cfg.p]? = some f)
    (hl : r.cfg.v ≤ r.line + m) (ht : r.line + m + 1 < r.cfg.t) :
    schedView (backPorch s) = rewriteView r f (m + 1) := by
  have hmul : (m + 1) * r.cfg.chunk = m * r.cfg.chunk + r.cfg.chunk := Nat.succ_mul m _
  by_cases hn : m * r.cfg.chunk < r.cfg.n
  · have hcur : min (min (m * r.cfg.chunk) r.cfg.n + r.cfg.chunk) r.cfg.n =
        min ((m + 1) * r.cfg.chunk) r.cfg.n := by omega
    refine (schedView_backPorch_continues h hl ht hf rfl ((Nat.min_le_left _ _).trans_lt hn)).trans ?_
    simp only [rewriteView, hcur, Nat.add_assoc]
  · have hcur : min (m * r.cfg.chunk) r.cfg.n = min ((m + 1) * r.cfg.chunk) r.cfg.n := by omega
    refine (schedView_backPorch_idle h hl ht (Nat.le_min.mpr ⟨Nat.le_of_not_lt hn, le_rfl⟩)).trans ?_
    simp only [rewriteView, hcur, Nat.add_assoc]

section
variable {g : State → State} (hg : ActsAsBackPorch g) {s : State} {r : SchedView}
include hg

/-- On visible lines only the line counter moves (42_scan_timing R97). -/
theorem schedView_iterate_visible (h : schedView s = r) {j : Nat} (hj : r.line + j < r.cfg.v) :
    schedView (g^[j] s) = { r with line := r.line + j } := by
  induction j with
  | zero => exact h
  | succ j ih =>
    rw [Function.iterate_succ_apply', hg]
    exact schedView_backPorch_visible (ih (Nat.lt_of_succ_lt hj)) hj

/-- A window whose hold elapses, line by line (43_scheduler R106 to R109, R113). -/
theorem schedView_iterate_rewrite (h : schedView s = r) (hl : r.line + 1 = r.cfg.v)
    (hh : r.cfg.hold ≤ r.holdCnt + 1) {f : Flags}
    (hf : r.cfg.palette[(r.widx + 1) % r.cfg.p]? = some f) {m : Nat} (hm : 1 ≤ m)
    (ht : r.line + m < r.cfg.t) : schedView (g^[m] s) = rewriteView r f m := by
  induction m, hm using Nat.le_induction with
  | base =>
    refine (hg s).trans ((schedView_backPorch_begins h hl (hl ▸ ht) hh hf).trans ?_)
    rw [rewriteView, Nat.one_mul]
  | succ m hm ih =>
    rw [Function.iterate_succ_apply', hg]
    exact schedView_backPorch_rewrite (ih (Nat.lt_of_succ_lt ht)) hf (by omega) ht

/-- A window whose hold has not elapsed counts once, and its other lines change nothing while no rewrite
is in progress (43_scheduler R106, R110). -/
theorem schedView_iterate_held (h : schedView s = r) (hl : r.line + 1 = r.cfg.v)
    (hh : r.holdCnt + 1 < r.cfg.hold) (hn : r.cfg.n ≤ r.cur) {m : Nat} (hm : 1 ≤ m)
    (ht : r.line + m < r.cfg.t) :
    schedView (g^[m] s) = { r with line := r.line + m, holdCnt := r.holdCnt + 1 } := by
  induction m, hm using Nat.le_induction with
  | base => exact (hg s).trans (schedView_backPorch_held h hl (hl ▸ ht) hh)
  | succ m hm ih =>
    rw [Function.iterate_succ_apply', hg]
    refine schedView_backPorch_idle (ih (Nat.lt_of_succ_lt ht)) ?_ ht hn
    change r.cfg.v ≤ r.line + m
    omega

end

/-! ### A rewrite completes -/

theorem palette_of_lt {c : Params} {i : Nat} (h : i < c.p) : ∃ f, c.palette[i]? = some f :=
  ⟨_, List.getElem?_eq_getElem h⟩

/-- The windows of a frame have room for a rewrite (00_scope R7 V3). -/
theorem n_le_of_valid {c : Params} (h : c.valid = true) : c.n ≤ c.chunk * (c.t - c.v) :=
  of_decide_eq_true (holds_of_valid h .v3)

theorem n_pos {c : Params} (h : Admitted c) : 0 < c.n := by
  obtain ⟨hh, hw, -⟩ := h.v4
  exact Nat.mul_pos hw hh

/-- A rewrite takes `ceil(N / CHUNK)` lines, which a window has (00_scope R7 V3). -/
theorem rewriteLines_le {c : Params} (h : c.valid = true) :
    (c.n + c.chunk - 1) / c.chunk ≤ c.t - c.v := by
  obtain ⟨-, -, hc⟩ := (admitted_facts (admitted_of_valid h)).v7
  rw [← Nat.ceilDiv_eq_add_pred_div]
  exact (ceilDiv_le_iff_le_mul hc).mpr (n_le_of_valid h)

theorem n_le_rewriteLines_mul {c : Params} (hc : 0 < c.chunk) :
    c.n ≤ (c.n + c.chunk - 1) / c.chunk * c.chunk := by
  rw [← Nat.ceilDiv_eq_add_pred_div, Nat.mul_comm]
  exact le_smul_ceilDiv hc

/-- The chunks of `K` lines have the cells up to the cursor they reach. -/
theorem chunkSizes_sum (n chunk K : Nat) :
    ((List.range K).map fun m => min ((m + 1) * chunk) n - min (m * chunk) n).sum =
      min (K * chunk) n := by
  have hmono : Monotone fun m => min (m * chunk) n :=
    fun a b hab => min_le_min_right n (Nat.mul_le_mul_right chunk hab)
  have hsum := Finset.sum_range_tsub hmono K
  rw [Nat.zero_mul, Nat.zero_min, Nat.sub_zero] at hsum
  exact hsum

/-- Settles O24: `m` back porches into the window the scheduler has reached `rewriteView`, which is
complete once `m * CHUNK` is at least `N`. -/
theorem rewriteCompletes : Obligations.RewriteCompletes := by
  intro s hvalid hrange hl hh
  have ha := admitted_facts (admitted_of_valid hvalid)
  obtain ⟨hv, hvt⟩ := ha.v2
  obtain ⟨hp, -, hc⟩ := ha.v7
  obtain ⟨f, hf⟩ := palette_of_lt (c := s.cfg) (Nat.mod_lt (s.widx + 1) hp)
  have hview (m : Nat) (hm : 1 ≤ m) (hmax : m ≤ s.cfg.t - s.cfg.v) :
      schedView ((perform .evBp)^[m] s) = rewriteView (schedView s) f m :=
    schedView_iterate_rewrite (fun _ => rfl) rfl (show s.line + 1 = s.cfg.v by omega) hh.ge hf hm
      (show s.line + m < s.cfg.t by omega)
  have hcells (m : Nat) (hm : 1 ≤ m) (hmax : m ≤ s.cfg.t - s.cfg.v) (j : Nat) (hj : j < s.cfg.n) :
      Memory.read ((perform .evBp)^[m] s).fb j =
        if j < m * s.cfg.chunk then encodePixel f else Memory.read s.fb j :=
    (congrFun (congrArg SchedView.cells (hview m hm hmax)) j).trans
      (if_congr (Nat.lt_min.trans (and_iff_left hj)) rfl rfl)
  have hfull := n_le_rewriteLines_mul hc
  have hlines := rewriteLines_le hvalid
  have hlines1 : 1 ≤ (s.cfg.n + s.cfg.chunk - 1) / s.cfg.chunk :=
    Nat.pos_of_mul_pos_right ((n_pos ha).trans_le hfull)
  refine ⟨f, hf, fun m hm hmax => ⟨_, execAll_replicate .evBp m s, ?_, ?_, ?_, hcells m hm hmax⟩,
    hlines, ⟨_, execAll_replicate .evBp _ s, ?_, fun j hj => ?_⟩, ?_⟩
  · exact (congrArg SchedView.line (hview m hm hmax)).trans (congrArg (· + m) hl)
  · exact congrArg SchedView.widx (hview m hm hmax)
  · exact congrArg SchedView.cur (hview m hm hmax)
  · exact (congrArg SchedView.cur (hview _ hlines1 hlines)).trans (Nat.min_eq_right hfull)
  · exact (hcells _ hlines1 hlines j hj).trans (if_pos (hj.trans_le hfull))
  · rw [chunkSizes_sum, Nat.mul_comm]
    exact Nat.min_eq_right (n_le_of_valid hvalid)

end Sys2Proof.Machine
end

section
/-! PROOFS. The cyclical law of 43_scheduler (R114): an event raises no fault in the ranges of 10_state
R42, a line does to the scheduler what its back porch does, and a frame counts once on the hold or
advances the colour. -/

namespace Sys2Proof.Machine

/-! ### Events raise no fault -/

/-- A step that finds its palette word raises no fault (20_memory R48). -/
theorem schedStep_fault {s : State} (hw : s.widx < s.cfg.p) : (schedStep s).fault = s.fault := by
  have hfill (u : State) (hu : u.widx < u.cfg.p) : (chunkWrite s u).fault = u.fault := by
    obtain ⟨v, hv⟩ := palPx_of_lt hu
    rw [chunkWrite_fill hv]
  rcases schedStep_cases s with ⟨-, -, h⟩ | ⟨-, -, h⟩ | ⟨-, -, h⟩ | ⟨-, -, h⟩ <;> rw [h]
  · exact hfill _ (Nat.mod_lt _ (Nat.zero_lt_of_lt hw))
  · exact hfill s hw

theorem backPorch_fault {s : State} (hw : s.widx < s.cfg.p) : (backPorch s).fault = s.fault := by
  rcases backPorch_cases s with ⟨-, h⟩ | ⟨-, -, h⟩ | ⟨-, -, h⟩ <;> rw [h]
  exact schedStep_fault hw

/-- In the ranges of 10_state R42 a drawn line has its row in range (42_scan_timing R100). -/
theorem activeDraw_fault {s : State} (h : InRange s) : (activeDraw s).fault = s.fault := by
  rcases activeDraw_cases s with ⟨-, heq⟩ | ⟨-, -, -, heq⟩ | ⟨hvact, -, hrow, -⟩ | ⟨-, -, heq⟩
  · rw [heq]
  · rw [heq]
  · have hvis : s.line < s.cfg.v := of_decide_eq_true (h.vact_eq.symm.trans hvact)
    have hlt := row_lt_of_visible (admitted_facts h.admitted) hvis
    rw [← h.row_eq hvis] at hlt
    exact absurd hlt (Nat.not_lt.mpr hrow)
  · rw [heq]

theorem perform_event_fault {s : State} (h : InRange s) (k : Phase) :
    (perform (eventInstr k) s).fault = s.fault := by
  cases k with
  | ss => rfl
  | bp => exact backPorch_fault h.widx_lt
  | ad => exact activeDraw_fault h
  | fp => rfl

/-! ### One line -/

/-- The four events of a line, one after another (42_scan_timing R89). -/
def performLine (s : State) : State :=
  perform .evFp (perform .evAd (perform .evBp (perform .evSs s)))

theorem execAll_linesOps (n : Nat) (s : State) :
    execAll (linesOps n) s = .next (performLine^[n] s) := by
  induction n generalizing s with
  | zero => rfl
  | succ n ih =>
    rw [linesOps_succ, Function.iterate_succ_apply, ← ih]
    simp [lineOps, performLine]

theorem schedView_evAd (s : State) : schedView (perform .evAd s) = schedView s := by
  change schedView (activeDraw s) = schedView s
  rcases activeDraw_cases s with ⟨-, h⟩ | ⟨-, -, -, h⟩ | ⟨-, -, -, h⟩ | ⟨-, -, h⟩ <;> rw [h] <;> rfl

theorem schedView_evFp (s : State) : schedView (perform .evFp s) = schedView s := rfl

/-- Sync-start writes nothing that the back porch does not write again. -/
theorem evBp_evSs (s : State) : perform .evBp (perform .evSs s) = backPorch s := by
  change backPorch (perform .evSs s) = backPorch s
  have hstart : advanceLine (deassertSync .horizontal (startTrace (perform .evSs s))) =
      advanceLine (deassertSync .horizontal (startTrace s)) :=
    (backPorch_start _).trans (backPorch_start s).symm
  rw [backPorch, backPorch, hstart]

/-- Only the back porch of a line works on what the scheduler works on (42_scan_timing R97). -/
theorem performLine_actsAsBackPorch : ActsAsBackPorch performLine := by
  intro s
  rw [performLine, schedView_evFp, schedView_evAd, evBp_evSs]

theorem performLine_inRange {s : State} (h : InRange s) : InRange (performLine s) :=
  perform_inRange _ (perform_inRange _ (perform_inRange _ (perform_inRange _ h)))

theorem performLine_fault {s : State} (h : InRange s) : (performLine s).fault = s.fault := by
  have hss : InRange (perform .evSs s) := perform_inRange _ h
  have hbp : InRange (perform .evBp (perform .evSs s)) := perform_inRange _ hss
  have had : InRange (perform .evAd (perform .evBp (perform .evSs s))) := perform_inRange _ hbp
  exact (perform_event_fault had .fp).trans <| (perform_event_fault hbp .ad).trans <|
    (perform_event_fault hss .bp).trans (perform_event_fault h .ss)

theorem iterate_performLine_inRange {s : State} (h : InRange s) (n : Nat) :
    InRange (performLine^[n] s) := by
  induction n with
  | zero => exact h
  | succ n ih =>
    rw [Function.iterate_succ_apply']
    exact performLine_inRange ih

theorem iterate_performLine_fault {s : State} (h : InRange s) (n : Nat) :
    (performLine^[n] s).fault = s.fault := by
  induction n with
  | zero => rfl
  | succ n ih =>
    rw [Function.iterate_succ_apply', performLine_fault (iterate_performLine_inRange h n), ih]

/-! ### Counting frames -/

/-- One more frame, not the last of a hold. -/
theorem succ_div_mod_of_held {hold k : Nat} (h : k % hold + 1 < hold) :
    (k + 1) / hold = k / hold ∧ (k + 1) % hold = k % hold + 1 := by
  rw [Nat.div_mod_unique (Nat.zero_lt_of_lt h)]
  exact ⟨by rw [Nat.add_right_comm, Nat.mod_add_div], h⟩

/-- One more frame, the last of a hold. -/
theorem succ_div_mod_of_elapsed {hold k : Nat} (h : k % hold + 1 = hold) :
    (k + 1) / hold = k / hold + 1 ∧ (k + 1) % hold = 0 := by
  have hpos : 0 < hold := h ▸ Nat.succ_pos _
  rw [Nat.div_mod_unique hpos]
  have hk := Nat.mod_add_div k hold
  exact ⟨by rw [Nat.mul_succ]; omega, hpos⟩

/-! ### One frame -/

/-- What the scheduler has reached after `k` frames from line 0 (43_scheduler R114): every cell holds the
colour, which was painted over `px`. -/
def cycleView (c : Params) (px : Nat → Pixel) (k : Nat) (f : Flags) : SchedView where
  cfg := c
  line := 0
  widx := (k / c.hold) % c.p
  holdCnt := k % c.hold
  cur := c.n
  cells := paintTo f c.n px

section
variable {g : State → State} (hg : ActsAsBackPorch g) {c : Params} {px : Nat → Pixel} {k : Nat}
  {f : Flags} {s : State}

/-- A frame is the lines up to the last visible one, the window and the line that ends it. -/
theorem iterate_frame (g : State → State) (ha : Admitted c) (s : State) :
    g^[c.t] s = g (g^[c.t - c.v] (g^[c.v - 1] s)) := by
  obtain ⟨hv, hvt⟩ := ha.v2
  have hsplit : c.t = (c.t - c.v + (c.v - 1)).succ := by omega
  rw [← Function.iterate_add_apply, ← Function.iterate_succ_apply' g, ← hsplit]

include hg

/-- The last visible line of a frame. -/
theorem schedView_lastVisible (ha : Admitted c) (h : schedView s = cycleView c px k f) :
    schedView (g^[c.v - 1] s) = { cycleView c px k f with line := c.v - 1 } := by
  have hlt : 0 + (c.v - 1) < c.v := by rw [Nat.zero_add]; exact Nat.sub_lt ha.v2.1 Nat.one_pos
  refine (schedView_iterate_visible hg h hlt).trans ?_
  simp only [cycleView, Nat.zero_add]

/-- A frame in which the hold does not elapse counts once. -/
theorem schedView_frame_held (ha : Admitted c) (h : schedView s = cycleView c px k f)
    (hh : k % c.hold + 1 < c.hold) : schedView (g^[c.t] s) = cycleView c px (k + 1) f := by
  obtain ⟨hv, hvt⟩ := ha.v2
  obtain ⟨hdiv, hmod⟩ := succ_div_mod_of_held hh
  have hwindow := schedView_iterate_held hg (schedView_lastVisible hg ha h)
    (show c.v - 1 + 1 = c.v by omega) hh (Nat.le_refl c.n) (m := c.t - c.v) (by omega)
    (show c.v - 1 + (c.t - c.v) < c.t by omega)
  rw [iterate_frame g ha, hg]
  refine (schedView_backPorch_frameEnd hwindow hvt
    (show c.v - 1 + (c.t - c.v) + 1 = c.t by omega)).trans ?_
  simp only [cycleView, hdiv, hmod]

/-- A frame in which the hold elapses advances the colour and repaints every cell (43_scheduler R107,
R113). -/
theorem schedView_frame_elapsed (hvalid : c.valid = true) (h : schedView s = cycleView c px k f)
    (hh : k % c.hold + 1 = c.hold) {f' : Flags}
    (hf' : c.palette[((k + 1) / c.hold) % c.p]? = some f') :
    schedView (g^[c.t] s) = cycleView c px (k + 1) f' := by
  have ha := admitted_facts (admitted_of_valid hvalid)
  obtain ⟨hv, hvt⟩ := ha.v2
  obtain ⟨hdiv, hmod⟩ := succ_div_mod_of_elapsed hh
  have hwidx : ((k / c.hold) % c.p + 1) % c.p = ((k + 1) / c.hold) % c.p := by
    rw [hdiv, Nat.mod_add_mod]
  have hfull : min ((c.t - c.v) * c.chunk) c.n = c.n := by
    rw [Nat.mul_comm]
    exact Nat.min_eq_right (n_le_of_valid hvalid)
  have hwindow := schedView_iterate_rewrite hg (schedView_lastVisible hg ha h)
    (show c.v - 1 + 1 = c.v by omega) hh.ge (f := f') (by rw [← hf', ← hwidx]; rfl)
    (m := c.t - c.v) (by omega) (show c.v - 1 + (c.t - c.v) < c.t by omega)
  rw [iterate_frame g ha, hg]
  refine (schedView_backPorch_frameEnd hwindow hvt
    (show c.v - 1 + (c.t - c.v) + 1 = c.t by omega)).trans ?_
  simp only [rewriteView, cycleView, hfull, hwidx, hmod, paintTo_paintTo]

/-- After `k` frames from a painted buffer (43_scheduler R114). -/
theorem schedView_iterate_frames (hvalid : c.valid = true) (hf : c.palette[0]? = some f)
    (h : schedView s = cycleView c px 0 f) (k : Nat) :
    ∃ f', c.palette[(k / c.hold) % c.p]? = some f' ∧
      schedView (g^[k * c.t] s) = cycleView c px k f' := by
  have ha := admitted_facts (admitted_of_valid hvalid)
  obtain ⟨hp, hhold, -⟩ := ha.v7
  induction k with
  | zero =>
    rw [Nat.zero_mul, Nat.zero_div, Nat.zero_mod]
    exact ⟨f, hf, h⟩
  | succ k ih =>
    obtain ⟨fk, hfk, hk⟩ := ih
    rw [Nat.succ_mul, Nat.add_comm (k * c.t), Function.iterate_add_apply]
    rcases Nat.lt_or_eq_of_le (Nat.succ_le_of_lt (Nat.mod_lt k hhold)) with hh | hh
    · refine ⟨fk, ?_, schedView_frame_held hg ha hk hh⟩
      rwa [(succ_div_mod_of_held hh).1]
    · obtain ⟨f', hf'⟩ := palette_of_lt (c := c) (Nat.mod_lt ((k + 1) / c.hold) hp)
      exact ⟨f', hf', schedView_frame_elapsed hg hvalid hk hh hf'⟩

end

/-! ### From reset -/

/-- The block after the boot sequence (70_reset_and_hazards R153). -/
def booted (c : Params) : State := perform .hostArm (perform (.fbFill (bootFill c)) (State.resetOf c))

theorem bootFill_of_palette {c : Params} {f : Flags} (h : c.palette[0]? = some f) :
    bootFill c = encodePixel f := by
  rw [bootFill, palPx_of_palette h, Option.getD_some]

/-- The boot sequence arms the timer on a buffer painted with the first colour. -/
theorem booted_eq {c : Params} {f : Flags} (h : c.palette[0]? = some f) :
    booted c = { State.resetOf c with fb := Memory.fill (encodePixel f) (c.n - 0) 0 [], armed := true,
                                      resp := some 0 } := by
  rw [booted, bootFill_of_palette h]
  have hfill : perform (.fbFill (encodePixel f)) (State.resetOf c) =
      respond 0 (storeAll (encodePixel f) (State.resetOf c)) :=
    Host.Outcome.next.inj ((exec_eq_perform _ _).symm.trans
      (exec_fbFill_stores rfl (isEncoded_encodePixel f)))
  rw [hfill]
  rfl

theorem schedView_booted {c : Params} {f : Flags} (h : c.palette[0]? = some f) :
    schedView (booted c) = cycleView c (Memory.read []) 0 f := by
  rw [booted_eq h, cycleView, Nat.zero_div, Nat.zero_mod, Nat.zero_mod]
  exact congrArg (SchedView.mk c 0 0 0 c.n)
    (read_fill_of_paintTo (Nat.zero_le _) (paintTo_zero f _).symm)

/-- Settles O25: the boot sequence leaves frame 0 of the cycle, each frame carries it on, and no line
raises a fault. -/
theorem cyclicalLaw : Obligations.CyclicalLaw := by
  intro c k hvalid
  have hadm := admitted_of_valid hvalid
  obtain ⟨f₀, hf₀⟩ := palette_of_lt (c := c) (admitted_facts hadm).v7.1
  have hrange : InRange (booted c) := perform_inRange _ (perform_inRange _ (inRange_resetOf hadm))
  have hfault : (booted c).fault = 0 := by rw [booted_eq hf₀]; rfl
  obtain ⟨f, hf, hview⟩ :=
    schedView_iterate_frames performLine_actsAsBackPorch hvalid hf₀ (schedView_booted hf₀) k
  have hcells (j : Nat) (hj : j < c.n) :
      Memory.read (performLine^[k * c.t] (booted c)).fb j = encodePixel f :=
    (congrFun (congrArg SchedView.cells hview) j).trans (if_pos hj)
  refine ⟨performLine^[k * c.t] (booted c), f, ?_, congrArg SchedView.widx hview,
    congrArg SchedView.holdCnt hview, hf, hcells, congrArg SchedView.line hview,
    (iterate_performLine_fault hrange _).trans hfault⟩
  rw [bootOps, List.cons_append, List.cons_append, List.nil_append, execAll_cons, execAll_cons]
  exact execAll_linesOps _ (booted c)

end Sys2Proof.Machine
end

section
/-! PROOFS. The output lines (44_output_host R115 to R118, 42_scan_timing R89, 60_exceptions R125): what
drives them, that nothing else changes them, and that the line trace of an event accounts for them. -/

namespace Sys2Proof.Machine

/-! ### The output operations -/

/-- `OUT_COLOR` of an encoded word leaves exactly its `SET` lines (44_output_host R115). -/
theorem driveColor_of_isEncoded {v : Pixel} (h : isEncoded v = true) (color : Flags) :
    driveColor color v = setBits v := by
  have hdrive := driveColor_encodePixel color (setBits v)
  rwa [encodePixel_setBits h] at hdrive

/-- Settles O28: the combining rule, and `driveColor_of_isEncoded` for an encoded word. -/
theorem outColorDrivesLines : Obligations.OutColorDrivesLines := by
  refine ⟨fun _ _ => rfl, fun _ _ => rfl, fun s v hv => ?_⟩
  change Host.Outcome.next (record _ { s with color := driveColor s.color v }) = _
  rw [driveColor_of_isEncoded ((isEncoded_iff v).mpr hv)]
  rfl

theorem decode_outSync (c : Params) (o : Operands) :
    decode c 0x31 o = .ok (.outSyncSet (syncLineOf o.s)) ∧
      decode c 0x32 o = .ok (.outSyncClr (syncLineOf o.s)) := ⟨rfl, rfl⟩

/-- Settles O29: the line by `syncLineOf`, the level by `driveSync`. -/
theorem outSyncDrivesLine : Obligations.OutSyncDrivesLine := by
  refine ⟨fun c o hs => ?_, fun c o hs => ?_, fun s => ⟨rfl, rfl, rfl, rfl⟩⟩
  · have hdecode := decode_outSync c o
    rwa [hs] at hdecode
  · have hdecode := decode_outSync c o
    rwa [hs] at hdecode

/-- Settles O30: the operation behind a hold gets the hold as its wait. -/
theorem padHolds : Obligations.PadHolds :=
  ⟨fun _ _ => rfl, fun _ _ => rfl, fun _ _ _ _ => ⟨_, rfl⟩⟩

/-! ### What keeps the output lines -/

theorem sameOutputs_refl (s : State) : SameOutputs s s := ⟨rfl, rfl, rfl⟩

theorem SameOutputs.symm {s t : State} (h : SameOutputs s t) : SameOutputs t s :=
  ⟨h.hsync.symm, h.vsync.symm, h.color.symm⟩

theorem SameOutputs.trans {s t u : State} (h : SameOutputs s t) (h' : SameOutputs t u) :
    SameOutputs s u :=
  ⟨h.hsync.trans h'.hsync, h.vsync.trans h'.vsync, h.color.trans h'.color⟩

/-- A check keeps the output lines when both of its branches do. -/
theorem SameOutputs.ite {s t u : State} {p : Prop} [Decidable p] (ht : SameOutputs s t)
    (hu : SameOutputs s u) : SameOutputs s (if p then t else u) := by
  split_ifs
  · exact ht
  · exact hu

theorem sameOutputs_schedStep (s : State) : SameOutputs s (schedStep s) := by
  obtain ⟨_, _, _, _, _, h⟩ := schedStep_frame s
  rw [h]
  exact { sameOutputs_refl s with }

theorem sameOutputs_rowView (y : Nat) (s : State) : SameOutputs s (rowView y s) := by
  unfold rowView
  split <;> exact { sameOutputs_refl s with }

/-- Only the events and the output operations drive the output lines (44_output_host R123). -/
theorem sameOutputs_perform {i : Instr} (hevent : ∀ k, i ≠ eventInstr k) (hout : isOutput i = false)
    (s : State) : SameOutputs s (perform i s) := by
  have hfault (f : Fault) : SameOutputs s (respondFault f s) := { sameOutputs_refl s with }
  cases i with
  | evSs => exact absurd rfl (hevent .ss)
  | evBp => exact absurd rfl (hevent .bp)
  | evAd => exact absurd rfl (hevent .ad)
  | evFp => exact absurd rfl (hevent .fp)
  | outColor | outSyncSet | outSyncClr | pad => cases hout
  | schedStep => exact sameOutputs_schedStep s
  | fbGet x y => exact .ite { sameOutputs_refl s with } (hfault _)
  | fbSet x y v =>
    exact .ite (hfault _) (.ite (hfault _) (.ite (hfault _) { sameOutputs_refl s with }))
  | fbRow y => exact sameOutputs_rowView y s
  | fbFill v => exact .ite (hfault _) (.ite (hfault _) { sameOutputs_refl s with })
  | fbGetFlat i => exact .ite { sameOutputs_refl s with } (hfault _)
  | fbSetFlat i v =>
    exact .ite { sameOutputs_refl s with } (.ite { sameOutputs_refl s with } { sameOutputs_refl s with })
  | encodeColor f => exact { sameOutputs_refl s with }
  | hostArm => exact .ite (hfault _) { sameOutputs_refl s with }
  | hostDisarm => exact { sameOutputs_refl s with }

theorem issuer_eventInstr (k : Phase) : issuer (eventInstr k) = .lineTimer := by
  cases k <;> rfl

theorem isOutput_of_issuer_host {i : Instr} (h : issuer i = .host) : isOutput i = false := by
  cases i with
  | fbGet | fbSet | fbFill | fbGetFlat | encodeColor | hostArm | hostDisarm => rfl
  | _ => cases h

/-- No host request changes an output line, refused or not (44_output_host R123). -/
theorem hostPerform_sameOutputs {r : HostReq} {s t : State} (h : hostPerform r s = .next t) :
    SameOutputs s t := by
  rcases hostPerform_cases r s with ⟨i, hi, hp⟩ | hp <;> cases hp.symm.trans h
  · refine sameOutputs_perform (fun k hk => ?_) (isOutput_of_issuer_host hi) s
    rw [hk, issuer_eventInstr] at hi
    cases hi
  · exact { sameOutputs_refl s with }

/-- In INIT mode, with no handler running, the block serves the host or does nothing. -/
theorem Acts.sameOutputs_of_init {s u : State} (h : Acts s u) (harmed : s.armed = false)
    (hbusy : s.busy = none) : SameOutputs s u := by
  cases h with
  | running r hb => cases hb.symm.trans hbusy
  | dispatched k rest hb ha => cases ha.symm.trans harmed
  | served r hb hr hp t ht => exact { hostPerform_sameOutputs ht with }
  | idle => exact sameOutputs_refl s

theorem step_sameOutputs_of_init {s : State} (ha : s.cfg.admitted = true) (hr : notReset s)
    (harmed : s.armed = false) (hbusy : s.busy = none) :
    ∃ t, step s = .next t ∧ SameOutputs s t := by
  obtain ⟨_, _, _, u, -, hacts, hstep⟩ := step_cases ha hr
  exact ⟨_, hstep, { hacts.sameOutputs_of_init harmed hbusy with }⟩

/-- Settles O31: `sameOutputs_perform` for the operations, `PAD` apart, and the cycle of INIT mode. -/
theorem outputStability : Obligations.OutputStability := by
  refine ⟨fun i s hevent hi => ⟨_, exec_eq_perform i s, ?_⟩,
    fun s => step_sameOutputs_of_init⟩
  obtain hout | ⟨k, rfl⟩ := hi
  · exact sameOutputs_perform hevent hout s
  · exact { sameOutputs_refl s with }

/-! ### The line trace accounts for the output lines -/

theorem SameOutputs.driveSync {s s' : State} (h : SameOutputs s s') (l : SyncLine) (level : Bool) :
    SameOutputs (driveSync l level s) (driveSync l level s') := by
  cases l with
  | horizontal => exact { h with hsync := rfl }
  | vertical => exact { h with vsync := rfl }

/-- What an output operation leaves on the lines depends on the lines alone. -/
theorem SameOutputs.perform_output {s s' : State} (h : SameOutputs s s') {op : Instr}
    (hop : isOutput op = true) : SameOutputs (perform op s) (perform op s') := by
  cases op with
  | outColor v => exact { h with color := congrArg (driveColor · v) h.color }
  | outSyncSet l => exact { h.driveSync l true with }
  | outSyncClr l => exact { h.driveSync l false with }
  | pad k => exact { h with }
  | _ => cases hop

/-- What a list of output operations leaves on the lines depends on the lines alone. -/
theorem SameOutputs.execAll_output {s s' : State} (h : SameOutputs s s') {tr : List Instr}
    (htr : tr.all isOutput = true) {u u' : State} (hu : execAll tr s = .next u)
    (hu' : execAll tr s' = .next u') : SameOutputs u u' := by
  induction tr generalizing s s' with
  | nil =>
    cases hu
    cases hu'
    exact h
  | cons op tr ih =>
    rw [List.all_cons, Bool.and_eq_true] at htr
    rw [execAll_cons] at hu hu'
    exact ih (h.perform_output htr.1) htr.2 hu hu'

/-- The trace of `t` accounts for its output lines: performed operation by operation from `s`, it
leaves the lines of `t` (42_scan_timing R89). -/
def TraceDrives (s t : State) : Prop := ∃ u, execAll t.trace s = .next u ∧ SameOutputs u t

theorem traceDrives_startTrace (s : State) : TraceDrives s (startTrace s) :=
  ⟨s, rfl, { sameOutputs_refl s with }⟩

section
variable {s t : State} (h : TraceDrives s t)
include h

theorem TraceDrives.of_same {t' : State} (htrace : t'.trace = t.trace) (hsame : SameOutputs t t') :
    TraceDrives s t' := by
  obtain ⟨u, hu, hut⟩ := h
  exact ⟨u, htrace ▸ hu, hut.trans hsame⟩

/-- An output operation drives the lines and records itself. -/
theorem TraceDrives.output {op : Instr} (hop : isOutput op = true) :
    TraceDrives s (perform op t) := by
  obtain ⟨u, hu, hut⟩ := h
  obtain ⟨_, _, _, hperform⟩ := Machine.perform_output hop t
  refine ⟨perform op u, ?_, hut.perform_output hop⟩
  rw [hperform, execAll_append, hu, andThen_next, execAll_cons, execAll_nil]

theorem TraceDrives.assertSync (l : SyncLine) : TraceDrives s (assertSync l t) := by
  unfold Machine.assertSync
  split_ifs
  · exact h.output (op := .outSyncSet l) rfl
  · exact h.output (op := .outSyncClr l) rfl

theorem TraceDrives.deassertSync (l : SyncLine) : TraceDrives s (deassertSync l t) := by
  unfold Machine.deassertSync
  split_ifs
  · exact h.output (op := .outSyncClr l) rfl
  · exact h.output (op := .outSyncSet l) rfl

theorem TraceDrives.vsyncMarkers : TraceDrives s (vsyncMarkers t) := by
  unfold Machine.vsyncMarkers
  dsimp only
  split_ifs
  · exact (h.assertSync .vertical).deassertSync .vertical
  · exact h.assertSync .vertical
  · exact h.deassertSync .vertical
  · exact h

theorem TraceDrives.schedStep : TraceDrives s (schedStep t) := by
  obtain ⟨_, _, _, _, _, hstep⟩ := schedStep_frame t
  exact h.of_same (by rw [hstep]) (sameOutputs_schedStep t)

theorem TraceDrives.frameEndOrSchedule : TraceDrives s (frameEndOrSchedule t) := by
  unfold Machine.frameEndOrSchedule
  split_ifs
  · exact h.of_same rfl { sameOutputs_refl t with }
  · exact h.schedStep

theorem TraceDrives.markInactive : TraceDrives s (markInactive t) := by
  unfold Machine.markInactive
  split_ifs
  · exact h.of_same rfl { sameOutputs_refl t with }
  · exact h

theorem TraceDrives.emit (p : Pixel) (d : Nat) : TraceDrives s (emit p d t) :=
  (h.output (op := .outColor p) rfl).output (op := .pad d) rfl

theorem TraceDrives.set_pixelX (x : Nat) : TraceDrives s { t with pixelX := x } :=
  h.of_same rfl { sameOutputs_refl t with }

theorem TraceDrives.streamCells (px : Nat → Pixel) (count x : Nat) :
    TraceDrives s (streamCells px count x t) := by
  induction count generalizing x t with
  | zero => exact h
  | succ n ih => exact ih ((h.set_pixelX x).emit _ _) (x + 1)

theorem TraceDrives.finishDraw : TraceDrives s (finishDraw t) :=
  ((h.set_pixelX _).emit _ _).output (op := .outColor blankPx) rfl

end

theorem traceDrives_backPorch (s : State) : TraceDrives s (backPorch s) := by
  have hstart : TraceDrives s (advanceLine (deassertSync .horizontal (startTrace s))) :=
    ((traceDrives_startTrace s).deassertSync .horizontal).of_same rfl { sameOutputs_refl _ with }
  unfold backPorch
  dsimp only
  split_ifs
  · exact hstart
  · exact hstart.markInactive.vsyncMarkers.frameEndOrSchedule

theorem traceDrives_activeDraw (s : State) : TraceDrives s (activeDraw s) := by
  have hstart := traceDrives_startTrace s
  have hborder := hstart.emit (borderPx s.cfg) s.cfg.borderCycles
  unfold activeDraw
  dsimp only
  split_ifs
  · exact hstart
  · split
    · exact (hborder.streamCells _ _ _).finishDraw
    · exact hborder.of_same rfl { sameOutputs_refl _ with }
  · exact (hborder.streamCells _ _ _).finishDraw

/-- The line trace of an event accounts for what the event leaves on the output lines. -/
theorem traceDrives_event (k : Phase) (s : State) : TraceDrives s (perform (eventInstr k) s) := by
  cases k with
  | ss => exact (traceDrives_startTrace s).assertSync .horizontal
  | bp => exact traceDrives_backPorch s
  | ad => exact traceDrives_activeDraw s
  | fp => exact (traceDrives_startTrace s).output (op := .outColor blankPx) rfl

/-- Settles O32: both events leave what their trace leaves, and one trace from the same lines leaves
the same lines. -/
theorem sameTraceSameOutputs : Obligations.SameTraceSameOutputs := by
  intro s s' k k' h
  refine ⟨_, _, exec_eq_perform _ s, exec_eq_perform _ s', fun htrace => ?_⟩
  obtain ⟨u, hu, hut⟩ := traceDrives_event k s
  obtain ⟨u', hu', hut'⟩ := traceDrives_event k' s'
  rw [← htrace] at hu'
  exact hut.symm.trans ((h.execAll_output (event_trace_output k s) hu hu').trans hut')

end Sys2Proof.Machine
end

section
/-! PROOFS. Host control and the host port in both modes (44_output_host R120 to R122). -/

namespace Sys2Proof.Machine

theorem exec_hostArm_of_disarmed {s : State} (ha : s.armed = false) :
    exec .hostArm s = .next (respond 0 { s with armed := true, tcnt := 0, pend := [] }) :=
  congrArg Host.Outcome.next (if_neg (Bool.eq_false_iff.mp ha))

/-- Settles O33: the two branches of `HOST_ARM`. -/
theorem hostArmStartsTimer : Obligations.HostArmStartsTimer :=
  ⟨fun _ _ => rfl, fun _ => exec_hostArm_of_disarmed, fun _ => exec_hostArm_of_armed⟩

/-- Settles O34: `HOST_DISARM` has one branch. -/
theorem hostDisarmStopsTimer : Obligations.HostDisarmStopsTimer := ⟨fun _ _ => rfl, fun _ => rfl⟩

/-- `RANGE` and `HOST_ARMED` are different bits of `FAULT` (60_exceptions R131). -/
theorem setFault_range_and_hostArmed (w : BitVec 6) :
    setFault w .range &&& 0x08 = w &&& 0x08 := by
  have hmask : 0x08 &&& faultMask .range = 0#6 := by decide
  rw [setFault, BitVec.and_comm, BitVec.and_or_distrib_left, hmask, BitVec.or_zero, BitVec.and_comm]

/-- A read answers in both modes, and its only fault is `RANGE` (41_frame_buffer R80, R84). -/
theorem readOrRange_keeps_hostArmed {p : Prop} [Decidable p] (v : Pixel) (s : State) :
    (if p then respond v s else respondFault .range s).fault &&& 0x08 = s.fault &&& 0x08 := by
  split_ifs
  · rfl
  · exact setFault_range_and_hostArmed s.fault

/-- Settles O35: the three refusals of RUN mode; of the four others only the reads raise a fault, and
that is `RANGE`. -/
theorem hostWritesRefusedInRun : Obligations.HostWritesRefusedInRun := by
  refine ⟨fun s i ha hi => ?_, fun s i hi => ⟨_, exec_eq_perform i s, ?_⟩⟩
  · obtain ⟨x, y, v, rfl⟩ | ⟨v, rfl⟩ | rfl := hi
    · exact exec_fbSet_of_armed ha x y v
    · exact exec_fbFill_of_armed ha v
    · exact exec_hostArm_of_armed ha
  · obtain ⟨x, y, rfl⟩ | ⟨j, rfl⟩ | ⟨f, rfl⟩ | rfl := hi
    · exact readOrRange_keeps_hostArmed _ s
    · exact readOrRange_keeps_hostArmed _ s
    · rfl
    · rfl

end Sys2Proof.Machine
end

section
/-! PROOFS. The line timer of 60_exceptions: the compares of a cycle (R129, R137, R140, R141), what a host
request leaves of the mode, the timer and `FAULT`, and how `TCNT` counts (R136). -/

namespace Sys2Proof.Machine

/-! ### The input and the compares -/

section
variable (s : State)

@[simp] theorem afterInput_cfg : (afterInput s).cfg = s.cfg := by
  obtain ⟨_, h⟩ := afterInput_eq s
  rw [h]

@[simp] theorem afterInput_armed : (afterInput s).armed = s.armed := by
  obtain ⟨_, h⟩ := afterInput_eq s
  rw [h]

@[simp] theorem afterInput_tcnt : (afterInput s).tcnt = s.tcnt := by
  obtain ⟨_, h⟩ := afterInput_eq s
  rw [h]

@[simp] theorem afterInput_pend : (afterInput s).pend = s.pend := by
  obtain ⟨_, h⟩ := afterInput_eq s
  rw [h]

@[simp] theorem afterInput_busy : (afterInput s).busy = s.busy := by
  obtain ⟨_, h⟩ := afterInput_eq s
  rw [h]

@[simp] theorem afterInput_fault : (afterInput s).fault = s.fault := by
  obtain ⟨_, h⟩ := afterInput_eq s
  rw [h]

@[simp] theorem afterCompare_cfg : (afterCompare s).cfg = s.cfg := by
  obtain ⟨_, _, h⟩ := afterCompare_eq s
  rw [h]

@[simp] theorem afterCompare_armed : (afterCompare s).armed = s.armed := by
  obtain ⟨_, _, h⟩ := afterCompare_eq s
  rw [h]

@[simp] theorem afterCompare_tcnt : (afterCompare s).tcnt = s.tcnt := by
  obtain ⟨_, _, h⟩ := afterCompare_eq s
  rw [h]

@[simp] theorem afterCompare_busy : (afterCompare s).busy = s.busy := by
  obtain ⟨_, _, h⟩ := afterCompare_eq s
  rw [h]

@[simp] theorem afterCompare_fb : (afterCompare s).fb = s.fb := by
  obtain ⟨_, _, h⟩ := afterCompare_eq s
  rw [h]

@[simp] theorem afterCompare_vact : (afterCompare s).vact = s.vact := by
  obtain ⟨_, _, h⟩ := afterCompare_eq s
  rw [h]

@[simp] theorem afterCompare_resp : (afterCompare s).resp = none := by
  obtain ⟨_, _, h⟩ := afterCompare_eq s
  rw [h]

@[simp] theorem afterCompare_request : (afterCompare s).request = (afterInput s).request := by
  obtain ⟨_, _, h⟩ := afterCompare_eq s
  rw [h]

@[simp] theorem afterCompare_inputs : (afterCompare s).inputs = s.inputs.tail := by
  obtain ⟨_, _, h⟩ := afterCompare_eq s
  rw [h]

end

theorem afterCompare_inRange {s : State} (h : InRange s) : InRange (afterCompare s) := by
  obtain ⟨_, _, heq⟩ := afterCompare_eq s
  rw [heq]
  exact { h with }

theorem afterCompare_noMatch {s : State} (h : noMatch s) : afterCompare s = afterInput s :=
  compareAll_noMatch (by unfold noMatch at h ⊢; simpa using h)

/-- The offsets of an admitted configuration are distinct (00_scope R7 V1). -/
theorem off_injective {c : Params} (ha : Admitted c) : Function.Injective c.off := by
  obtain ⟨hss, hbp, had, -⟩ := ha.v1
  intro k k' h
  cases k <;> cases k' <;> simp [Params.off] at h ⊢ <;> omega

/-- At most one source matches (60_exceptions R130). -/
theorem matches_iff {s : State} {k : Phase} (ha : Admitted s.cfg) (ht : s.tcnt = s.cfg.off k)
    (k' : Phase) : s.tcnt = s.cfg.off k' ↔ k' = k := by
  rw [ht, (off_injective ha).eq_iff, eq_comm]

theorem isPending_iff (k : Phase) (s : State) :
    isPending k s = true ↔ k ∈ s.pend.map (fun e => e.event) := by
  simp [isPending]

/-- A match of a source that is not pending is queued, with `BUDGET` while a handler runs. -/
theorem matchSource_of_not_pending {k : Phase} {s : State}
    (hk : k ∉ s.pend.map (fun e => e.event)) :
    matchSource k s = { s with
      pend := s.pend ++ [⟨k, s.cfg.entryLat⟩]
      fault := if s.busy = none then s.fault else s.fault ||| 0x20 } := by
  have hnot : ¬isPending k s = true := (isPending_iff k s).not.mpr hk
  rw [matchSource, if_neg hnot]
  cases hb : s.busy <;> simp [raiseFault, setFault, faultMask, faultBit]

/-- A match of a source already pending is lost, with `OVERRUN`, and `BUDGET` while a handler runs. -/
theorem matchSource_of_pending {k : Phase} {s : State} (hk : k ∈ s.pend.map (fun e => e.event)) :
    matchSource k s = { s with
      fault := if s.busy = none then s.fault ||| 0x10 else s.fault ||| 0x30 } := by
  have hpending : isPending k s = true := (isPending_iff k s).mpr hk
  have hboth : s.fault ||| faultMask .overrun ||| faultMask .budget = s.fault ||| 0x30 :=
    BitVec.or_assoc ..
  rw [matchSource, if_pos hpending]
  cases hb : s.busy
  · simp [hb, raiseFault, setFault, faultMask, faultBit]
  · simp [hb, raiseFault, setFault, hboth]

/-- The compares of a cycle in which source `k` matches are the match of `k`. -/
theorem afterCompare_match {s : State} {k : Phase} (ha : Admitted s.cfg) (harmed : s.armed = true)
    (ht : s.tcnt = s.cfg.off k) : afterCompare s = matchSource k (afterInput s) :=
  compareAll_match (by simpa using harmed) fun k' => by simpa using matches_iff ha ht k'

/-- The match of an idle block with nothing pending puts its event at the head of `PEND`. -/
theorem afterCompare_idle_match {s : State} {k : Phase} (ha : Admitted s.cfg)
    (harmed : s.armed = true) (ht : s.tcnt = s.cfg.off k) (hb : s.busy = none) (hp : s.pend = []) :
    afterCompare s = { afterInput s with pend := [⟨k, s.cfg.entryLat⟩] } := by
  rw [afterCompare_match ha harmed ht, matchSource_of_not_pending (by simp [hp])]
  simp [hb, hp]

/-- A match keeps the pending events distinct. -/
theorem matchSource_nodup {k : Phase} {s : State} (h : (s.pend.map (fun e => e.event)).Nodup) :
    ((matchSource k s).pend.map (fun e => e.event)).Nodup := by
  by_cases hk : k ∈ s.pend.map (fun e => e.event)
  · rw [matchSource_of_pending hk]
    exact h
  · rw [matchSource_of_not_pending hk, List.map_append]
    exact List.nodup_append.mpr ⟨h, List.nodup_singleton _, by simpa using hk⟩

theorem compareSource_nodup {k : Phase} {s : State} (h : (s.pend.map (fun e => e.event)).Nodup) :
    ((compareSource k s).pend.map (fun e => e.event)).Nodup := by
  unfold compareSource
  split_ifs
  · exact matchSource_nodup h
  · exact h

theorem afterCompare_nodup {s : State} (h : (s.pend.map (fun e => e.event)).Nodup) :
    ((afterCompare s).pend.map (fun e => e.event)).Nodup :=
  compareSource_nodup <| compareSource_nodup <| compareSource_nodup <| compareSource_nodup <| by
    simpa using h

/-! ### The host port -/

/-- Everything a host request can leave: an answer with at most a fault of the host port, and a write in
INIT mode only; the timer armed; or the timer stopped (44_output_host R120 to R122). -/
inductive HostOutcome (r : HostReq) (s : State) : State → Prop
  | answered (v : Pixel) (f : BitVec 6) (m : Memory) (hf : f &&& 0x30 = s.fault &&& 0x30)
      (hm : s.armed = true → m = s.fb) :
      HostOutcome r s { s with fault := f, fb := m, resp := some v }
  | armed (hop : r.op = 0x50) (ha : s.armed = false) :
      HostOutcome r s { s with armed := true, tcnt := 0, pend := [], resp := some 0 }
  | disarmed (hop : r.op = 0x51) :
      HostOutcome r s { s with armed := false, pend := [], resp := some 0 }

section
variable {r : HostReq} {s : State}

theorem HostOutcome.respond (v : Pixel) : HostOutcome r s (respond v s) :=
  .answered v s.fault s.fb rfl fun _ => rfl

/-- Neither `OVERRUN` nor `BUDGET` is a fault of the host port (60_exceptions R131). -/
theorem HostOutcome.respondFault {f : Fault} (hf : faultMask f &&& 0x30 = 0#6) :
    HostOutcome r s (respondFault f s) := by
  have hbits : setFault s.fault f &&& 0x30 = s.fault &&& 0x30 := by
    rw [setFault, BitVec.and_comm, BitVec.and_or_distrib_left, BitVec.and_comm _ (faultMask f), hf,
      BitVec.or_zero, BitVec.and_comm]
  exact .answered 0 _ s.fb hbits fun _ => rfl

theorem HostOutcome.ite {t u : State} {p : Prop} [Decidable p] (ht : p → HostOutcome r s t)
    (hu : ¬p → HostOutcome r s u) : HostOutcome r s (if p then t else u) := by
  split_ifs with h
  · exact ht h
  · exact hu h

theorem perform_hostOutcome {i : Instr} (hi : issuer i = .host) (hop : opcode i = r.op) :
    HostOutcome r s (perform i s) := by
  have hfault {f : Fault} (hf : faultMask f &&& 0x30 = 0#6) : HostOutcome r s (respondFault f s) :=
    .respondFault hf
  cases i with
  | fbGet x y => exact .ite (fun _ => .respond _) fun _ => hfault rfl
  | fbSet x y v =>
    exact .ite (fun _ => hfault rfl) fun harmed => .ite (fun _ => hfault rfl) fun _ =>
      .ite (fun _ => hfault rfl) fun _ => .answered 0 s.fault _ rfl fun h => absurd h harmed
  | fbFill v =>
    exact .ite (fun _ => hfault rfl) fun harmed => .ite (fun _ => hfault rfl) fun _ =>
      .answered 0 s.fault _ rfl fun h => absurd h harmed
  | fbGetFlat i => exact .ite (fun _ => .respond _) fun _ => hfault rfl
  | encodeColor f => exact .respond _
  | hostArm => exact .ite (fun _ => hfault rfl) fun harmed => .armed hop.symm (by simpa using harmed)
  | hostDisarm => exact .disarmed hop.symm
  | _ => cases hi

theorem hostPerform_outcome {t : State} (h : hostPerform r s = .next t) : HostOutcome r s t := by
  unfold hostPerform at h
  split at h
  · cases h
    exact .respondFault rfl
  · next i hd =>
    split_ifs at h with hi
    · cases (exec_eq_perform i s).symm.trans h
      exact perform_hostOutcome hi (decode_ok hd).1
    · cases h
      exact .respondFault rfl

end

/-! ### How `TCNT` counts -/

theorem Acts.cfg {s u : State} (hacts : Acts s u) (hr : InRange s) : u.cfg = s.cfg := by
  cases hacts with
  | running r hb =>
    obtain ⟨_, _, _, _, _, heq⟩ := handlerCycle_output (hr.running hb).1 s
    rw [heq]
  | dispatched k rest => exact (perform_effect (eventInstr k) { s with pend := rest }).cfg
  | served r hb hq hp t ht => exact (hostPerform_keepsScan ht).cfg
  | idle => rfl

theorem perform_event_keepsTimer (k : Phase) (s : State) :
    KeepsTimer s (perform (eventInstr k) s) :=
  perform_keepsTimer (by cases k <;> nofun) (by cases k <;> nofun) s

/-- Whatever the block does in a cycle keeps the mode and `TCNT`, or arms the timer at 0, or stops it
where it is (44_output_host R120, R121). -/
theorem Acts.timer {s u : State} (hacts : Acts s u) (hr : InRange s) :
    (u.armed = s.armed ∧ u.tcnt = s.tcnt) ∨ (s.armed = false ∧ u.armed = true ∧ u.tcnt = 0) ∨
      (u.armed = false ∧ u.tcnt = s.tcnt) := by
  cases hacts with
  | running r hb =>
    obtain ⟨_, _, _, _, _, heq⟩ := handlerCycle_output (hr.running hb).1 s
    rw [heq]
    exact .inl ⟨rfl, rfl⟩
  | dispatched k rest =>
    have hkeeps := perform_event_keepsTimer k { s with pend := rest }
    exact .inl ⟨hkeeps.armed, hkeeps.tcnt⟩
  | served r hb hq hp t ht =>
    cases hostPerform_outcome ht with
    | answered => exact .inl ⟨rfl, rfl⟩
    | armed hop ha => exact .inr (.inl ⟨ha, rfl, rfl⟩)
    | disarmed => exact .inr (.inr ⟨rfl, rfl⟩)
  | idle => exact .inl ⟨rfl, rfl⟩

/-- A step without reset: the block acts on the state after the compares, and the clock edge follows. -/
theorem step_acts {s : State} (ha : s.cfg.admitted = true) (hr : notReset s) :
    ∃ u, Acts (afterCompare s) u ∧ step s = .next (clockEdge s.armed u) := by
  obtain ⟨q, p, f, u, hcompare, hacts, hstep⟩ := step_cases ha hr
  exact ⟨u, hcompare ▸ hacts, hstep⟩

/-- While the timer runs it counts modulo `LINE_PERIOD` (60_exceptions R136). -/
theorem clockEdge_tcnt_armed {s : State} (h : s.armed = true) :
    (clockEdge true s).tcnt = (s.tcnt + 1) % s.cfg.linePeriod :=
  if_pos (by simp [h])

/-- In a cycle in which the timer starts or stops, or does not run, `TCNT` holds (log 17). -/
theorem clockEdge_tcnt_held {s : State} {wasArmed : Bool} (h : wasArmed = false ∨ s.armed = false) :
    (clockEdge wasArmed s).tcnt = s.tcnt :=
  if_neg (by rcases h with h | h <;> simp [h])

/-- Settles O50: the mode and `TCNT` after the block has acted, then the clock edge. -/
theorem timerCounts : Obligations.TimerCounts := by
  intro s h hr
  obtain ⟨u, hacts, hstep⟩ := step_acts h.admitted hr
  have hrange := afterCompare_inRange h
  have hcfg : u.cfg = s.cfg := (hacts.cfg hrange).trans (afterCompare_cfg s)
  have htimer := hacts.timer hrange
  rw [afterCompare_armed, afterCompare_tcnt] at htimer
  refine ⟨_, hstep, fun harmed (hu : u.armed = true) => ?_, fun harmed (hu : u.armed = false) => ?_,
    fun harmed (hu : u.armed = true) => ?_⟩
  · have htcnt : u.tcnt = s.tcnt := by simpa [harmed, hu] using htimer
    rw [harmed, clockEdge_tcnt_armed hu, htcnt, hcfg]
  · have htcnt : u.tcnt = s.tcnt := by simpa [harmed, hu] using htimer
    exact (clockEdge_tcnt_held (.inl harmed)).trans htcnt
  · have htcnt : u.tcnt = 0 := by simpa [harmed, hu] using htimer
    exact (clockEdge_tcnt_held (.inl harmed)).trans htcnt

/-! ### A cycle of a running handler and a cycle with nothing to do -/

/-- What a cycle takes off the wait of a pending event (60_exceptions R134; log 27). -/
def older (e : Pending) : Pending := { e with lat := e.lat - 1 }

theorem clockEdge_pend (wasArmed : Bool) (s : State) :
    (clockEdge wasArmed s).pend = s.pend.map older := rfl

/-- A step while a handler runs: the handler's cycle, then the clock edge. -/
theorem step_running {s : State} {r : Running} (ha : s.cfg.admitted = true) (hr : notReset s)
    (hb : s.busy = some r) :
    step s = .next (clockEdge s.armed (handlerCycle r (afterCompare s))) := by
  rw [step_of_notReset ha hr, act_running ((afterCompare_busy s).trans hb)]
  rfl

/-- Settles O51: the match of the one source, and under a running handler a step that keeps what the
compares made of `PEND` and `FAULT`. -/
theorem matchWhileBusy : Obligations.MatchWhileBusy := by
  refine ⟨fun s k harmed ht => ⟨fun hk => ?_, fun hk => ?_⟩, fun s k r h hr harmed ht hb => ?_⟩
  · exact (compareAll_match harmed ht).trans (matchSource_of_not_pending hk)
  · exact (compareAll_match harmed ht).trans (matchSource_of_pending hk)
  · obtain ⟨_, _, _, _, _, hout⟩ := handlerCycle_output (h.running hb).1 (afterCompare s)
    have hcompare := afterCompare_match (admitted_facts h.admitted) harmed ht
    have hpend := afterInput_pend s
    refine ⟨_, step_running h.admitted hr hb, fun hk => ?_, fun hk => ?_⟩ <;> rw [← hpend] at hk
    · rw [hout, hcompare, matchSource_of_not_pending hk]
      simp [clockEdge, hb]
    · rw [hout, hcompare, matchSource_of_pending hk]
      simp [clockEdge, hb]

/-- Where no request waits once the input is taken, none waited before. -/
theorem afterInput_of_no_request {s : State} (h : (afterInput s).request = none) :
    afterInput s = beginCycle s := by
  unfold afterInput latchRequest at h ⊢
  split at h
  · rfl
  · next hq =>
    have hnone : (currentInput s).req = none := h
    rw [hnone, ← hq]

/-- Settles O52: no compare matches, nothing is due and no request waits, so only the input is taken
and the clock edge follows. -/
theorem idleCycle : Obligations.IdleCycle := by
  intro s ha hr hm hb hdue hreq
  have hidle : act (afterInput s) = .next (afterInput s) := by
    rw [act_serve (by simpa using hb) (by simpa using hdue), serveHost, hreq]
  rw [step_of_notReset ha hr, afterCompare_noMatch hm, hidle, afterInput_of_no_request hreq]
  simp [clockEdge, beginCycle]

end Sys2Proof.Machine
end

section
/-! PROOFS. What the block does in one cycle (60_exceptions R130, R134, R135, R149): it starts a due event,
performs a waiting host request, or goes on with a running handler. -/

namespace Sys2Proof.Machine

/-! ### A dispatch -/

/-- What a cycle leaves of `BUSY` is the handler with one cycle less to go, or IDLE in its last one
(60_exceptions R135). -/
theorem handlerBusy_eq_some_iff {r r' : Running} {s : State} : handlerBusy r s = some r' ↔
    2 ≤ r.left ∧ r' = { r with left := r.left - 1, todo := handlerRest r s } := by
  unfold handlerBusy
  split_ifs with h
  · exact iff_of_false nofun fun h' => by omega
  · rw [Option.some_inj, eq_comm]
    exact (and_iff_right (by omega)).symm

theorem handlerBusy_eq_none_iff {r : Running} {s : State} : handlerBusy r s = none ↔ r.left ≤ 1 := by
  unfold handlerBusy
  split_ifs with h
  · exact iff_of_true rfl h
  · exact iff_of_false nofun h

theorem schedStep_resp (s : State) : (schedStep s).resp = s.resp := by
  obtain ⟨_, _, _, _, _, h⟩ := schedStep_frame s
  rw [h]

/-- An event answers no host request. -/
theorem perform_event_resp (k : Phase) (s : State) : (perform (eventInstr k) s).resp = s.resp := by
  cases k with
  | ss => rfl
  | bp =>
    change (backPorch s).resp = s.resp
    rcases backPorch_cases s with ⟨-, h⟩ | ⟨-, -, h⟩ | ⟨-, -, h⟩ <;> rw [h]
    exact schedStep_resp _
  | ad =>
    change (activeDraw s).resp = s.resp
    rcases activeDraw_cases s with ⟨-, h⟩ | ⟨-, -, -, h⟩ | ⟨-, -, -, h⟩ | ⟨-, -, h⟩ <;> rw [h]
  | fp => rfl

/-- The state the event of a dispatch leaves, at the event level. -/
def eventDone (k : Phase) (rest : List Pending) (s : State) : State :=
  perform (eventInstr k) { s with pend := rest }

theorem eventDone_keepsTimer (k : Phase) (rest : List Pending) (s : State) :
    KeepsTimer { s with pend := rest } (eventDone k rest s) :=
  perform_event_keepsTimer k _

theorem eventDone_cfg (k : Phase) (rest : List Pending) (s : State) :
    (eventDone k rest s).cfg = s.cfg :=
  (perform_effect (eventInstr k) { s with pend := rest }).cfg

theorem eventDone_resp (k : Phase) (rest : List Pending) (s : State) :
    (eventDone k rest s).resp = s.resp :=
  perform_event_resp k _

/-- A step that starts a handler: event entry on the state after the compares, then the clock edge. -/
theorem step_dispatch {s : State} {k : Phase} {rest : List Pending} (ha : s.cfg.admitted = true)
    (hr : notReset s) (harmed : s.armed = true) (hb : s.busy = none)
    (hp : (afterCompare s).pend = ⟨k, 0⟩ :: rest) :
    step s = andThen (dispatch k rest (afterCompare s)) fun t => .next (clockEdge true t) := by
  rw [step_of_notReset ha hr,
    act_dispatch ((afterCompare_busy s).trans hb) hp ((afterCompare_armed s).trans harmed), harmed]

/-- The state in which a handler that is dispatched takes its first cycle: the registers and cells of the
event, the output lines as they were, an empty trace (log 14). -/
def entered (k : Phase) (rest : List Pending) (s : State) : State :=
  { eventDone k rest s with
    hsync := s.hsync, vsync := s.vsync, color := s.color, trace := [],
    busy := some (started k rest s), draws := s.draws + 1 }

theorem dispatch_eq_handlerCycle (k : Phase) (rest : List Pending) (s : State) :
    dispatch k rest s = .next (handlerCycle (started k rest s) (entered k rest s)) :=
  dispatch_eq k rest s

/-- The state after a step that starts a handler. -/
def dispatched (k : Phase) (rest : List Pending) (s : State) : State :=
  clockEdge true
    (handlerCycle (started k rest (afterCompare s)) (entered k rest (afterCompare s)))

theorem step_eq_dispatched {s : State} {k : Phase} {rest : List Pending}
    (ha : s.cfg.admitted = true) (hr : notReset s) (harmed : s.armed = true) (hb : s.busy = none)
    (hp : (afterCompare s).pend = ⟨k, 0⟩ :: rest) : step s = .next (dispatched k rest s) := by
  rw [step_dispatch ha hr harmed hb hp, dispatch_eq_handlerCycle]
  rfl

/-- The first cycle of a handler changes the output lines, the trace, `BUSY` and the count of free values
of the state it entered in. -/
theorem dispatched_eq (k : Phase) (rest : List Pending) (s : State) : ∃ hs vs c tr d,
    dispatched k rest s = clockEdge true { entered k rest (afterCompare s) with
      hsync := hs, vsync := vs, color := c, trace := tr, draws := d,
      busy := handlerBusy (started k rest (afterCompare s)) (entered k rest (afterCompare s)) } := by
  obtain ⟨hs, vs, c, tr, d, h⟩ := handlerCycle_output (started_output k rest (afterCompare s))
    (entered k rest (afterCompare s))
  exact ⟨hs, vs, c, tr, d, congrArg (clockEdge true) h⟩

theorem dispatched_fault (k : Phase) (rest : List Pending) (s : State) :
    (dispatched k rest s).fault = (entered k rest (afterCompare s)).fault := by
  obtain ⟨_, _, _, _, _, h⟩ := dispatched_eq k rest s
  rw [h]
  rfl

theorem dispatched_pend (k : Phase) (rest : List Pending) (s : State) :
    (dispatched k rest s).pend = rest.map older := by
  obtain ⟨_, _, _, _, _, h⟩ := dispatched_eq k rest s
  rw [h]
  exact congrArg (List.map older) (eventDone_keepsTimer k rest (afterCompare s)).pend

theorem sameRegs_refl (s : State) : SameRegs s s := ⟨rfl, rfl, rfl, rfl, rfl, rfl, rfl, rfl, rfl, rfl⟩

/-- Settles O47: event entry keeps the mode, the timer and the ports, and the compares put a match after
what waited. -/
theorem stepStartsEvent : Obligations.StepStartsEvent := by
  refine ⟨fun s k rest ha hr harmed hb hp => ?_, fun s k rest => afterCompare_head,
    fun s k ha harmed hb hp ht => ?_⟩
  · obtain ⟨hs, vs, c, tr, d, heq⟩ := dispatched_eq k rest s
    have hstep := step_eq_dispatched ha hr harmed hb hp
    rw [heq] at hstep
    have htimer := eventDone_keepsTimer k rest (afterCompare s)
    have harmed' : (eventDone k rest (afterCompare s)).armed = true :=
      htimer.armed.trans ((afterCompare_armed s).trans harmed)
    refine ⟨_, eventDone k rest (afterCompare s), exec_eq_perform _ _, hstep,
      { sameRegs_refl _ with }, rfl, harmed', ?_, ?_, ?_, ?_, fun r hbusy => ?_⟩
    · exact (eventDone_resp k rest _).trans (afterCompare_resp s)
    · exact htimer.request.trans (afterCompare_request s)
    · refine (clockEdge_tcnt_armed ?_).trans ?_
      · exact harmed'
      · simp [entered, htimer.tcnt, eventDone_cfg]
    · exact congrArg (List.map older) htimer.pend
    · obtain ⟨-, rfl⟩ := handlerBusy_eq_some_iff.mp hbusy
      exact ⟨rfl, afterCompare_fb s⟩
  · rw [afterCompare_idle_match (admitted_facts ha) harmed ht hb hp]

/-! ### The host port -/

theorem act_of_not_dispatches {s : State} (hb : s.busy = none) (hd : ¬dispatches s) :
    act (afterCompare s) = serveHost (afterCompare s) :=
  act_serve ((afterCompare_busy s).trans hb) fun harmed k rest hp =>
    hd ⟨(afterCompare_armed s).symm.trans harmed, hb, k, rest, hp⟩

/-- A step that performs a waiting request: the request, then the clock edge. -/
theorem step_serves {s u : State} {r : HostReq} (ha : s.cfg.admitted = true) (hr : notReset s)
    (hb : s.busy = none) (hd : ¬dispatches s) (hreq : (afterInput s).request = some r)
    (hu : hostPerform r { afterCompare s with request := none } = .next u) :
    step s = .next (clockEdge s.armed u) := by
  rw [step_of_notReset ha hr, act_of_not_dispatches hb hd, serveHost, afterCompare_request, hreq]
  exact congrArg (andThen · fun t => .next (clockEdge s.armed t)) hu

/-- Settles O48: with no handler and no dispatch the block serves the host; otherwise it goes on with a
handler, which leaves the port alone. -/
theorem stepServesHost : Obligations.StepServesHost := by
  refine ⟨fun s r ha hr hb hd hreq => ?_, fun s h hr hbusy => ?_⟩
  · obtain ⟨u, hu⟩ := hostPerform_next r { afterCompare s with request := none }
    have hcfg : u.cfg = s.cfg := (hostPerform_keepsScan hu).cfg.trans (afterCompare_cfg s)
    refine ⟨u, hu, fun i hi hissuer => ?_, ?_⟩
    · rw [← hu]
      exact (hostPerform_of_host (by simpa using hi) hissuer).symm
    · rw [step_serves ha hr hb hd hreq hu]
      simp [clockEdge, hcfg]
  · rcases hb : s.busy with _ | r
    · obtain ⟨harmed, -, k, rest, hp⟩ := hbusy.resolve_left (not_not.mpr hb)
      obtain ⟨hs, vs, c, tr, d, heq⟩ := dispatched_eq k rest s
      have htimer := eventDone_keepsTimer k rest (afterCompare s)
      refine ⟨_, step_eq_dispatched h.admitted hr harmed hb hp, ?_⟩
      rw [heq]
      exact ⟨htimer.request.trans (afterCompare_request s),
        (eventDone_resp k rest _).trans (afterCompare_resp s)⟩
    · obtain ⟨_, _, _, _, _, hout⟩ := handlerCycle_output (h.running hb).1 (afterCompare s)
      refine ⟨_, step_running h.admitted hr hb, ?_⟩
      rw [hout]
      exact ⟨afterCompare_request s, afterCompare_resp s⟩

/-! ### A running handler -/

section
variable {todo : List Timed} (h : ∀ e ∈ todo.head?, e.wait ≠ 0)
include h

/-- Nothing is due while the first operation left still has to wait. -/
theorem performDue_of_waiting (s : State) : performDue todo s = s := by
  match todo with
  | [] => rfl
  | ⟨0, op⟩ :: rest => exact absurd rfl (h ⟨0, op⟩ rfl)
  | ⟨w + 1, op⟩ :: rest => rfl

theorem stillToDo_of_waiting :
    stillToDo todo = todo.modifyHead fun e => { e with wait := e.wait - 1 } := by
  match todo with
  | [] => rfl
  | ⟨0, op⟩ :: rest => exact absurd rfl (h ⟨0, op⟩ rfl)
  | ⟨w + 1, op⟩ :: rest => rfl

end

/-- A cycle without `BUDGET` that is not the last performs what is due. -/
theorem handlerCycle_due {r : Running} {s : State} (hleft : 2 ≤ r.left)
    (hbudget : hasFault s.fault .budget = false) : handlerCycle r s =
      { performDue r.todo s with
        busy := some { r with left := r.left - 1, todo := stillToDo r.todo } } := by
  have hnotLast : ¬r.left ≤ 1 := by omega
  simp [handlerCycle, handlerOps, handlerBusy, handlerRest, hnotLast, hbudget]

/-- The last cycle performs all that is left, and the handler returns (60_exceptions R134, R135). -/
theorem handlerCycle_last {r : Running} (hleft : r.left ≤ 1) (s : State) :
    handlerCycle r s = { performFirst r.todo.length r.todo s with busy := none } := by
  simp [handlerCycle, handlerOps, handlerBusy, hleft]

theorem clockEdge_eq (wasArmed : Bool) (s : State) : clockEdge wasArmed s = { s with
    tcnt := if wasArmed = true ∧ s.armed = true then (s.tcnt + 1) % s.cfg.linePeriod else s.tcnt
    pend := s.pend.map fun e => { e with lat := e.lat - 1 } } := by
  simp [clockEdge]

/-- Settles O49: what is due, or in the last cycle what is left, is the one operation. -/
theorem stepPerformsInternal : Obligations.StepPerformsInternal := by
  refine ⟨fun s r op rest ha hr hb htodo hleft hbudget hrest => ?_,
    fun s r w op ha hr hb htodo hleft => ?_⟩
  · have hdue : performDue r.todo (afterCompare s) = perform op (afterCompare s) := by
      rw [htodo, performDue, performDue_of_waiting hrest]
    have hrest' : stillToDo r.todo = rest.modifyHead fun e => { e with wait := e.wait - 1 } := by
      rw [htodo, stillToDo, stillToDo_of_waiting hrest]
    refine ⟨_, exec_eq_perform op _, ?_⟩
    rw [step_running ha hr hb, handlerCycle_due hleft hbudget, hdue, hrest', clockEdge_eq]
  · have hlast : performFirst r.todo.length r.todo (afterCompare s) = perform op (afterCompare s) := by
      rw [htodo]
      rfl
    refine ⟨_, exec_eq_perform op _, ?_⟩
    rw [step_running ha hr hb, handlerCycle_last hleft, hlast, clockEdge_eq]

end Sys2Proof.Machine
end

section
/-! PROOFS. The handler budgets of 00_scope R7 V9: under a valid configuration what is pending or running
ends before the next compare match (60_exceptions R138, R140, R141). -/

namespace Sys2Proof.Machine

/-! ### What is left to do, against the cycles left to do it in -/

/-- What is running or pending ends within `n` cycles: nothing; one event with its wait and its longest
handler; or a handler with nothing behind it. -/
inductive FitsIn (c : Params) (n : Nat) : Option Running → List Pending → Prop
  | idle : FitsIn c n none []
  | waits (e : Pending) (h : e.lat + c.durMax e.event ≤ n) : FitsIn c n none [e]
  | runs (r : Running) (hpos : 1 ≤ r.left) (h : r.left ≤ n) : FitsIn c n (some r) []

/-- On time is done before the next compare match. -/
theorem onTime_iff (s : State) : OnTime s ↔ FitsIn s.cfg (untilNext s.cfg s.tcnt) s.busy s.pend := by
  unfold OnTime
  constructor
  · intro h
    split at h
    · next hb hp => rw [hb, hp]; exact .idle
    · next e hb hp => rw [hb, hp]; exact .waits e h
    · next r hb hp => rw [hb, hp]; exact .runs r h.1 h.2
    · exact h.elim
  · intro h
    rcases hb : s.busy with _ | r <;> rcases hp : s.pend with _ | ⟨e, _ | ⟨e', l⟩⟩ <;>
      rw [hb, hp] at h <;> cases h
    · trivial
    · assumption
    · exact ⟨‹_›, ‹_›⟩

theorem FitsIn.nodup {c : Params} {n : Nat} {b : Option Running} {p : List Pending}
    (h : FitsIn c n b p) : (p.map (fun e => e.event)).Nodup := by
  cases h with
  | idle => exact List.nodup_nil
  | waits e => exact List.nodup_singleton e.event
  | runs => exact List.nodup_nil

/-- A handler that fits with one cycle more, after that cycle. -/
theorem fitsIn_handlerBusy {c : Params} {n : Nat} {r : Running} (h : r.left ≤ n + 1) (s : State) :
    FitsIn c n (handlerBusy r s) [] := by
  unfold handlerBusy
  split_ifs with hlast
  · exact .idle
  · exact .runs _ (by dsimp only; omega) (by dsimp only; omega)

/-- With nothing due, one cycle is one cycle less to wait. -/
theorem FitsIn.older {c : Params} {n : Nat} {p : List Pending} (h : FitsIn c (n + 1) none p)
    (hdue : ∀ k rest, p ≠ ⟨k, 0⟩ :: rest) : FitsIn c n none (p.map older) := by
  cases h with
  | idle => exact .idle
  | waits e he =>
    obtain ⟨k, lat⟩ := e
    have hlat : lat ≠ 0 := by rintro rfl; exact hdue k [] rfl
    exact .waits _ (by dsimp only [Machine.older] at he ⊢; omega)

/-! ### The next compare match -/

/-- The cycles from the match of `k` to the next match of `k'`. -/
theorem untilMatch_after_match {c : Params} (ha : Admitted c) (k k' : Phase) :
    untilMatch c k' ((c.off k + 1) % c.linePeriod) + 1 =
      if c.off k < c.off k' then c.off k' - c.off k else c.off k' + c.linePeriod - c.off k := by
  have hoff := off_lt ha k
  have hoff' := off_lt ha k'
  rw [untilMatch_eq ha k' (Nat.mod_lt _ (by omega))]
  obtain hwrap | hwrap : c.off k + 1 = c.linePeriod ∨ c.off k + 1 < c.linePeriod := by omega
  · rw [hwrap, Nat.mod_self]
    split_ifs <;> omega
  · rw [Nat.mod_eq_of_lt hwrap]
    split_ifs <;> omega

/-- The offset after `OFF_k` leaves room for the entry latency and the longest handler of `k` (00_scope
R7 V1, V9). -/
theorem fits_before_next_match {c : Params} (ha : Admitted c) (k : Phase) :
    c.entryLat + c.durMax k ≤ untilNext c ((c.off k + 1) % c.linePeriod) + 1 := by
  have hv1 := ha.v1
  have hv9 := ha.v9
  have hroom (k' : Phase) :
      c.entryLat + c.durMax k ≤ untilMatch c k' ((c.off k + 1) % c.linePeriod) + 1 := by
    rw [untilMatch_after_match ha]
    split_ifs with hlt <;> cases k <;> cases k' <;> simp only [Params.off, Params.durMax] at * <;>
      omega
  have hss := hroom .ss
  have hbp := hroom .bp
  have had := hroom .ad
  have hfp := hroom .fp
  unfold untilNext
  omega

/-- On time, the block is idle at every compare match. -/
theorem idle_of_match {s : State} {k : Phase} (hpos : positiveBudgets s.cfg) (h : OnTime s)
    (ht : s.tcnt = s.cfg.off k) : s.busy = none ∧ s.pend = [] := by
  have hzero : ¬1 ≤ untilNext s.cfg s.tcnt := fun hn => noMatch_of_untilNext hn k ht
  rw [onTime_iff] at h
  rcases hb : s.busy with _ | r <;> rcases hp : s.pend with _ | ⟨e, l⟩ <;> rw [hb, hp] at h <;>
    cases h
  · exact ⟨rfl, rfl⟩
  · have := hpos e.event
    omega
  · omega

/-- On time in RUN mode, what is left after the compares fits in this cycle and those before the next
match, and the compares raise no fault. -/
theorem fitsIn_afterCompare {s : State} (ha : Admitted s.cfg) (hpos : positiveBudgets s.cfg)
    (hlt : s.tcnt < s.cfg.linePeriod) (h : OnTime s) (harmed : s.armed = true) :
    FitsIn s.cfg (untilNext s.cfg ((s.tcnt + 1) % s.cfg.linePeriod) + 1) s.busy
      (afterCompare s).pend ∧ (afterCompare s).fault = s.fault := by
  by_cases hm : ∃ k, s.tcnt = s.cfg.off k
  · obtain ⟨k, ht⟩ := hm
    obtain ⟨hb, hp⟩ := idle_of_match hpos h ht
    rw [afterCompare_idle_match ha harmed ht hb hp, hb, ht]
    exact ⟨.waits _ (fits_before_next_match ha k), afterInput_fault s⟩
  · push Not at hm
    rw [afterCompare_noMatch fun _ => hm, untilNext_next ha hlt hm, afterInput_pend,
      afterInput_fault]
    exact ⟨(onTime_iff s).mp h, rfl⟩

/-! ### One cycle -/

/-- Whatever the block does in a cycle is one cycle nearer to the end of what is left to do. -/
theorem Acts.fitsIn {s u : State} (hacts : Acts s u) (hr : InRange s)
    (hdis : s.armed = false → s.pend = []) {n : Nat} (h : FitsIn s.cfg (n + 1) s.busy s.pend) :
    FitsIn s.cfg n u.busy (u.pend.map older) := by
  have hwait (hb : s.busy = none) (hp : s.armed = true → ∀ k rest, s.pend ≠ ⟨k, 0⟩ :: rest) :
      FitsIn s.cfg n s.busy (s.pend.map older) := by
    rw [hb] at h ⊢
    refine h.older fun k rest hdue => ?_
    by_cases harmed : s.armed = true
    · exact hp harmed k rest hdue
    · rw [hdis (by simpa using harmed)] at hdue
      cases hdue
  cases hacts with
  | running r hb =>
    obtain ⟨_, _, _, _, _, heq⟩ := handlerCycle_output (hr.running hb).1 s
    rw [heq]
    rw [hb] at h
    rcases hp : s.pend with _ | ⟨e, l⟩ <;> rw [hp] at h <;> cases h
    exact fitsIn_handlerBusy ‹_› s
  | dispatched k rest hb ha hp hs vs c tr d v =>
    rw [hb, hp] at h
    have hrest : rest = [] := by cases h; rfl
    have hleft : (started k rest s).left ≤ n + 1 := by
      cases h with
      | waits _ h => exact (busyTime_le ..).trans ((Nat.le_add_left _ _).trans h)
    have hpend : (perform (eventInstr k) { s with pend := rest }).pend = [] :=
      (perform_event_keepsTimer k { s with pend := rest }).pend.trans hrest
    dsimp only
    rw [hpend]
    exact fitsIn_handlerBusy hleft v
  | served r hb hq hp t ht =>
    cases hostPerform_outcome ht with
    | answered => exact hwait hb hp
    | armed => exact hb ▸ .idle
    | disarmed => exact hb ▸ .idle
  | idle hb hq hp => exact hwait hb hp

/-- In INIT mode after a cycle nothing is pending or running, as before it or since `HOST_DISARM`. -/
theorem Acts.disarmed {s u : State} (hacts : Acts s u) (hr : InRange s)
    (hdis : s.armed = false → s.pend = [] ∧ s.busy = none) (hu : u.armed = false) :
    u.pend = [] ∧ u.busy = none := by
  cases hacts with
  | running r hb =>
    obtain ⟨_, _, _, _, _, heq⟩ := handlerCycle_output (hr.running hb).1 s
    rw [heq] at hu
    cases hb.symm.trans (hdis hu).2
  | dispatched k rest hb ha =>
    have harmed := (perform_event_keepsTimer k { s with pend := rest }).armed
    cases (harmed.symm.trans hu).symm.trans ha
  | served r hb hq hp t ht =>
    cases hostPerform_outcome ht with
    | answered => exact hdis hu
    | armed => cases hu
    | disarmed => exact ⟨rfl, hb⟩
  | idle => exact hdis hu

/-- No handler and no host request raises `OVERRUN` or `BUDGET` (60_exceptions R131). -/
theorem Acts.timerFaults {s u : State} (hacts : Acts s u) (hr : InRange s) :
    u.fault &&& 0x30 = s.fault &&& 0x30 := by
  cases hacts with
  | running r hb =>
    obtain ⟨_, _, _, _, _, heq⟩ := handlerCycle_output (hr.running hb).1 s
    rw [heq]
  | dispatched k rest =>
    have hrange : InRange { s with pend := rest } := { hr with }
    exact congrArg (· &&& 0x30) (perform_event_fault hrange k)
  | served r hb hq hp t ht =>
    cases hostPerform_outcome ht with
    | answered v f m hf => exact hf
    | armed => rfl
    | disarmed => rfl
  | idle => rfl

/-- In INIT mode no source matches, so nothing is pending or running after the compares either. -/
theorem TimerInRange.afterCompare_disarmed {s : State} (ht : TimerInRange s)
    (h : (afterCompare s).armed = false) :
    (afterCompare s).pend = [] ∧ (afterCompare s).busy = none := by
  rw [afterCompare_armed] at h
  obtain ⟨hp, hb⟩ := ht.disarmed h
  have hnoMatch : noMatch s := fun harmed => by simp [h] at harmed
  rw [afterCompare_noMatch hnoMatch, afterInput_pend, afterInput_busy]
  exact ⟨hp, hb⟩

section
variable {s : State} (hpos : positiveBudgets s.cfg) (h : InRange s) (ht : TimerInRange s)
  (hot : OnTime s)
include hpos h ht hot

/-- On time the compares of a cycle raise no fault: neither `OVERRUN` nor `BUDGET`. -/
theorem afterCompare_fault_of_onTime : (afterCompare s).fault = s.fault := by
  cases harmed : s.armed
  · have hnoMatch : noMatch s := fun h' => by simp [harmed] at h'
    rw [afterCompare_noMatch hnoMatch, afterInput_fault]
  · exact (fitsIn_afterCompare (admitted_facts h.admitted) hpos ht.tcnt_lt hot harmed).2

/-- What is left after a cycle fits in the cycles before the next match of the counter's new value. -/
theorem fitsIn_after_cycle {u : State} (hacts : Acts (afterCompare s) u) :
    FitsIn s.cfg (untilNext s.cfg (clockEdge s.armed u).tcnt) u.busy (u.pend.map older) := by
  have hrange := afterCompare_inRange h
  have hdis := ht.afterCompare_disarmed
  rcases harmed : s.armed
  · obtain ⟨hp, hb⟩ := hdis ((afterCompare_armed s).trans harmed)
    refine afterCompare_cfg s ▸ hacts.fitsIn hrange (fun _ => hp) ?_
    rw [hp, hb]
    exact .idle
  · rcases hu : u.armed
    · obtain ⟨hp, hb⟩ := hacts.disarmed hrange hdis hu
      rw [hp, hb]
      exact .idle
    · have htimer := hacts.timer hrange
      have htcnt : u.tcnt = s.tcnt := by simpa [harmed, hu] using htimer
      have hfits :=
        (fitsIn_afterCompare (admitted_facts h.admitted) hpos ht.tcnt_lt hot harmed).1
      rw [clockEdge_tcnt_armed hu, hacts.cfg hrange, htcnt, afterCompare_cfg]
      refine afterCompare_cfg s ▸ hacts.fitsIn hrange (fun h => (hdis h).1) ?_
      rwa [afterCompare_busy, afterCompare_cfg]

/-- A cycle without reset keeps the timer in range and on time, and raises neither `OVERRUN` nor
`BUDGET`. -/
theorem step_onTime (hr : notReset s) : ∃ t, step s = .next t ∧ TimerInRange t ∧ OnTime t ∧
    t.fault &&& 0x30 = s.fault &&& 0x30 := by
  obtain ⟨u, hacts, hstep⟩ := step_acts h.admitted hr
  have hrange := afterCompare_inRange h
  have hcfg : u.cfg = s.cfg := (hacts.cfg hrange).trans (afterCompare_cfg s)
  have hfits := fitsIn_after_cycle hpos h ht hot hacts
  have htcnt : u.tcnt = s.tcnt ∨ u.tcnt = 0 := by
    have htimer := hacts.timer hrange
    rw [afterCompare_tcnt] at htimer
    tauto
  have hfault := hacts.timerFaults hrange
  rw [afterCompare_fault_of_onTime hpos h ht hot] at hfault
  refine ⟨_, hstep, ⟨?_, hfits.nodup, fun hu => ?_⟩, (onTime_iff _).mpr ?_, hfault⟩
  · change (if _ then (u.tcnt + 1) % u.cfg.linePeriod else u.tcnt) < u.cfg.linePeriod
    have hlt := ht.tcnt_lt
    rw [hcfg]
    split_ifs
    · exact Nat.mod_lt _ (by omega)
    · omega
  · obtain ⟨hp, hb⟩ := hacts.disarmed hrange ht.afterCompare_disarmed hu
    exact ⟨(clockEdge_pend _ u).trans (by rw [hp]; rfl), hb⟩
  · exact hcfg.symm ▸ hfits

end

theorem timerInRange_resetCycle {s : State} (ha : Admitted s.cfg) : TimerInRange (resetCycle s) :=
  { timerInRange_resetOf ha with }

/-- Settles O56: on time is idle at a match, and a cycle keeps what is left to do within the cycles left
before the next match. -/
theorem budgetsKept : Obligations.BudgetsKept := by
  intro s hvalid hpos h ht hot
  have hadm := admitted_of_valid hvalid
  refine ⟨fun k _ hmatch => idle_of_match hpos hot hmatch, ?_⟩
  by_cases hr : notReset s
  · obtain ⟨t, hstep, htimer, htime, hfault⟩ := step_onTime hpos h ht hot hr
    exact ⟨t, hstep, htimer, htime, fun _ => hfault⟩
  · exact ⟨_, step_of_reset hadm (by simpa [notReset] using hr),
      timerInRange_resetCycle (admitted_facts hadm), trivial, fun hn => absurd hn hr⟩

end Sys2Proof.Machine
end

section
/-! PROOFS. What the host can learn of the timer (60_exceptions R143), the faults of the events (R131) and
the busy time of a handler run (R139). -/

namespace Sys2Proof.Machine

/-! ### The host and the timer -/

/-- Two states give the host the same: the answer, `FAULT` and the Frame Buffer. -/
structure SameAnswer (s t : State) : Prop where
  resp : t.resp = s.resp
  fault : t.fault = s.fault
  fb : t.fb = s.fb

theorem SameAnswer.ite {t t' u u' : State} {p : Prop} [Decidable p] (ht : SameAnswer t t')
    (hu : SameAnswer u u') : SameAnswer (if p then t else u) (if p then t' else u') := by
  split_ifs
  · exact ht
  · exact hu

/-- The state with other values in the line counter, the scheduler registers and `TCNT`. -/
def withScan (line row px widx hold cur tcnt : Nat) (vact : Bool) (s : State) : State :=
  { s with line := line, vact := vact, row := row, pixelX := px, widx := widx, holdCnt := hold,
           cur := cur, tcnt := tcnt }

section
variable (line row px widx hold cur tcnt : Nat) (vact : Bool) (s : State)

/-- No host operation reads the line counter, the scheduler registers or `TCNT`. -/
theorem perform_host_sameAnswer {i : Instr} (hi : issuer i = .host) :
    SameAnswer (perform i s) (perform i (withScan line row px widx hold cur tcnt vact s)) := by
  cases i with
  | fbGet x y => exact .ite ⟨rfl, rfl, rfl⟩ ⟨rfl, rfl, rfl⟩
  | fbSet x y v =>
    exact .ite ⟨rfl, rfl, rfl⟩ (.ite ⟨rfl, rfl, rfl⟩ (.ite ⟨rfl, rfl, rfl⟩ ⟨rfl, rfl, rfl⟩))
  | fbFill v => exact .ite ⟨rfl, rfl, rfl⟩ (.ite ⟨rfl, rfl, rfl⟩ ⟨rfl, rfl, rfl⟩)
  | fbGetFlat j => exact .ite ⟨rfl, rfl, rfl⟩ ⟨rfl, rfl, rfl⟩
  | encodeColor f => exact ⟨rfl, rfl, rfl⟩
  | hostArm => exact .ite ⟨rfl, rfl, rfl⟩ ⟨rfl, rfl, rfl⟩
  | hostDisarm => exact ⟨rfl, rfl, rfl⟩
  | _ => cases hi

theorem hostPerform_of_error {r : HostReq} {s : State} {e : DecodeError}
    (hd : decode s.cfg r.op (hostOperands r) = .error e) :
    hostPerform r s = .next (respondFault .illegal s) := by
  unfold hostPerform
  rw [hd]

theorem hostPerform_of_not_host {r : HostReq} {s : State} {i : Instr}
    (hd : decode s.cfg r.op (hostOperands r) = .ok i) (hi : issuer i ≠ .host) :
    hostPerform r s = .next (respondFault .illegal s) := by
  unfold hostPerform
  rw [hd]
  exact if_neg hi

theorem hostPerform_sameAnswer (r : HostReq) : ∃ t t', hostPerform r s = .next t ∧
    hostPerform r (withScan line row px widx hold cur tcnt vact s) = .next t' ∧
    SameAnswer t t' := by
  rcases hd : decode s.cfg r.op (hostOperands r) with e | i
  · exact ⟨_, _, hostPerform_of_error hd, hostPerform_of_error hd, rfl, rfl, rfl⟩
  · by_cases hi : issuer i = .host
    · refine ⟨_, _, (hostPerform_of_host hd hi).trans (exec_eq_perform i s), ?_,
        perform_host_sameAnswer line row px widx hold cur tcnt vact s hi⟩
      exact (hostPerform_of_host (s := withScan line row px widx hold cur tcnt vact s) hd hi).trans
        (exec_eq_perform i _)
    · exact ⟨_, _, hostPerform_of_not_host hd hi, hostPerform_of_not_host hd hi, rfl, rfl, rfl⟩

end

/-- Settles O38: the same request is performed in both states, and only `HOST_ARM` writes `TCNT`. -/
theorem hostCannotReadTimer : Obligations.HostCannotReadTimer := by
  intro s r line row px widx hold cur tcnt vact
  obtain ⟨t, t', ht, ht', hsame⟩ :=
    hostPerform_sameAnswer line row px widx hold cur tcnt vact s r
  refine ⟨t, t', ht, ht', hsame.resp, hsame.fault, hsame.fb, fun hop => ?_⟩
  cases hostPerform_outcome ht with
  | answered => rfl
  | armed harm => exact absurd harm hop
  | disarmed => rfl

/-! ### Faults of the events -/

/-- Settles O40: in range the palette index and the row of a drawn line have a word and a row. -/
theorem eventsRaiseNoFault : Obligations.EventsRaiseNoFault := fun s k h =>
  ⟨⟨_, exec_eq_perform _ s, perform_event_fault h k⟩,
    _, exec_eq_perform .schedStep s, schedStep_fault h.widx_lt⟩

/-! ### The busy time -/

/-- The cycles from the start of a handler to its last output operation. -/
def totalWait (todo : List Timed) : Nat := (todo.map (·.wait)).sum

/-- A hold, or a colour, and what is scheduled after it. -/
theorem totalWait_pad (w k : Nat) (rest : List Instr) :
    totalWait (withWaits w (.pad k :: rest)) = w + totalWait (withWaits k rest) := rfl

theorem totalWait_outColor (w : Nat) (v : Pixel) (rest : List Instr) :
    totalWait (withWaits w (.outColor v :: rest)) = w + totalWait (withWaits 0 rest) := rfl

/-- The first wait of a trace that is not empty counts once. -/
theorem totalWait_withWaits (w : Nat) {tr : List Instr} (h : tr ≠ []) :
    totalWait (withWaits w tr) = w + totalWait (withWaits 0 tr) := by
  match tr with
  | op :: rest =>
    change w + _ = w + (0 + _)
    rw [Nat.zero_add]

/-- A streaming loop takes `PIXEL_CYCLES` for each pixel (42_scan_timing R99). -/
theorem totalWait_streamTrace (px : Nat → Pixel) (cycles count x w : Nat) {tail : List Instr}
    (h : tail ≠ []) : totalWait (withWaits w (streamTrace px cycles count x ++ tail)) =
      w + count * cycles + totalWait (withWaits 0 tail) := by
  induction count generalizing x w with
  | zero => exact (totalWait_withWaits w h).trans (by rw [Nat.zero_mul, Nat.add_zero])
  | succ n ih =>
    rw [streamTrace, List.cons_append, List.cons_append, totalWait_outColor, totalWait_pad, ih]
    ring

/-- The drawing of a line takes the borders, the pixels and the final blanking (60_exceptions R139). -/
theorem outputCycles_drawTrace (c : Params) (px : Nat → Pixel) :
    outputCycles (schedule c .ad (drawTrace c px)) = c.drawCycles := by
  change totalWait (withWaits c.latAd (drawTrace c px)) + 1 = c.drawCycles
  rw [drawTrace_eq, totalWait_outColor, totalWait_pad, totalWait_streamTrace _ _ _ _ _ (by simp),
    totalWait_outColor, totalWait_pad, totalWait_outColor]
  simp only [withWaits, totalWait, List.map_nil, List.sum_nil, Params.drawCycles]
  ring

/-- A busy time covers the output operations as far as `DUR_MAX_k` allows (60_exceptions R139). -/
theorem le_busyTime {c : Params} {k : Phase} {todo : List Timed} {n : Nat}
    (h : n ≤ max (c.durMin k) (outputCycles todo)) (hmax : n ≤ c.durMax k) (draw : Nat) :
    n ≤ busyTime c k todo draw :=
  (le_min h hmax).trans (Nat.le_add_right _ _)

/-- In range with video active `EV_AD` draws a line (42_scan_timing R100, R101). -/
theorem activeDraw_trace_of_active {s : State} (h : InRange s) (hv : s.vact = true) :
    ∃ px, (activeDraw s).trace = drawTrace s.cfg px := by
  by_cases hband : s.cfg.bandTop ≤ s.line ∧ s.line < s.cfg.bandBot
  · have hvis : s.line < s.cfg.v := of_decide_eq_true (h.vact_eq.symm.trans hv)
    have hrow : s.row < s.cfg.h :=
      h.row_eq hvis ▸ row_lt_of_visible (admitted_facts h.admitted) hvis
    rw [activeDraw_interior hv ((isInterior_iff _ _).mpr hband) hrow]
    exact ⟨_, rfl⟩
  · rw [activeDraw_border hv hband]
    exact ⟨_, rfl⟩

theorem drawCycles_le_started {s : State} {rest : List Pending} (h : InRange s)
    (hv : s.vact = true) : s.cfg.drawCycles ≤ (started .ad rest s).left := by
  have hrange : InRange { s with pend := rest } := { h with }
  obtain ⟨px, hpx⟩ := activeDraw_trace_of_active hrange hv
  have htodo : (started .ad rest s).todo = schedule s.cfg .ad (drawTrace s.cfg px) :=
    congrArg (schedule s.cfg .ad) hpx
  have hcycles : outputCycles (started .ad rest s).todo = s.cfg.drawCycles := by
    rw [htodo, outputCycles_drawTrace]
  exact le_busyTime (k := .ad) (le_max_of_le_right hcycles.ge) (admitted_facts h.admitted).v10 _

/-- Settles O53: the draw lies between the bounds, and what is left after the first cycle is one less. -/
theorem busyTimeBounds : Obligations.BusyTimeBounds := by
  intro s k rest hvalid h hdur hr harmed hb hp
  have hcfg := afterCompare_cfg s
  have hle : (started k rest (afterCompare s)).left ≤ s.cfg.durMax k :=
    hcfg ▸ busyTime_le (afterCompare s).cfg k _ _
  have hge : s.cfg.durMin k ≤ (started k rest (afterCompare s)).left :=
    le_busyTime (le_max_of_le_left (hcfg ▸ le_rfl)) (hcfg ▸ hdur) _
  have hdraw (hk : k = .ad) (hv : s.vact = true) :
      s.cfg.latAd + 2 * s.cfg.borderCycles + s.cfg.w * s.cfg.pixelCycles + 1 ≤
        (started k rest (afterCompare s)).left := by
    subst hk
    have := drawCycles_le_started (rest := rest) (afterCompare_inRange h)
      ((afterCompare_vact s).trans hv)
    rwa [afterCompare_cfg] at this
  refine ⟨_, step_eq_dispatched h.admitted hr harmed hb hp, fun r hbusy => ?_, fun hbusy => ?_⟩
  · obtain ⟨htwo, rfl⟩ := handlerBusy_eq_some_iff.mp hbusy
    dsimp only
    rw [Nat.sub_add_cancel (by omega)]
    exact ⟨rfl, hle, hge, hdraw⟩
  · have hone := handlerBusy_eq_none_iff.mp hbusy
    exact ⟨hge.trans hone, fun hk hv => (hdraw hk hv).trans hone⟩

end Sys2Proof.Machine
end

section
/-! PROOFS. The line trace and the registers of an event depend on the registers alone, not on what waits
at the ports or in `PEND` (00_scope R12). -/

namespace Sys2Proof.Machine

theorem SameRegs.symm {s t : State} (h : SameRegs s t) : SameRegs t s :=
  ⟨h.cfg.symm, h.line.symm, h.vact.symm, h.row.symm, h.pixelX.symm, h.widx.symm, h.holdCnt.symm,
    h.cur.symm, h.fb.symm, h.view.symm⟩

theorem SameRegs.trans {s t u : State} (h : SameRegs s t) (h' : SameRegs t u) : SameRegs s u :=
  ⟨h.cfg.trans h'.cfg, h.line.trans h'.line, h.vact.trans h'.vact, h.row.trans h'.row,
    h.pixelX.trans h'.pixelX, h.widx.trans h'.widx, h.holdCnt.trans h'.holdCnt, h.cur.trans h'.cur,
    h.fb.trans h'.fb, h.view.trans h'.view⟩

/-- Two events left the same registers, cells and line trace. -/
structure SameEvent (s t : State) : Prop extends SameRegs s t where
  trace : s.trace = t.trace

theorem schedStep_trace (s : State) : (schedStep s).trace = s.trace := by
  obtain ⟨_, _, _, _, _, h⟩ := schedStep_frame s
  rw [h]

section
variable {s s' : State} (h : SameRegs s s')
include h

theorem SameRegs.chunkEnd : chunkEnd s = chunkEnd s' := by
  rw [Machine.chunkEnd, Machine.chunkEnd, h.cur, h.cfg]

theorem SameRegs.chunkWrite {before before' : State} (hb : SameRegs before before') :
    SameRegs (chunkWrite before s) (chunkWrite before' s') := by
  have hend := h.chunkEnd
  by_cases hc : s.cur < Machine.chunkEnd s
  · have hc' : s'.cur < Machine.chunkEnd s' := by rwa [← hend, ← h.cur]
    rcases hv : palPx s.cfg s.widx with _ | v
    · have hv' : palPx s'.cfg s'.widx = none := by rwa [← h.cfg, ← h.widx]
      rw [chunkWrite_none hc hv, chunkWrite_none hc' hv']
      exact { hb with }
    · have hv' : palPx s'.cfg s'.widx = some v := by rwa [← h.cfg, ← h.widx]
      rw [chunkWrite_some hc hv, chunkWrite_some hc' hv', hend, h.cur, h.fb]
      exact { h with cur := rfl, fb := rfl }
  · have hc' : ¬s'.cur < Machine.chunkEnd s' := by rwa [← hend, ← h.cur]
    rw [chunkWrite_empty hc, chunkWrite_empty hc', hend]
    exact { h with cur := rfl }

theorem SameRegs.schedStep : SameRegs (schedStep s) (schedStep s') := by
  unfold Machine.schedStep
  simp only [h.line, h.cfg, h.holdCnt, h.cur, h.widx]
  split_ifs
  · exact { h with cfg := rfl, line := rfl, holdCnt := rfl, cur := rfl, widx := rfl }
  · refine SameRegs.chunkWrite ?_ h
    exact { h with cfg := rfl, line := rfl, holdCnt := rfl, cur := rfl, widx := rfl }
  · exact h.chunkWrite h
  · exact h

theorem SameRegs.beforeSchedule : SameRegs (beforeSchedule s) (beforeSchedule s') := by
  unfold Machine.beforeSchedule
  exact { h with
    line := congrArg (· + 1) h.line
    row := by dsimp only; rw [h.line, h.cfg]
    vact := by dsimp only; rw [h.line, h.cfg, h.vact] }

theorem SameRegs.backPorch : SameEvent (backPorch s) (backPorch s') := by
  have hline : s.line + 1 = s'.line + 1 := congrArg (· + 1) h.line
  have hrow : (s.line + 1) / s.cfg.lpr = (s'.line + 1) / s'.cfg.lpr := by rw [hline, h.cfg]
  have htrace : Instr.outSyncSet .horizontal :: markerTrace s.cfg (s.line + 1) =
      .outSyncSet .horizontal :: markerTrace s'.cfg (s'.line + 1) := by rw [hline, h.cfg]
  by_cases hvis : s.line + 1 < s.cfg.v
  · have hvis' : s'.line + 1 < s'.cfg.v := by rwa [← hline, ← h.cfg]
    rw [backPorch_visible hvis, backPorch_visible hvis']
    exact { h with line := hline, row := hrow, trace := rfl }
  · have hv : s.cfg.v ≤ s.line + 1 := Nat.le_of_not_lt hvis
    have hv' : s'.cfg.v ≤ s'.line + 1 := by rwa [← hline, ← h.cfg]
    by_cases ht : s.line + 1 = s.cfg.t
    · have ht' : s'.line + 1 = s'.cfg.t := by rwa [← hline, ← h.cfg]
      rw [backPorch_frameEnd hv ht, backPorch_frameEnd hv' ht']
      exact { h with line := rfl, row := rfl, vact := rfl, trace := htrace }
    · have ht' : s'.line + 1 ≠ s'.cfg.t := by rwa [← hline, ← h.cfg]
      rw [backPorch_schedules hv ht, backPorch_schedules hv' ht']
      exact ⟨h.beforeSchedule.schedStep, (schedStep_trace _).trans <|
        htrace.trans (schedStep_trace (Machine.beforeSchedule s')).symm⟩

theorem SameRegs.activeDraw : SameEvent (activeDraw s) (activeDraw s') := by
  have hcells : viewCell s s.row = viewCell s' s'.row := by
    funext x
    rw [viewCell, viewCell, cellAt, cellAt, h.cfg, h.fb, h.row]
  rcases hv : s.vact
  · have hv' : s'.vact = false := h.vact.symm.trans hv
    rw [activeDraw_inactive hv, activeDraw_inactive hv']
    exact { h with trace := rfl }
  · have hv' : s'.vact = true := h.vact.symm.trans hv
    by_cases hband : s.cfg.bandTop ≤ s.line ∧ s.line < s.cfg.bandBot
    · have hi := (isInterior_iff _ _).mpr hband
      have hi' : isInterior s'.cfg s'.line = true := by rwa [← h.cfg, ← h.line]
      by_cases hr : s.row < s.cfg.h
      · have hr' : s'.row < s'.cfg.h := by rwa [← h.row, ← h.cfg]
        rw [activeDraw_interior hv hi hr, activeDraw_interior hv' hi' hr', hcells, h.cfg]
        exact { h with cfg := rfl, pixelX := rfl, trace := rfl }
      · have hr' : ¬s'.row < s'.cfg.h := by rwa [← h.row, ← h.cfg]
        rw [activeDraw_rowOutOfRange hv hi (Nat.le_of_not_lt hr),
          activeDraw_rowOutOfRange hv' hi' (Nat.le_of_not_lt hr'), h.cfg]
        exact { h with cfg := rfl, trace := rfl }
    · have hband' : ¬(s'.cfg.bandTop ≤ s'.line ∧ s'.line < s'.cfg.bandBot) := by
        rwa [← h.cfg, ← h.line]
      rw [activeDraw_border hv hband, activeDraw_border hv' hband', h.cfg]
      exact { h with cfg := rfl, pixelX := rfl, trace := rfl }

/-- From the same registers an event leaves the same registers and the same line trace. -/
theorem SameRegs.event (k : Phase) :
    SameEvent (perform (eventInstr k) s) (perform (eventInstr k) s') := by
  cases k with
  | ss => exact { h with trace := rfl }
  | bp => exact h.backPorch
  | ad => exact h.activeDraw
  | fp => exact { h with trace := rfl }

/-- From the same output lines it leaves the same output lines too. -/
theorem SameRegs.event_sameOutputs (ho : SameOutputs s s') (k : Phase) :
    SameOutputs (perform (eventInstr k) s) (perform (eventInstr k) s') := by
  obtain ⟨t, t', ht, ht', hout⟩ := sameTraceSameOutputs s s' k k ho
  cases (exec_eq_perform _ s).symm.trans ht
  cases (exec_eq_perform _ s').symm.trans ht'
  exact hout (h.event k).trace

end

end Sys2Proof.Machine
end

section
/-! PROOFS. A handler run at the cycle level against its event operation (60_exceptions R142, 00_scope R12):
what is left of the run always leads to the outputs and the line trace of the event. -/

namespace Sys2Proof.Machine

/-! ### The output operations of a run -/

theorem execAll_next (l : List Instr) (s : State) : ∃ t, execAll l s = .next t := by
  induction l generalizing s with
  | nil => exact ⟨s, rfl⟩
  | cons i l ih => exact execAll_cons i l s ▸ ih _

/-- Output operations change the output lines and append themselves to the trace. -/
theorem execAll_output {l : List Instr} (h : l.all isOutput = true) {s t : State}
    (ht : execAll l s = .next t) : ∃ hs vs c,
    t = { s with hsync := hs, vsync := vs, color := c, trace := s.trace ++ l } := by
  induction l generalizing s with
  | nil =>
    cases ht
    exact ⟨_, _, _, by rw [List.append_nil]⟩
  | cons i l ih =>
    simp only [List.all_cons, Bool.and_eq_true] at h
    rw [execAll_cons] at ht
    obtain ⟨_, _, _, hi⟩ := perform_output h.1 s
    obtain ⟨hs, vs, c, heq⟩ := ih h.2 ht
    exact ⟨hs, vs, c, by rw [heq, hi, List.append_assoc]; rfl⟩

theorem map_op_withWaits (w : Nat) (tr : List Instr) : (withWaits w tr).map (·.op) = tr := by
  induction tr generalizing w with
  | nil => rfl
  | cons op rest ih => exact congrArg (op :: ·) (ih _)

/-- A schedule holds the operations of its trace, in order (44_output_host R119). -/
theorem map_op_schedule (c : Params) (k : Phase) (tr : List Instr) :
    (schedule c k tr).map (·.op) = tr := by
  cases k with
  | ss => exact map_op_withWaits _ tr
  | bp =>
    cases tr with
    | nil => rfl
    | cons op rest => exact congrArg (op :: ·) (map_op_withWaits _ rest)
  | ad => exact map_op_withWaits _ tr
  | fp => exact map_op_withWaits _ tr

/-- The operations due and those still to come are the operations left. -/
theorem execAll_performDue (todo : List Timed) (s : State) : ∃ now,
    todo.map (·.op) = now ++ (stillToDo todo).map (·.op) ∧
      execAll now s = .next (performDue todo s) := by
  induction todo generalizing s with
  | nil => exact ⟨[], rfl, rfl⟩
  | cons e rest ih =>
    obtain ⟨w, op⟩ := e
    cases w with
    | zero =>
      obtain ⟨now, hsplit, hnow⟩ := ih (perform op s)
      exact ⟨op :: now, congrArg (op :: ·) hsplit, (execAll_cons op now s).trans hnow⟩
    | succ w => exact ⟨[], rfl, rfl⟩

theorem execAll_performFirst (todo : List Timed) (s : State) :
    execAll (todo.map (·.op)) s = .next (performFirst todo.length todo s) := by
  induction todo generalizing s with
  | nil => rfl
  | cons e rest ih => exact (execAll_cons e.op _ s).trans (ih _)

/-- The operations a handler has left to perform; none when `BUSY` is IDLE. -/
def opsLeft : Option Running → List Instr
  | none => []
  | some r => r.todo.map (·.op)

/-- A cycle of a handler, its last one or one without `BUDGET`, performs some of its operations in order
and leaves the others. -/
theorem handlerCycle_ops {r : Running} {s : State}
    (h : r.left ≤ 1 ∨ hasFault s.fault .budget = false) : ∃ now t,
    r.todo.map (·.op) = now ++ opsLeft (handlerBusy r s) ∧ execAll now s = .next t ∧
      handlerCycle r s = { t with busy := handlerBusy r s } := by
  by_cases hleft : r.left ≤ 1
  · have hidle : handlerBusy r s = none := handlerBusy_eq_none_iff.mpr hleft
    refine ⟨_, _, ?_, execAll_performFirst r.todo s, ?_⟩
    · rw [hidle, opsLeft, List.append_nil]
    · rw [handlerCycle_last hleft, hidle]
  · have hbudget := h.resolve_left hleft
    obtain ⟨now, hsplit, hnow⟩ := execAll_performDue r.todo s
    have hbusy : handlerBusy r s =
        some { r with left := r.left - 1, todo := stillToDo r.todo } := by
      simp [handlerBusy, handlerRest, hleft, hbudget]
    exact ⟨now, _, by rw [hsplit, hbusy]; rfl, hnow, by
      rw [handlerCycle_due (by omega) hbudget, hbusy]⟩

/-! ### What a run leads to -/

/-- The registers of `t` are those of `u`, and the operations its handler has left lead to the outputs
and the line trace of `u`. -/
structure RunLeadsTo (u t : State) : Prop where
  regs : SameRegs t u
  trace : t.trace ++ opsLeft t.busy = u.trace
  outputs : ∃ v, execAll (opsLeft t.busy) t = .next v ∧ SameOutputs v u
  isOutput : (opsLeft t.busy).all isOutput = true

section
variable {u t : State} (h : RunLeadsTo u t)
include h

/-- A run that has ended has led there. -/
theorem RunLeadsTo.ended (hb : t.busy = none) : SameOutputs t u ∧ t.trace = u.trace := by
  obtain ⟨v, hv, hout⟩ := h.outputs
  have htrace := h.trace
  rw [hb] at hv htrace
  cases hv
  exact ⟨hout, by rwa [opsLeft, List.append_nil] at htrace⟩

/-- Only the registers, the output lines, the trace and `BUSY` matter. -/
theorem RunLeadsTo.of_same {t' : State} (hr : SameRegs t' t) (ho : SameOutputs t t')
    (hb : t'.busy = t.busy) (htr : t'.trace = t.trace) : RunLeadsTo u t' where
  regs := hr.trans h.regs
  trace := by rw [hb, htr]; exact h.trace
  outputs := by
    obtain ⟨v, hv, hout⟩ := h.outputs
    obtain ⟨v', hv'⟩ := execAll_next (opsLeft t'.busy) t'
    rw [hb] at hv' ⊢
    exact ⟨v', hv', (ho.execAll_output h.isOutput hv hv').symm.trans hout⟩
  isOutput := by rw [hb]; exact h.isOutput

/-- What `u` is may be replaced by a state with the same registers, outputs and line trace. -/
theorem RunLeadsTo.congr {u' : State} (he : SameEvent u u') (ho : SameOutputs u u') :
    RunLeadsTo u' t where
  regs := h.regs.trans he.toSameRegs
  trace := h.trace.trans he.trace
  outputs := by
    obtain ⟨v, hv, hout⟩ := h.outputs
    exact ⟨v, hv, hout.trans ho⟩
  isOutput := h.isOutput

/-- A cycle of the handler, its last one or one without `BUDGET`, leads on to the same. -/
theorem RunLeadsTo.handlerCycle {r : Running} (hb : t.busy = some r)
    (hok : r.left ≤ 1 ∨ hasFault t.fault .budget = false) : RunLeadsTo u (handlerCycle r t) := by
  obtain ⟨now, v, hsplit, hnow, hcycle⟩ := handlerCycle_ops hok
  obtain ⟨w, hw, hout⟩ := h.outputs
  have htrace := h.trace
  have hall := h.isOutput
  rw [hb, opsLeft, hsplit] at hw htrace hall
  rw [List.all_append, Bool.and_eq_true] at hall
  obtain ⟨hs, vs, c, heq⟩ := execAll_output hall.1 hnow
  rw [execAll_append, hnow] at hw
  rw [hcycle]
  obtain ⟨w', hw'⟩ := execAll_next (opsLeft (handlerBusy r t)) { v with busy := handlerBusy r t }
  refine ⟨?_, ?_, ⟨w', hw', ?_⟩, hall.2⟩
  · rw [heq]
    exact { h.regs with }
  · rw [← htrace, heq, ← List.append_assoc]
  · have hsame : SameOutputs v { v with busy := handlerBusy r t } := { sameOutputs_refl v with }
    exact (hsame.execAll_output hall.2 hw hw').symm.trans hout

end

/-! ### Event entry -/

/-- Event entry starts a run that leads to what the event leaves (60_exceptions R134). -/
theorem runLeadsTo_entered (k : Phase) (rest : List Pending) (s : State) :
    RunLeadsTo (eventDone k rest s) (entered k rest s) := by
  have hops : opsLeft (entered k rest s).busy = (eventDone k rest s).trace :=
    map_op_schedule s.cfg k _
  have hall : (eventDone k rest s).trace.all isOutput = true := event_trace_output k _
  obtain ⟨v, hv, hout⟩ := traceDrives_event k { s with pend := rest }
  obtain ⟨v', hv'⟩ := execAll_next (eventDone k rest s).trace (entered k rest s)
  have hlines : SameOutputs { s with pend := rest } (entered k rest s) := ⟨rfl, rfl, rfl⟩
  exact ⟨{ sameRegs_refl _ with }, hops,
    ⟨v', hops.symm ▸ hv', (hlines.execAll_output hall hv hv').symm.trans hout⟩, hops ▸ hall⟩

/-- Before the block acts, a cycle leaves the registers, the output lines and the trace alone. -/
theorem sameRegs_afterCompare (s : State) : SameRegs (afterCompare s) s := by
  obtain ⟨_, _, h⟩ := afterCompare_eq s
  rw [h]
  exact { sameRegs_refl s with }

theorem sameOutputs_afterCompare (s : State) : SameOutputs s (afterCompare s) := by
  obtain ⟨_, _, h⟩ := afterCompare_eq s
  rw [h]
  exact { sameOutputs_refl s with }

theorem afterCompare_trace (s : State) : (afterCompare s).trace = s.trace := by
  obtain ⟨_, _, h⟩ := afterCompare_eq s
  rw [h]

/-- The event of a dispatch leaves what the event operation leaves from the state before the cycle. -/
theorem eventDone_afterCompare (k : Phase) (rest : List Pending) (s : State) :
    SameEvent (eventDone k rest (afterCompare s)) (perform (eventInstr k) s) ∧
      SameOutputs (eventDone k rest (afterCompare s)) (perform (eventInstr k) s) := by
  have hr : SameRegs { afterCompare s with pend := rest } s := { sameRegs_afterCompare s with }
  have ho : SameOutputs { afterCompare s with pend := rest } s :=
    { (sameOutputs_afterCompare s).symm with }
  exact ⟨hr.event k, hr.event_sameOutputs ho k⟩

theorem RunLeadsTo.clockEdge {u t : State} (h : RunLeadsTo u t) (wasArmed : Bool) :
    RunLeadsTo u (clockEdge wasArmed t) :=
  h.of_same { sameRegs_refl t with } ⟨rfl, rfl, rfl⟩ rfl rfl

/-- A handler started without `BUDGET`, or in its last cycle, leads to what the event operation
leaves. -/
theorem runLeadsTo_dispatched {k : Phase} {rest : List Pending} {s : State}
    (hok : (started k rest (afterCompare s)).left ≤ 1 ∨
      hasFault (entered k rest (afterCompare s)).fault .budget = false) :
    RunLeadsTo (perform (eventInstr k) s) (dispatched k rest s) := by
  obtain ⟨hevent, houts⟩ := eventDone_afterCompare k rest s
  have hrun := (runLeadsTo_entered k rest (afterCompare s)).handlerCycle rfl hok
  exact (hrun.congr hevent houts).clockEdge true

theorem dispatched_sameRegs (k : Phase) (rest : List Pending) (s : State) :
    SameRegs (dispatched k rest s) (perform (eventInstr k) s) := by
  obtain ⟨_, _, _, _, _, h⟩ := dispatched_eq k rest s
  rw [h]
  exact { (eventDone_afterCompare k rest s).1.toSameRegs with }

/-! ### A run to its end -/

/-- The premises under which a handler runs to its end: in range and on time, without `BUDGET`, and
`RST` stays 0. -/
structure RunsFreely (s : State) : Prop where
  budgets : positiveBudgets s.cfg
  range : InRange s
  timer : TimerInRange s
  onTime : OnTime s
  noBudget : hasFault s.fault .budget = false
  noReset : noReset s

theorem Acts.inputs {s u : State} (hacts : Acts s u) (hr : InRange s) : u.inputs = s.inputs := by
  cases hacts with
  | running r hb =>
    obtain ⟨_, _, _, _, _, heq⟩ := handlerCycle_output (hr.running hb).1 s
    rw [heq]
  | dispatched k rest => exact (perform_event_keepsTimer k { s with pend := rest }).inputs
  | served r hb hq hp t ht => cases hostPerform_outcome ht <;> rfl
  | idle => rfl

/-- `BUDGET` is one of the two bits that only the compares set (60_exceptions R131). -/
theorem hasFault_budget_congr {w w' : BitVec 6} (h : w &&& 0x30 = w' &&& 0x30) :
    hasFault w .budget = hasFault w' .budget := by
  have hbit := congrArg (·.getLsbD 5) h
  simpa [hasFault, faultBit] using hbit

/-- A cycle keeps the premises. -/
theorem RunsFreely.step {s t : State} (h : RunsFreely s) (hstep : step s = .next t) :
    RunsFreely t := by
  have hr := notReset_of_noReset h.noReset
  obtain ⟨u, hacts, hu⟩ := step_acts h.range.admitted hr
  obtain ⟨_, ht, hrange⟩ := rangesKept s h.range
  obtain ⟨_, ht', htimer, hot, hfault⟩ := step_onTime h.budgets h.range h.timer h.onTime hr
  cases ht.symm.trans hstep
  cases ht'.symm.trans hstep
  cases hu.symm.trans hstep
  have hcompare := afterCompare_inRange h.range
  have hcfg : u.cfg = s.cfg := (hacts.cfg hcompare).trans (afterCompare_cfg s)
  have hinputs : u.inputs = s.inputs.tail :=
    (hacts.inputs hcompare).trans (afterCompare_inputs s)
  exact ⟨hcfg.symm ▸ h.budgets, hrange, htimer, hot,
    (hasFault_budget_congr hfault).trans h.noBudget, noReset_tail h.noReset hinputs⟩

/-- A cycle of a handler on time: it leads on to the same, with one cycle less to go and no fault. -/
theorem RunLeadsTo.step {u s : State} {r : Running} (h : RunLeadsTo u s) (hs : RunsFreely s)
    (hb : s.busy = some r) : ∃ t, step s = .next t ∧ RunLeadsTo u t ∧
      t.busy = handlerBusy r (afterCompare s) ∧ t.fault = s.fault := by
  have hfault := afterCompare_fault_of_onTime hs.budgets hs.range hs.timer hs.onTime
  have hcompare : RunLeadsTo u (afterCompare s) := h.of_same (sameRegs_afterCompare s)
    (sameOutputs_afterCompare s) (afterCompare_busy s) (afterCompare_trace s)
  have hcycle := hcompare.handlerCycle ((afterCompare_busy s).trans hb)
    (.inr (hfault.symm ▸ hs.noBudget))
  obtain ⟨_, _, _, _, _, hout⟩ := handlerCycle_output (hs.range.running hb).1 (afterCompare s)
  refine ⟨_, step_running hs.range.admitted (notReset_of_noReset hs.noReset) hb,
    hcycle.clockEdge _, rfl, ?_⟩
  exact (congrArg State.fault hout).trans hfault

/-- A handler on time with `n` cycles to go ends after `n` cycles where its run leads. -/
theorem RunLeadsTo.steps {u : State} {n : Nat} {s : State} {r : Running} (h : RunLeadsTo u s)
    (hs : RunsFreely s) (hb : s.busy = some r) (hn : r.left = n + 1) :
    ∃ t, steps (n + 1) s = .next t ∧ RunLeadsTo u t ∧ t.busy = none ∧ t.fault = s.fault := by
  induction n generalizing s r with
  | zero =>
    obtain ⟨t, hstep, hrun, hbusy, hfault⟩ := h.step hs hb
    refine ⟨t, ?_, hrun, hbusy.trans (handlerBusy_eq_none_iff.mpr hn.le), hfault⟩
    rw [Machine.steps, hstep]
    rfl
  | succ n ih =>
    obtain ⟨t, hstep, hrun, hbusy, hfault⟩ := h.step hs hb
    have hgoes : handlerBusy r (afterCompare s) =
        some { r with left := r.left - 1, todo := handlerRest r (afterCompare s) } :=
      handlerBusy_eq_some_iff.mpr ⟨by omega, rfl⟩
    obtain ⟨t', hsteps, hrun', hbusy', hfault'⟩ :=
      ih hrun (hs.step hstep) (hbusy.trans hgoes) (by dsimp only; omega)
    refine ⟨t', ?_, hrun', hbusy', hfault'.trans hfault⟩
    rw [Machine.steps, hstep]
    exact hsteps

/-- Settles O58: the dispatch starts a run that leads to what the event leaves, and on time it ends
there within its busy time. -/
theorem handlerRunMatchesEvent : Obligations.HandlerRunMatchesEvent := by
  intro s k hvalid hpos h ht hot hbudget ⟨harmed, hb, hp⟩ hreset
  have hadm := admitted_of_valid hvalid
  have hr := notReset_of_noReset hreset
  have hs : RunsFreely s := ⟨hpos, h, ht, hot, hbudget, hreset⟩
  have hcompare : InRange { afterCompare s with pend := [] } :=
    { afterCompare_inRange h with }
  have hfault : (entered k [] (afterCompare s)).fault = s.fault :=
    (perform_event_fault hcompare k).trans (afterCompare_fault_of_onTime hpos h ht hot)
  have hstep : step s = .next (dispatched k [] s) := step_eq_dispatched hadm hr harmed hb hp
  have hrun : RunLeadsTo (perform (eventInstr k) s) (dispatched k [] s) :=
    runLeadsTo_dispatched (.inr (hfault.symm ▸ hbudget))
  have hle : (started k [] (afterCompare s)).left ≤ s.cfg.durMax k :=
    afterCompare_cfg s ▸ busyTime_le (afterCompare s).cfg k _ _
  have hfaultRun : (dispatched k [] s).fault = s.fault := (dispatched_fault k [] s).trans hfault
  have hfaultEvent : (perform (eventInstr k) s).fault = s.fault := perform_event_fault h k
  rcases hbusy : (dispatched k [] s).busy with _ | r
  · obtain ⟨houts, htrace⟩ := hrun.ended hbusy
    exact ⟨1, _, _, le_rfl, hpos k, by rw [steps, hstep]; rfl, exec_eq_perform _ s, hbusy, hrun.regs,
      houts, htrace, hfaultRun.trans hfaultEvent.symm⟩
  · obtain ⟨htwo, hr'⟩ := handlerBusy_eq_some_iff.mp hbusy
    obtain ⟨n, hn⟩ : ∃ n, (started k [] (afterCompare s)).left = n + 2 :=
      Nat.exists_eq_add_of_le' htwo
    have hleft : r.left = n + 1 := by rw [hr', hn]; rfl
    obtain ⟨t, hsteps, hrun', hbusy', hfault'⟩ := hrun.steps (hs.step hstep) hbusy hleft
    obtain ⟨houts, htrace⟩ := hrun'.ended hbusy'
    refine ⟨n + 2, t, _, by omega, by omega, ?_, exec_eq_perform _ s, hbusy', hrun'.regs, houts,
      htrace, (hfault'.trans hfaultRun).trans hfaultEvent.symm⟩
    rw [steps, hstep]
    exact hsteps

end Sys2Proof.Machine
end

section
/-! PROOFS. The entry latency of an event (60_exceptions R138): what an idle block does from a compare match
to the start of its handler. -/

namespace Sys2Proof.Machine

/-- In RUN mode a block with nothing due and no `HOST_DISARM` at its port only answers the host. -/
theorem Acts.waits {s u : State} (hacts : Acts s u) (hb : s.busy = none) (harmed : s.armed = true)
    (hdue : ∀ k rest, s.pend ≠ ⟨k, 0⟩ :: rest) (hdis : ∀ r, s.request = some r → r.op ≠ 0x51) :
    ∃ f v, u = { s with request := none, fault := f, resp := v } := by
  cases hacts with
  | running r hb' => cases hb.symm.trans hb'
  | dispatched k rest hb' ha hp => exact absurd hp (hdue k rest)
  | served r hb' hq hp t ht =>
    cases hostPerform_outcome ht with
    | answered v f m hf hm =>
      obtain rfl : m = s.fb := hm harmed
      exact ⟨f, some v, rfl⟩
    | armed hop ha => cases harmed.symm.trans ha
    | disarmed hop => exact absurd hop (hdis r hq)
  | idle hb' hq hp => exact ⟨s.fault, s.resp, by rw [← hq]⟩

/-- The block of `s` waits for the handler of `k`, which starts in `lat` cycles: its registers and output
lines are those of `s`, and after the compares of this cycle `k` is the head of `PEND`. With a handler
that may take a cycle `k` is alone there, and it ends before the next match. -/
structure AwaitsEntry (s : State) (k : Phase) (lat : Nat) (t : State) : Prop where
  regs : SameRegs t s
  outputs : SameOutputs t s
  armed : t.armed = true
  idle : t.busy = none
  noReset : noReset t
  noDisarm : noRequest 0x51 t
  tcnt_lt : t.tcnt < s.cfg.linePeriod
  distinct : (t.pend.map (fun e => e.event)).Nodup
  fits : lat + s.cfg.durMax k ≤ untilNext s.cfg ((t.tcnt + 1) % s.cfg.linePeriod) + 1
  head : ∃ rest, (afterCompare t).pend = ⟨k, lat⟩ :: rest ∧ (1 ≤ lat + s.cfg.durMax k → rest = [])

/-- The match of an idle block begins the wait of `ENTRY_LAT` cycles. -/
theorem awaitsEntry_of_match {s : State} {k : Phase} (ha : Admitted s.cfg) (harmed : s.armed = true)
    (ht : s.tcnt = s.cfg.off k) (hb : s.busy = none) (hp : s.pend = []) (hr : noReset s)
    (hd : noRequest 0x51 s) : AwaitsEntry s k s.cfg.entryLat s where
  regs := sameRegs_refl s
  outputs := sameOutputs_refl s
  armed := harmed
  idle := hb
  noReset := hr
  noDisarm := hd
  tcnt_lt := ht ▸ off_lt ha k
  distinct := by rw [hp]; exact List.nodup_nil
  fits := ht ▸ fits_before_next_match ha k
  head := ⟨[], by rw [afterCompare_idle_match ha harmed ht hb hp], fun _ => rfl⟩

/-- An event that waits, at the start of a cycle with a later match, is the head after its compares. -/
theorem awaitsEntry_head {s t : State} {k : Phase} {lat : Nat} (hcfg : t.cfg = s.cfg)
    (hp : t.pend = [⟨k, lat⟩]) (hfit : lat + s.cfg.durMax k ≤ untilNext s.cfg t.tcnt) :
    ∃ rest, (afterCompare t).pend = ⟨k, lat⟩ :: rest ∧ (1 ≤ lat + s.cfg.durMax k → rest = []) := by
  by_cases hlast : 1 ≤ lat + s.cfg.durMax k
  · have hnoMatch : noMatch t := fun _ k' => hcfg ▸ noMatch_of_untilNext (hlast.trans hfit) k'
    rw [afterCompare_noMatch hnoMatch, afterInput_pend]
    exact ⟨[], hp, fun _ => rfl⟩
  · obtain ⟨new, hnew⟩ := afterCompare_head hp
    exact ⟨_, hnew, fun h => absurd h hlast⟩

theorem awaitsEntry_fits {c : Params} (ha : Admitted c) {n t : Nat} (ht : t < c.linePeriod)
    (h : n ≤ untilNext c t) : n ≤ untilNext c ((t + 1) % c.linePeriod) + 1 := by
  rcases Nat.eq_zero_or_pos n with rfl | hpos
  · exact Nat.zero_le _
  · rwa [untilNext_next ha ht (noMatch_of_untilNext (hpos.trans_le h))]

/-- A cycle of the wait. -/
theorem AwaitsEntry.step {s t : State} {k : Phase} {lat : Nat} (ha : s.cfg.admitted = true)
    (h : AwaitsEntry s k (lat + 1) t) :
    ∃ t', step t = .next t' ∧ AwaitsEntry s k lat t' ∧ t'.pend = [⟨k, lat⟩] := by
  have hcfg : t.cfg = s.cfg := h.regs.cfg
  obtain ⟨rest, hp, hrest⟩ := h.head
  obtain rfl : rest = [] := hrest (by omega)
  obtain ⟨u, hacts, hstep⟩ := step_acts (by rwa [hcfg]) (notReset_of_noReset h.noReset)
  obtain ⟨f, v, rfl⟩ := hacts.waits ((afterCompare_busy t).trans h.idle)
    ((afterCompare_armed t).trans h.armed) (by rw [hp]; nofun)
    (by rw [afterCompare_request]; exact noRequest_afterInput h.noDisarm)
  have hpend : (afterCompare t).pend.map older = [⟨k, lat⟩] := congrArg (List.map older) hp
  refine ⟨_, hstep, ?_, hpend⟩
  have hinputs := afterCompare_inputs t
  have hlt : (t.tcnt + 1) % s.cfg.linePeriod < s.cfg.linePeriod :=
    Nat.mod_lt _ (Nat.zero_lt_of_lt h.tcnt_lt)
  have htcnt : (clockEdge t.armed { afterCompare t with request := none, fault := f, resp := v }).tcnt
      = (t.tcnt + 1) % s.cfg.linePeriod := by
    simp [clockEdge, h.armed, hcfg]
  have hfit : lat + s.cfg.durMax k ≤ untilNext s.cfg ((t.tcnt + 1) % s.cfg.linePeriod) := by
    have := h.fits
    omega
  exact {
    regs := { (sameRegs_afterCompare t).trans h.regs with }
    outputs := { (sameOutputs_afterCompare t).symm.trans h.outputs with }
    armed := (afterCompare_armed t).trans h.armed
    idle := (afterCompare_busy t).trans h.idle
    noReset := noReset_tail h.noReset hinputs
    noDisarm := noRequest_tail h.noDisarm hinputs (.inl rfl)
    tcnt_lt := by rwa [htcnt]
    distinct := by
      change (List.map _ ((afterCompare t).pend.map older)).Nodup
      rw [hpend]
      exact List.nodup_singleton k
    fits := by
      rw [htcnt]
      exact awaitsEntry_fits (admitted_facts ha) hlt hfit
    head := awaitsEntry_head ((afterCompare_cfg t).trans hcfg) hpend (by rwa [htcnt]) }

/-- One more cycle after `n`. -/
theorem steps_succ (n : Nat) (s : State) : steps (n + 1) s = andThen (steps n s) step := by
  induction n generalizing s with
  | zero =>
    change andThen (step s) .next = step s
    cases step s <;> rfl
  | succ n ih =>
    rw [steps, steps]
    rcases step s with t | f | r
    · exact ih t
    · rfl
    · rfl

/-- The cycles of the wait up to the start of the handler. -/
theorem AwaitsEntry.steps {s : State} {k : Phase} {lat : Nat} (ha : s.cfg.admitted = true)
    (h : AwaitsEntry s k lat s) {n : Nat} (hn : n ≤ lat) : ∃ t, steps n s = .next t ∧
      AwaitsEntry s k (lat - n) t ∧ (1 ≤ n → t.pend = [⟨k, lat - n⟩]) := by
  induction n with
  | zero => exact ⟨s, rfl, h, fun h0 => absurd h0 (by omega)⟩
  | succ n ih =>
    obtain ⟨t, ht, hwait, -⟩ := ih (by omega)
    rw [show lat - n = lat - (n + 1) + 1 by omega] at hwait
    obtain ⟨t', ht', hwait', hpend⟩ := hwait.step ha
    exact ⟨t', by rw [steps_succ, ht]; exact ht', hwait', fun _ => hpend⟩

/-- Settles O57: the wait of `ENTRY_LAT` cycles, then a dispatch from the same registers. -/
theorem handlerStartCycle : Obligations.HandlerStartCycle := by
  intro s k hvalid harmed ht hb hp hr hd
  have hadm := admitted_of_valid hvalid
  have hwait := awaitsEntry_of_match (admitted_facts hadm) harmed ht hb hp hr hd
  obtain ⟨t, hsteps, hlast, -⟩ := hwait.steps hadm le_rfl
  rw [Nat.sub_self] at hlast
  obtain ⟨rest, hhead, hrest⟩ := hlast.head
  rw [Nat.zero_add] at hrest
  refine ⟨fun n hn => ?_, ⟨t, rest, hsteps, hhead, fun hdur => ?_⟩, ?_⟩
  · obtain ⟨t', hsteps', hw, hpend⟩ := hwait.steps hadm hn
    exact ⟨t', hsteps', hw.regs, hw.outputs, hw.armed, hw.idle, hpend⟩
  · exact ⟨hlast.armed, hlast.idle, by rw [hhead, hrest hdur]⟩
  · have hstep : step t = .next (dispatched k rest t) := step_eq_dispatched
      (by rwa [hlast.regs.cfg]) (notReset_of_noReset hlast.noReset) hlast.armed hlast.idle hhead
    have hevents : (dispatched k rest t).pend.map (fun e => e.event) = rest.map (fun e => e.event) := by
      rw [dispatched_pend, List.map_map]
      rfl
    have hdistinct : k ∉ rest.map (fun e => e.event) := by
      have hnodup := afterCompare_nodup hlast.distinct
      rw [hhead] at hnodup
      exact (List.nodup_cons.mp hnodup).1
    refine ⟨dispatched k rest t, _, by rw [steps_succ, hsteps]; exact hstep, exec_eq_perform _ s,
      (dispatched_sameRegs k rest t).trans (hlast.regs.event k).toSameRegs, by rwa [hevents],
      fun hdur => by rw [dispatched_pend, hrest hdur]; rfl, ?_⟩
    rcases hbusy : (dispatched k rest t).busy with _ | r
    · have hrun : RunLeadsTo (perform (eventInstr k) t) (dispatched k rest t) :=
        runLeadsTo_dispatched (.inl (handlerBusy_eq_none_iff.mp hbusy))
      obtain ⟨houts, htrace⟩ := hrun.ended hbusy
      exact .inr ⟨rfl, houts.trans (hlast.regs.event_sameOutputs hlast.outputs k),
        htrace.trans (hlast.regs.event k).trace⟩
    · obtain ⟨-, rfl⟩ := handlerBusy_eq_some_iff.mp hbusy
      exact .inl ⟨_, rfl, rfl⟩

end Sys2Proof.Machine
end

section
/-! PROOFS. Reset and boot (70_reset_and_hazards R150, R151, R153): the values after reset, a cycle with
`RST`, that only `HOST_ARM` enters RUN mode, and the boot sequence. -/

namespace Sys2Proof.Machine

/-! ### Reset -/

theorem registersAtReset_resetOf (c : Params) : RegistersAtReset (State.resetOf c) :=
  ⟨rfl, rfl, rfl, rfl, rfl, rfl, rfl, rfl, rfl, rfl, rfl, rfl, rfl, rfl, rfl⟩

/-- Settles O41: the values of `State.resetOf`, of which `State.reset` is one. -/
theorem resetValues : Obligations.ResetValues :=
  ⟨fun c => ⟨registersAtReset_resetOf c, rfl⟩, registersAtReset_resetOf Config.reference⟩

/-- A reset cycle differs from the state after reset in the cells, the inputs to come and the count of
free values only. -/
theorem registersAtReset_resetCycle (s : State) : RegistersAtReset (resetCycle s) :=
  { registersAtReset_resetOf s.cfg with }

theorem fbAfterReset_of_idle {s : State} (hb : s.busy = none) : fbAfterReset s = s.fb := by
  unfold fbAfterReset
  rw [hb]

/-- A cell that an abandoned handler was writing holds its new or its old word (log 12). -/
theorem read_fbAfterReset {s : State} {r : Running} (hb : s.busy = some r) (j : Nat) :
    Memory.read (fbAfterReset s) j = Memory.read s.fb j ∨
      Memory.read (fbAfterReset s) j = Memory.read r.fbBefore j := by
  unfold fbAfterReset
  rw [hb, Memory.read_cutAt]
  split_ifs
  · exact .inl rfl
  · exact .inr rfl

/-! ### Who starts and stops the timer -/

section
variable {s u : State} (hacts : Acts s u) (hb : s.busy = none)
include hacts hb

/-- With no handler running, only a `HOST_ARM` at the port enters RUN mode (44_output_host R120). -/
theorem Acts.armed_by_host (ha : s.armed = false) (hu : u.armed = true) :
    ∃ r, s.request = some r ∧ r.op = 0x50 := by
  cases hacts with
  | running r hb' => cases hb.symm.trans hb'
  | dispatched k rest hb' ha' => cases ha.symm.trans ha'
  | served r hb' hr hp t ht =>
    cases hostPerform_outcome ht with
    | answered => cases ha.symm.trans hu
    | armed hop => exact ⟨r, hr, hop⟩
    | disarmed => cases hu
  | idle => cases ha.symm.trans hu

/-- With no handler running, only a `HOST_DISARM` at the port leaves it (44_output_host R121). -/
theorem Acts.disarmed_by_host (ha : s.armed = true) (hu : u.armed = false) :
    ∃ r, s.request = some r ∧ r.op = 0x51 := by
  cases hacts with
  | running r hb' => cases hb.symm.trans hb'
  | dispatched k rest =>
    have harmed := (perform_event_keepsTimer k { s with pend := rest }).armed
    cases (hu.symm.trans harmed).trans ha
  | served r hb' hr hp t ht =>
    cases hostPerform_outcome ht with
    | answered => cases ha.symm.trans hu
    | armed => cases hu
    | disarmed hop => exact ⟨r, hr, hop⟩
  | idle => cases ha.symm.trans hu

end

/-- Settles O42: with `RST` the reset cycle; without it the idle block of INIT mode is armed by its host
alone. -/
theorem resetCycle_holds : Obligations.ResetCycle := by
  refine ⟨fun s ha hrst => ?_, fun s ha hr harmed hb => ?_⟩
  · exact ⟨_, step_of_reset ha hrst, registersAtReset_resetCycle _, rfl, rfl,
      fbAfterReset_of_idle (s := beginCycle s), fun r hb => read_fbAfterReset (s := beginCycle s) hb⟩
  · obtain ⟨u, hacts, hstep⟩ := step_acts ha hr
    refine ⟨_, hstep, fun hu => ?_⟩
    rw [← afterCompare_request]
    exact hacts.armed_by_host ((afterCompare_busy s).trans hb) ((afterCompare_armed s).trans harmed) hu

/-! ### Boot -/

/-- The boot sequence leaves every cell with the first palette colour. -/
theorem read_booted {c : Params} {f : Flags} (h : c.palette[0]? = some f) {j : Nat} (hj : j < c.n) :
    Memory.read (booted c).fb j = encodePixel f :=
  (congrFun (congrArg SchedView.cells (schedView_booted h)) j).trans (if_pos hj)

/-- Settles O43: the state `booted`, whose cells all hold the first palette word. -/
theorem bootSequence : Obligations.BootSequence := by
  intro c hvalid
  obtain ⟨f, hf⟩ := palette_of_lt (c := c) (admitted_facts (admitted_of_valid hvalid)).v7.1
  have hbooted := booted_eq hf
  have hcells (j : Nat) (hj : j < c.n) : Memory.read (booted c).fb j = encodePixel f :=
    read_booted hf hj
  have hrun : execAll [.fbFill (bootFill c), .hostArm] (State.resetOf c) = .next (booted c) := by
    rw [execAll_cons, execAll_cons, execAll_nil]
    rfl
  refine ⟨booted c, f, hrun, hf, by rw [hbooted], by rw [hbooted]; rfl, by rw [hbooted]; rfl,
    ⟨fun i hi => ?_, fun r hr => ?_⟩, hcells⟩
  · have hcfg : (booted c).cfg = c := by rw [hbooted]; rfl
    rw [hcells i (hcfg ▸ hi)]
    exact isEncoded_encodePixel f
  · rw [hbooted] at hr
    cases hr

end Sys2Proof.Machine
end

section
/-! PROOFS. The tearing boundary of 70_reset_and_hazards R159: how far a rewrite has come when the next
visible region starts, also where the windows of a frame have no room for it (43_scheduler R111). -/

namespace Sys2Proof.Machine

/-! ### A rewrite at the end of its window -/

/-- In range every palette index the scheduler steps to has a word. -/
theorem nextColour_of_inRange {s : State} (h : InRange s) :
    ∃ f, s.cfg.palette[(s.widx + 1) % s.cfg.p]? = some f :=
  palette_of_lt (Nat.mod_lt _ (Nat.zero_lt_of_lt h.widx_lt))

/-- What the scheduler has reached at line 0 after the window of a rewrite that began with the colour `f`:
`T - V` chunks (43_scheduler R111). -/
def windowView (r : SchedView) (f : Flags) : SchedView :=
  { rewriteView r f (r.cfg.t - r.cfg.v) with line := 0 }

/-- A window whose hold elapses and the line that ends the frame, from the last visible line. -/
theorem schedView_window {g : State → State} (hg : ActsAsBackPorch g) {s : State} {r : SchedView}
    (h : schedView s = r) (ha : Admitted r.cfg) (hl : r.line = r.cfg.v - 1)
    (hh : r.cfg.hold ≤ r.holdCnt + 1) {f : Flags}
    (hf : r.cfg.palette[(r.widx + 1) % r.cfg.p]? = some f) :
    schedView (g (g^[r.cfg.t - r.cfg.v] s)) = windowView r f := by
  obtain ⟨hv, hvt⟩ := ha.v2
  have hwindow : schedView (g^[r.cfg.t - r.cfg.v] s) = rewriteView r f (r.cfg.t - r.cfg.v) :=
    schedView_iterate_rewrite hg h (by omega) hh hf (by omega) (by omega)
  rw [hg]
  exact schedView_backPorch_frameEnd hwindow hvt
    (show r.line + (r.cfg.t - r.cfg.v) + 1 = r.cfg.t by omega)

/-- A rewrite of `K` chunks is unfinished exactly when they have fewer than `N` cells. -/
theorem min_chunks_lt_iff (K chunk n : Nat) : min (K * chunk) n < n ↔ chunk * K < n := by
  rw [Nat.mul_comm chunk, min_lt_iff]
  exact or_iff_left (lt_irrefl n)

/-! ### A frame without room for a rewrite -/

/-- With `HOLD = 1` a frame from line 0 ends at line 0 and paints no cell beyond the chunks of its
window. -/
theorem schedView_frame_tears {g : State → State} (hg : ActsAsBackPorch g) {s : State}
    (h : InRange s) (h0 : s.line = 0) (hhold : s.cfg.hold = 1) :
    (g^[s.cfg.t] s).cfg = s.cfg ∧ (g^[s.cfg.t] s).line = 0 ∧
      ∀ j, s.cfg.chunk * (s.cfg.t - s.cfg.v) ≤ j →
        Memory.read (g^[s.cfg.t] s).fb j = Memory.read s.fb j := by
  have ha := admitted_facts h.admitted
  have hv := ha.v2.1
  obtain ⟨f, hf⟩ := nextColour_of_inRange h
  have hvisible : schedView (g^[s.cfg.v - 1] s) = { schedView s with line := s.cfg.v - 1 } := by
    refine (schedView_iterate_visible hg rfl (show s.line + (s.cfg.v - 1) < s.cfg.v by omega)).trans ?_
    simp [schedView, h0]
  have hframe : schedView (g^[s.cfg.t] s) =
      windowView { schedView s with line := s.cfg.v - 1 } f := by
    rw [iterate_frame g ha]
    exact schedView_window hg hvisible ha rfl (show s.cfg.hold ≤ s.holdCnt + 1 by omega) hf
  refine ⟨congrArg SchedView.cfg hframe, congrArg SchedView.line hframe, fun j hj => ?_⟩
  refine (congrFun (congrArg SchedView.cells hframe) j).trans (if_neg ?_)
  change ¬j < min ((s.cfg.t - s.cfg.v) * s.cfg.chunk) s.cfg.n
  rw [Nat.mul_comm]
  omega

/-- With `HOLD = 1` the cells beyond the chunks of a window keep their words for any number of frames. -/
theorem read_iterate_frames_tears {s : State} (h : InRange s) (h0 : s.line = 0)
    (hhold : s.cfg.hold = 1) {j : Nat} (hj : s.cfg.chunk * (s.cfg.t - s.cfg.v) ≤ j) (k : Nat) :
    Memory.read (performLine^[k * s.cfg.t] s).fb j = Memory.read s.fb j := by
  induction k generalizing s with
  | zero => rw [Nat.zero_mul]; rfl
  | succ k ih =>
    obtain ⟨hcfg, hline, hcells⟩ := schedView_frame_tears performLine_actsAsBackPorch h h0 hhold
    have hnext := ih (iterate_performLine_inRange h s.cfg.t) hline (by rwa [hcfg]) (by rwa [hcfg])
    rw [hcfg] at hnext
    rw [Nat.succ_mul, Function.iterate_add_apply, hnext]
    exact hcells j hj

theorem iterate_perform_inRange (i : Instr) {s : State} (h : InRange s) (n : Nat) :
    InRange ((perform i)^[n] s) := by
  induction n with
  | zero => exact h
  | succ n ih =>
    rw [Function.iterate_succ_apply']
    exact perform_inRange i ih

/-- Settles O26: the window ends at `rewriteView` after `T - V` chunks; with `HOLD = 1` every frame
begins its rewrite at cell 0 again. -/
theorem tearingBoundary : Obligations.TearingBoundary := by
  refine ⟨fun s h hl hh => ?_, fun s k h h0 hhold => ?_⟩
  · have ha := admitted_facts h.admitted
    obtain ⟨f, hf⟩ := nextColour_of_inRange h
    have hview : schedView ((perform .evBp)^[s.cfg.t - s.cfg.v + 1] s) =
        windowView (schedView s) f := by
      rw [Function.iterate_succ_apply']
      exact schedView_window (fun _ => rfl) rfl ha hl hh.ge hf
    have hrange : InRange ((perform .evBp)^[s.cfg.t - s.cfg.v + 1] s) :=
      iterate_perform_inRange .evBp h _
    have hline : ((perform .evBp)^[s.cfg.t - s.cfg.v + 1] s).line = 0 :=
      congrArg SchedView.line hview
    have hcur : ((perform .evBp)^[s.cfg.t - s.cfg.v + 1] s).cur =
        min ((s.cfg.t - s.cfg.v) * s.cfg.chunk) s.cfg.n := congrArg SchedView.cur hview
    have hwidx : ((perform .evBp)^[s.cfg.t - s.cfg.v + 1] s).widx = (s.widx + 1) % s.cfg.p :=
      congrArg SchedView.widx hview
    refine ⟨_, f, execAll_replicate .evBp _ s, hline, ?_, hwidx ▸ hf, ?_, fun j _ => ?_⟩
    · rw [hrange.vact_eq, hline, iterate_perform_cfg]
      exact decide_eq_true ha.v2.1
    · rw [hcur]
      exact min_chunks_lt_iff ..
    · rw [hcur]
      exact congrFun (congrArg SchedView.cells hview) j
  · exact ⟨_, execAll_linesOps _ s, fun j hj _ => read_iterate_frames_tears h h0 hhold hj k⟩

end Sys2Proof.Machine
end

section
/-! PROOFS. The output lines in the cycles of a handler's budget (70_reset_and_hazards R160 to R163, R166):
each output operation is performed in its cycle of the schedule, and after the handler has returned nothing
drives the lines until the budget is over. -/

namespace Sys2Proof.Machine

/-! ### A schedule cycle by cycle -/

/-- The state after `n` cycles of a schedule, each of which performs what is due. -/
def playFor : Nat → List Timed → State → State
  | 0, _, s => s
  | n + 1, todo, s => playFor n (stillToDo todo) (performDue todo s)

theorem playFor_nil (n : Nat) (s : State) : playFor n [] s = s := by
  induction n with
  | zero => rfl
  | succ n ih => exact ih

/-- The first operation waits its cycles, and what follows it is counted from its own cycle. -/
theorem playFor_cons (n w : Nat) (op : Instr) (rest : List Timed) (s : State) :
    playFor n (⟨w, op⟩ :: rest) s = if w < n then playFor (n - w) rest (perform op s) else s := by
  induction n generalizing w with
  | zero => rfl
  | succ n ih =>
    cases w with
    | zero => rfl
    | succ w =>
      rw [Nat.add_sub_add_right, ← if_congr (Nat.succ_lt_succ_iff (a := w) (b := n)).symm rfl rfl]
      exact ih w

section
variable {s s' : State} (h : SameOutputs s s') {todo : List Timed}

include h in
/-- What the operations due leave on the lines depends on the lines alone. -/
theorem SameOutputs.performDue (htodo : todo.all (fun e => isOutput e.op) = true) :
    SameOutputs (performDue todo s) (performDue todo s') := by
  induction todo generalizing s s' with
  | nil => exact h
  | cons e rest ih =>
    obtain ⟨w, op⟩ := e
    rw [List.all_cons, Bool.and_eq_true] at htodo
    cases w with
    | zero => exact ih (h.perform_output htodo.1) htodo.2
    | succ w => exact h

include h in
theorem SameOutputs.playFor (htodo : todo.all (fun e => isOutput e.op) = true) (n : Nat) :
    SameOutputs (playFor n todo s) (playFor n todo s') := by
  induction n generalizing s s' todo with
  | zero => exact h
  | succ n ih => exact ih (h.performDue htodo) (all_stillToDo (fun _ _ _ => rfl) htodo)

end

/-! ### A handler in its cycles -/

/-- The schedule a handler has left; none when `BUSY` is IDLE. -/
def scheduleLeft : Option Running → List Timed
  | none => []
  | some r => r.todo

/-- The handler's counter leaves it the cycles of the schedule it has left. -/
def ScheduleFits (b : Option Running) : Prop := ∀ r, b = some r → outputCycles r.todo ≤ r.left

theorem totalWait_eq (todo : List Timed) : totalWait todo = outputCycles todo - 1 := by
  cases todo <;> rfl

theorem outputCycles_le (todo : List Timed) : outputCycles todo ≤ totalWait todo + 1 := by
  cases todo with
  | nil => exact Nat.zero_le _
  | cons e rest => exact le_rfl

/-- A cycle takes a cycle off the waits that are left. -/
theorem totalWait_stillToDo (todo : List Timed) :
    totalWait (stillToDo todo) = totalWait todo - 1 := by
  induction todo with
  | nil => rfl
  | cons e rest ih =>
    obtain ⟨w, op⟩ := e
    cases w with
    | zero => exact ih.trans (congrArg (· - 1) (Nat.zero_add _).symm)
    | succ w => simp [stillToDo, totalWait, Nat.add_right_comm w 1]

/-- A schedule without waits is performed in one cycle. -/
theorem performDue_of_no_wait {todo : List Timed} (h : totalWait todo = 0) (s : State) :
    performDue todo s = performFirst todo.length todo s ∧ stillToDo todo = [] := by
  induction todo generalizing s with
  | nil => exact ⟨rfl, rfl⟩
  | cons e rest ih =>
    obtain ⟨w, op⟩ := e
    obtain ⟨hw, hrest⟩ : w = 0 ∧ totalWait rest = 0 := Nat.add_eq_zero_iff.mp h
    subst hw
    exact ih hrest (perform op s)

/-- A cycle of a handler that has the cycles of its schedule performs what is due, also its last one, and
leaves it the cycles of the rest. -/
theorem handlerCycle_plays {r : Running} {s : State} (hfits : outputCycles r.todo ≤ r.left)
    (hbudget : hasFault s.fault .budget = false) :
    SameOutputs (handlerCycle r s) (performDue r.todo s) ∧
      scheduleLeft (handlerBusy r s) = stillToDo r.todo ∧ ScheduleFits (handlerBusy r s) := by
  have hwait := totalWait_eq r.todo
  by_cases hlast : r.left ≤ 1
  · obtain ⟨hdue, hrest⟩ := performDue_of_no_wait (todo := r.todo) (by omega) s
    rw [handlerBusy_eq_none_iff.mpr hlast, handlerCycle_last hlast, hdue, hrest]
    exact ⟨⟨rfl, rfl, rfl⟩, rfl, nofun⟩
  · have hbusy : handlerBusy r s =
        some { r with left := r.left - 1, todo := stillToDo r.todo } := by
      simp [handlerBusy, handlerRest, hlast, hbudget]
    have hrest := outputCycles_le (stillToDo r.todo)
    rw [totalWait_stillToDo] at hrest
    rw [handlerCycle_due (by omega) hbudget, hbusy]
    refine ⟨⟨rfl, rfl, rfl⟩, rfl, ?_⟩
    rintro _ ⟨⟩
    dsimp only
    omega

/-! ### The cycles of a budget -/

/-- No handler starts in the next `n` cycles: nothing is pending, no source matches while the timer goes on
as it does, and the host does not start it anew. -/
structure Undisturbed (n : Nat) (s : State) : Prop where
  runs : RunsFreely s
  pend : s.pend = []
  noMatch : s.armed = true → n ≤ untilNext s.cfg s.tcnt
  host : s.armed = true ∧ noRequest 0x51 s ∨ noRequest 0x50 s

theorem Undisturbed.mono {m n : Nat} {s : State} (h : Undisturbed n s) (hm : m ≤ n) :
    Undisturbed m s :=
  { h with noMatch := fun harmed => hm.trans (h.noMatch harmed) }

theorem Acts.pend_nil {s u : State} (hacts : Acts s u) (hr : InRange s) (hp : s.pend = []) :
    u.pend = [] := by
  cases hacts with
  | running r hb =>
    obtain ⟨_, _, _, _, _, heq⟩ := handlerCycle_output (hr.running hb).1 s
    rw [heq]
    exact hp
  | dispatched k rest hb ha hp' => cases hp.symm.trans hp'
  | served r hb hq hp' t ht =>
    cases hostPerform_outcome ht with
    | answered => exact hp
    | armed => rfl
    | disarmed => rfl
  | idle => exact hp

theorem Acts.request {s u : State} (hacts : Acts s u) (hr : InRange s) :
    u.request = none ∨ u.request = s.request := by
  cases hacts with
  | running r hb =>
    obtain ⟨_, _, _, _, _, heq⟩ := handlerCycle_output (hr.running hb).1 s
    rw [heq]
    exact .inr rfl
  | dispatched k rest => exact .inr (perform_event_keepsTimer k { s with pend := rest }).request
  | served r hb hq hp' t ht => cases hostPerform_outcome ht <;> exact .inl rfl
  | idle => exact .inr rfl

/-- A handler goes on or a host request is performed: the mode changes only by `HOST_ARM` or
`HOST_DISARM`. -/
theorem Acts.armed_of_noRequest {s u : State} (hacts : Acts s u) (hr : InRange s) :
    ((∀ r, s.request = some r → r.op ≠ 0x51) → s.armed = true → u.armed = true) ∧
      ((∀ r, s.request = some r → r.op ≠ 0x50) → u.armed = true → s.armed = true) := by
  rcases hb : s.busy with _ | r
  · constructor
    · intro hreq ha
      by_contra hu
      obtain ⟨r, hr, hop⟩ := hacts.disarmed_by_host hb ha (by simpa using hu)
      exact hreq r hr hop
    · intro hreq hu
      by_contra ha
      obtain ⟨r, hr, hop⟩ := hacts.armed_by_host hb (by simpa using ha) hu
      exact hreq r hr hop
  · have hsame : u.armed = s.armed := by
      cases hacts with
      | running r' hb' =>
        obtain ⟨_, _, _, _, _, heq⟩ := handlerCycle_output (hr.running hb').1 s
        rw [heq]
      | dispatched k rest hb' => cases hb.symm.trans hb'
      | served r' hb' => cases hb.symm.trans hb'
      | idle => rfl
    exact ⟨fun _ ha => hsame.trans ha, fun _ hu => hsame.symm.trans hu⟩

section
variable {n : Nat} {s : State} (h : Undisturbed (n + 1) s)
include h

theorem Undisturbed.afterCompare_pend : (afterCompare s).pend = [] := by
  have hnoMatch : Machine.noMatch s := fun harmed =>
    noMatch_of_untilNext (Nat.le_trans (Nat.le_add_left 1 n) (h.noMatch harmed))
  rw [afterCompare_noMatch hnoMatch, afterInput_pend]
  exact h.pend

/-- A cycle that is not disturbed leaves one cycle less to go. -/
theorem Undisturbed.step {t : State} (hstep : step s = .next t) : Undisturbed n t := by
  have hruns := h.runs
  obtain ⟨u, hacts, hu⟩ := step_acts hruns.range.admitted (notReset_of_noReset hruns.noReset)
  cases hu.symm.trans hstep
  have hrange := afterCompare_inRange hruns.range
  have hpend := h.afterCompare_pend
  obtain ⟨hstays, hstarts⟩ := hacts.armed_of_noRequest hrange
  rw [afterCompare_request, afterCompare_armed] at hstays hstarts
  have hinputs : u.inputs = s.inputs.tail := (hacts.inputs hrange).trans (afterCompare_inputs s)
  have hport := hacts.request hrange
  rw [afterCompare_request] at hport
  have hhost : u.armed = true ∧ noRequest 0x51 (clockEdge s.armed u) ∨
      noRequest 0x50 (clockEdge s.armed u) := by
    rcases h.host with ⟨harmed, hdis⟩ | harm
    · exact .inl ⟨hstays (noRequest_afterInput hdis) harmed, noRequest_tail hdis hinputs hport⟩
    · exact .inr (noRequest_tail harm hinputs hport)
  refine ⟨hruns.step hstep, ?_, fun (hu : u.armed = true) => ?_, hhost⟩
  · rw [clockEdge_pend, hacts.pend_nil hrange hpend]
    rfl
  · have harmed : s.armed = true := by
      rcases h.host with ⟨harmed, -⟩ | harm
      · exact harmed
      · exact hstarts (noRequest_afterInput harm) hu
    have hfar := h.noMatch harmed
    have htimer := hacts.timer hrange
    have htcnt : u.tcnt = s.tcnt := by simpa [harmed, hu] using htimer
    have hcfg : u.cfg = s.cfg := (hacts.cfg hrange).trans (afterCompare_cfg s)
    have hnext := untilNext_next (admitted_facts hruns.range.admitted) hruns.timer.tcnt_lt
      (noMatch_of_untilNext (by omega))
    rw [harmed, clockEdge_tcnt_armed hu, htcnt]
    change n ≤ untilNext u.cfg ((s.tcnt + 1) % u.cfg.linePeriod)
    rw [hcfg]
    omega

/-- With no handler running, the lines stay as they are. -/
theorem Undisturbed.idle_step (hb : s.busy = none) : ∃ t, Machine.step s = .next t ∧
    SameOutputs t s ∧ t.busy = none := by
  obtain ⟨u, hacts, hstep⟩ :=
    step_acts h.runs.range.admitted (notReset_of_noReset h.runs.noReset)
  have hpend := h.afterCompare_pend
  have hbusy := (afterCompare_busy s).trans hb
  have hout : SameOutputs (afterCompare s) u ∧ u.busy = none := by
    cases hacts with
    | running r hb' => cases hbusy.symm.trans hb'
    | dispatched k rest hb' ha hp => cases hpend.symm.trans hp
    | served r hb' hq hp t ht =>
      have hkept := hostPerform_sameOutputs ht
      exact ⟨{ hkept with }, (hostPerform_keepsScan ht).busy.trans hbusy⟩
    | idle => exact ⟨sameOutputs_refl _, hbusy⟩
  have hsame := ((sameOutputs_afterCompare s).trans hout.1).symm
  exact ⟨_, hstep, { hsame with }, hout.2⟩

/-- A cycle of the budget performs what is due of the schedule that is left. -/
theorem Undisturbed.plays (hfits : ScheduleFits s.busy) : ∃ t, Machine.step s = .next t ∧
    SameOutputs t (performDue (scheduleLeft s.busy) s) ∧
    scheduleLeft t.busy = stillToDo (scheduleLeft s.busy) ∧ ScheduleFits t.busy := by
  have hruns := h.runs
  rcases hb : s.busy with _ | r
  · obtain ⟨t, hstep, hout, hbusy⟩ := h.idle_step hb
    refine ⟨t, hstep, hout, ?_, ?_⟩ <;> rw [hbusy]
    · rfl
    · nofun
  · have hfault :=
      afterCompare_fault_of_onTime hruns.budgets hruns.range hruns.timer hruns.onTime
    obtain ⟨hout, hleft, hfits'⟩ := handlerCycle_plays (s := afterCompare s) (hfits r hb)
      (hfault.symm ▸ hruns.noBudget)
    have hdue := (sameOutputs_afterCompare s).symm.performDue (hruns.range.running hb).1
    have hsame := hout.trans hdue
    exact ⟨_, step_running hruns.range.admitted (notReset_of_noReset hruns.noReset) hb,
      { hsame with }, hleft, hfits'⟩

end

/-- The cycles of the budget: the schedule is played, as long as the handler has its cycles. -/
theorem Undisturbed.steps {n : Nat} {s : State} (h : Undisturbed n s) :
    ∃ t, steps n s = .next t ∧ (ScheduleFits s.busy →
      SameOutputs t (playFor n (scheduleLeft s.busy) s)) := by
  induction n generalizing s with
  | zero => exact ⟨s, rfl, fun _ => sameOutputs_refl s⟩
  | succ n ih =>
    obtain ⟨t, hstep⟩ := step_next_of_admitted h.runs.range.admitted
    obtain ⟨t', hsteps, hplays⟩ := ih (h.step hstep)
    refine ⟨t', by rw [Machine.steps, hstep]; exact hsteps, fun hfits => ?_⟩
    obtain ⟨u, hu, hout, hleft, hfits'⟩ := h.plays hfits
    cases hu.symm.trans hstep
    have hall : (scheduleLeft t.busy).all (fun e => isOutput e.op) = true := by
      rcases hb : t.busy with _ | r
      · rfl
      · exact ((h.step hstep).runs.range.running hb).1
    have hrest := hout.playFor hall n
    exact (hplays hfits').trans (hleft ▸ hrest)

/-! ### From the start of a handler -/

/-- The premises under which a handler has its budget to itself: it starts in this cycle, on time, and the
host does not start the timer anew. -/
structure StartsFreely (k : Phase) (s : State) : Prop extends RunsFreely s where
  entry : atEntry k s
  host : notRestarted s

/-- The schedule of the handler of `k` that starts in this cycle. -/
def eventSchedule (k : Phase) (s : State) : List Timed :=
  schedule s.cfg k (perform (eventInstr k) s).trace

theorem started_todo (k : Phase) (s : State) :
    (started k [] (afterCompare s)).todo = eventSchedule k s := by
  have htrace := (eventDone_afterCompare k [] s).1.trace
  change schedule (afterCompare s).cfg k (eventDone k [] (afterCompare s)).trace = _
  rw [htrace, afterCompare_cfg]
  rfl

section
variable {s : State} {k : Phase} (h : StartsFreely k s)
include h

theorem StartsFreely.step : step s = .next (dispatched k [] s) := by
  obtain ⟨harmed, hb, hp⟩ := h.entry
  exact step_eq_dispatched h.range.admitted (notReset_of_noReset h.noReset) harmed hb hp

/-- After its first cycle no other handler starts within its longest run (00_scope R7 V9). -/
theorem StartsFreely.undisturbed : Undisturbed (s.cfg.durMax k - 1) (dispatched k [] s) := by
  obtain ⟨harmed, hb, hp⟩ := h.entry
  obtain ⟨_, _, _, _, _, heq⟩ := dispatched_eq k [] s
  have htimer := eventDone_keepsTimer k [] (afterCompare s)
  have hfits := (fitsIn_afterCompare (admitted_facts h.range.admitted) h.budgets h.timer.tcnt_lt
    h.onTime harmed).1
  rw [hb, hp] at hfits
  have hroom : 0 + s.cfg.durMax k ≤
      untilNext s.cfg ((s.tcnt + 1) % s.cfg.linePeriod) + 1 := by
    cases hfits with
    | waits _ hle => exact hle
  have hcfg : (dispatched k [] s).cfg = s.cfg := by
    rw [heq]
    exact (eventDone_cfg k [] _).trans (afterCompare_cfg s)
  have harmed' : (eventDone k [] (afterCompare s)).armed = true :=
    htimer.armed.trans ((afterCompare_armed s).trans harmed)
  have htcnt : (dispatched k [] s).tcnt = (s.tcnt + 1) % s.cfg.linePeriod := by
    rw [heq]
    refine (clockEdge_tcnt_armed ?_).trans ?_
    · exact harmed'
    · simp [entered, htimer.tcnt, eventDone_cfg]
  have hinputs : (dispatched k [] s).inputs = s.inputs.tail := by
    rw [heq]
    exact htimer.inputs.trans (afterCompare_inputs s)
  have hport : (dispatched k [] s).request = (afterInput s).request := by
    rw [heq]
    exact htimer.request.trans (afterCompare_request s)
  refine ⟨h.toRunsFreely.step h.step, dispatched_pend k [] s, fun _ => ?_, ?_⟩
  · rw [hcfg, htcnt]
    omega
  · rcases h.host with harm | hdis
    · exact .inr (noRequest_tail harm hinputs (.inr hport))
    · exact .inl ⟨by rw [heq]; exact harmed', noRequest_tail hdis hinputs (.inr hport)⟩

/-- In each cycle of the budget of a handler the lines are those its schedule has left, when the schedule
fits its longest run. -/
theorem StartsFreely.plays {j : Nat} (hj : j < s.cfg.durMax k) : ∃ t, steps (j + 1) s = .next t ∧
    (outputCycles (eventSchedule k s) ≤ s.cfg.durMax k →
      SameOutputs t (playFor (j + 1) (eventSchedule k s) s)) := by
  obtain ⟨t, hsteps, hplays⟩ := (h.undisturbed.mono (Nat.le_sub_one_of_lt hj)).steps
  refine ⟨t, by rw [Machine.steps, h.step]; exact hsteps, fun hmax => ?_⟩
  have htodo := started_todo k s
  have hcycles : outputCycles (started k [] (afterCompare s)).todo ≤
      (started k [] (afterCompare s)).left :=
    le_busyTime (le_max_right _ _) (by rwa [htodo, afterCompare_cfg]) _
  have hrange : InRange { afterCompare s with pend := [] } :=
    { afterCompare_inRange h.range with }
  have hfault : (entered k [] (afterCompare s)).fault = s.fault :=
    (perform_event_fault hrange k).trans
      (afterCompare_fault_of_onTime h.budgets h.range h.timer h.onTime)
  obtain ⟨hout, hleft, hfits⟩ := handlerCycle_plays hcycles (hfault.symm ▸ h.noBudget)
  have houtput := started_output k [] (afterCompare s)
  rw [htodo] at hout hleft houtput
  have hlines : SameOutputs (entered k [] (afterCompare s)) s :=
    { (sameOutputs_afterCompare s).symm with }
  have hfirst := hout.trans (hlines.performDue houtput)
  have hdispatched : SameOutputs (dispatched k [] s) (performDue (eventSchedule k s) s) :=
    { hfirst with }
  have hrest := hdispatched.playFor (all_stillToDo (fun _ _ _ => rfl) houtput) j
  exact (hplays hfits).trans (hleft ▸ hrest)

end

end Sys2Proof.Machine
end

section
/-! PROOFS. The waveforms of 70_reset_and_hazards: the sync edges and the blanking (R161 to R163), and the
active drawing (R160, R166), each read off the schedule of its handler. -/

namespace Sys2Proof.Machine

/-! ### Sync edges and blanking -/

/-- The operation that drives vertical sync to a level (30_encoding R72). -/
def verticalTo (level : Bool) : Instr :=
  if level then .outSyncSet .vertical else .outSyncClr .vertical

theorem perform_verticalTo (level : Bool) (s : State) :
    (perform (verticalTo level) s).vsync = level ∧ (perform (verticalTo level) s).hsync = s.hsync := by
  cases level <;> exact ⟨rfl, rfl⟩

section
variable {c : Params} {line : Nat}

theorem markerTrace_vsOn (h : c.vsOn < c.vsOff) (hl : line = c.vsOn) :
    markerTrace c line = [verticalTo c.vsyncActiveLevel] := by
  have hoff : line ≠ c.vsOff := by omega
  rw [markerTrace, if_pos hl, if_neg hoff]
  rfl

theorem markerTrace_vsOff (h : c.vsOn < c.vsOff) (hl : line = c.vsOff) :
    markerTrace c line = [verticalTo !c.vsyncActiveLevel] := by
  have hon : line ≠ c.vsOn := by omega
  rw [markerTrace, if_neg hon, if_pos hl, verticalTo]
  cases c.vsyncActiveLevel <;> rfl

theorem markerTrace_other (hon : line ≠ c.vsOn) (hoff : line ≠ c.vsOff) :
    markerTrace c line = [] := by
  rw [markerTrace, if_neg hon, if_neg hoff]
  rfl

end

/-- The line trace of a back porch: horizontal sync, then the markers of the line it reaches. -/
theorem backPorch_trace {s : State} (ha : Admitted s.cfg) :
    (backPorch s).trace = .outSyncSet .horizontal :: markerTrace s.cfg (s.line + 1) := by
  obtain ⟨hv, honOff, -⟩ := ha.v5
  rcases backPorch_cases s with ⟨hlt, h⟩ | ⟨-, -, h⟩ | ⟨-, -, h⟩ <;> rw [h]
  · rw [markerTrace_other (by omega) (by omega)]
  · rw [schedStep_trace]

/-- A schedule of one operation. -/
theorem playFor_single (j w : Nat) (op : Instr) (s : State) :
    playFor (j + 1) [⟨w, op⟩] s = if j < w then s else perform op s := by
  rw [playFor_cons, playFor_nil]
  exact (ite_not (w < j + 1) s (perform op s)).symm.trans (if_congr (by omega) rfl rfl)

/-- The lines `j` cycles after the start of a back porch that reaches no marker line
(70_reset_and_hazards R162). -/
theorem playFor_backPorch_unmarked (c : Params) (j : Nat) (s : State) :
    (playFor (j + 1) (schedule c .bp [.outSyncSet .horizontal]) s).hsync =
        (if j < c.latBp then s.hsync else true) ∧
      (playFor (j + 1) (schedule c .bp [.outSyncSet .horizontal]) s).vsync = s.vsync := by
  change (playFor (j + 1) [⟨c.latBp, .outSyncSet .horizontal⟩] s).hsync = _ ∧
    (playFor (j + 1) [⟨c.latBp, .outSyncSet .horizontal⟩] s).vsync = _
  rw [playFor_single]
  split_ifs <;> exact ⟨rfl, rfl⟩

/-- The same for one that reaches a marker line: vertical sync changes at `LAT_BPV`. -/
theorem playFor_backPorch_marked {c : Params} (hle : c.latBp ≤ c.latBpv) (j : Nat) (level : Bool)
    (s : State) :
    (playFor (j + 1) (schedule c .bp [.outSyncSet .horizontal, verticalTo level]) s).hsync =
        (if j < c.latBp then s.hsync else true) ∧
      (playFor (j + 1) (schedule c .bp [.outSyncSet .horizontal, verticalTo level]) s).vsync =
        if j < c.latBpv then s.vsync else level := by
  have hplay : playFor (j + 1) (schedule c .bp [.outSyncSet .horizontal, verticalTo level]) s =
      if j < c.latBp then s else if j < c.latBpv then perform (.outSyncSet .horizontal) s
        else perform (verticalTo level) (perform (.outSyncSet .horizontal) s) := by
    change playFor (j + 1)
      [⟨c.latBp, .outSyncSet .horizontal⟩, ⟨c.latBpv - c.latBp, verticalTo level⟩] s = _
    by_cases hbp : j < c.latBp
    · rw [playFor_cons, if_neg (by omega), if_pos hbp]
    · rw [playFor_cons, if_pos (by omega), if_neg hbp, Nat.succ_sub (by omega), playFor_single]
      exact if_congr (by omega) rfl rfl
  obtain ⟨hvsync, hhsync⟩ := perform_verticalTo level (perform (.outSyncSet .horizontal) s)
  rw [hplay]
  split_ifs
  · exact ⟨rfl, rfl⟩
  · omega
  · exact ⟨rfl, rfl⟩
  · exact ⟨hhsync, hvsync⟩

theorem eventSchedule_backPorch {s : State} (ha : Admitted s.cfg) : eventSchedule .bp s =
    schedule s.cfg .bp (.outSyncSet .horizontal :: markerTrace s.cfg (s.line + 1)) :=
  congrArg (schedule s.cfg .bp) (backPorch_trace ha)

/-- Settles O60: each handler's schedule has one operation for each line it drives, at its latency. -/
theorem syncAndBlankTiming : Obligations.SyncAndBlankTiming := by
  intro s k j hvalid hpos h ht hot hbudget hentry hreset hhost hj
  have ha := admitted_facts h.admitted
  have honOff := ha.v5.2.1
  have hstart : StartsFreely k s := ⟨⟨hpos, h, ht, hot, hbudget, hreset⟩, hentry, hhost⟩
  obtain ⟨t, hsteps, hplays⟩ := hstart.plays hj
  refine ⟨t, hsteps, ?_, ?_, ?_⟩
  · rintro rfl hlat
    rw [(hplays hlat).hsync]
    change (playFor (j + 1) [⟨s.cfg.latSs, .outSyncClr .horizontal⟩] s).hsync = _
    rw [playFor_single]
    split_ifs <;> rfl
  · rintro rfl hle hlat
    have hmarked {level : Bool} (hmark : markerTrace s.cfg (s.line + 1) = [verticalTo level]) :
        (t.hsync = if j < s.cfg.latBp then s.hsync else true) ∧
          t.vsync = if j < s.cfg.latBpv then s.vsync else level := by
      rw [eventSchedule_backPorch ha, hmark] at hplays
      have hfits : s.cfg.latBp + (s.cfg.latBpv - s.cfg.latBp + 0) + 1 ≤ s.cfg.durMaxBp := by omega
      have hlines := hplays hfits
      rw [hlines.hsync, hlines.vsync]
      exact playFor_backPorch_marked hle j level s
    by_cases hon : s.line + 1 = s.cfg.vsOn
    · obtain ⟨hh, hv⟩ := hmarked (markerTrace_vsOn honOff hon)
      exact ⟨hh, fun _ => hv, fun hoff => by omega, fun hne => absurd hon hne⟩
    by_cases hoff : s.line + 1 = s.cfg.vsOff
    · obtain ⟨hh, hv⟩ := hmarked (markerTrace_vsOff honOff hoff)
      exact ⟨hh, fun hon' => absurd hon' hon, fun _ => hv, fun _ hne => absurd hoff hne⟩
    · rw [eventSchedule_backPorch ha, markerTrace_other hon hoff] at hplays
      have hfits : s.cfg.latBp + 0 + 1 ≤ s.cfg.durMaxBp := by omega
      have hlines := hplays hfits
      obtain ⟨hh, hv⟩ := playFor_backPorch_unmarked s.cfg j s
      exact ⟨hlines.hsync.trans hh, fun hon' => absurd hon' hon, fun hoff' => absurd hoff' hoff,
        fun _ _ => hlines.vsync.trans hv⟩
  · rintro rfl hlat
    rw [(hplays hlat).color]
    change (playFor (j + 1) [⟨s.cfg.latFp, .outColor blankPx⟩] s).color = _
    rw [playFor_single]
    split_ifs
    · rfl
    · exact driveColor_encodePixel _ 0

/-! ### Holds in a schedule -/

/-- Before the wait of a trace is over nothing of it is performed. -/
theorem playFor_withWaits_before {n w : Nat} (h : n ≤ w) (tr : List Instr) (s : State) :
    playFor n (withWaits w tr) s = s := by
  cases tr with
  | nil => exact playFor_nil n s
  | cons op rest => exact (playFor_cons ..).trans (if_neg (Nat.not_lt.mpr h))

/-- A wait is that many cycles more. -/
theorem playFor_withWaits_add (n w : Nat) (tr : List Instr) (s : State) :
    playFor (n + w) (withWaits w tr) s = playFor n (withWaits 0 tr) s := by
  cases tr with
  | nil => exact (playFor_nil _ s).trans (playFor_nil _ s).symm
  | cons op rest =>
    refine (playFor_cons (n + w) w op _ s).trans (.trans ?_ (playFor_cons n 0 op _ s).symm)
    rw [Nat.add_sub_cancel]
    exact if_congr (by omega) rfl rfl

/-- A colour and its hold: once its cycle has come, what follows waits for the hold. -/
theorem playFor_emit {n w : Nat} (h : w < n) (v : Pixel) (k : Nat) (rest : List Instr) (s : State) :
    playFor n (withWaits w (.outColor v :: .pad k :: rest)) s =
      playFor (n - w) (withWaits k rest) (emit v k s) := by
  change playFor n (⟨w, .outColor v⟩ :: ⟨0, .pad k⟩ :: withWaits k rest) s = _
  rw [playFor_cons, if_pos h, playFor_cons, if_pos (Nat.sub_pos_of_lt h)]
  rfl

theorem emit_color {v : Pixel} (h : isEncoded v = true) (k : Nat) (s : State) :
    (emit v k s).color = setBits v :=
  driveColor_of_isEncoded h s.color

theorem emit_borderPx_color (c : Params) (k : Nat) (s : State) :
    (emit (borderPx c) k s).color = c.borderFlags :=
  driveColor_encodePixel s.color c.borderFlags

/-! ### The colour lines of a drawing -/

/-- Pixel `i` of a streaming loop shows for its `PIXEL_CYCLES` (42_scan_timing R99). -/
theorem playFor_streamTrace_color {px : Nat → Pixel} {cycles count i x w n : Nat}
    (hi : i < count) (hpx : isEncoded (px (x + i)) = true) (hlo : w + i * cycles < n)
    (hhi : n ≤ w + (i + 1) * cycles) (tail : List Instr) (s : State) :
    (playFor n (withWaits w (streamTrace px cycles count x ++ tail)) s).color =
      setBits (px (x + i)) := by
  obtain ⟨m, rfl⟩ : ∃ m, count = m + 1 := ⟨count - 1, by omega⟩
  rw [Nat.succ_mul] at hhi
  induction i generalizing m x w n s with
  | zero =>
    rw [streamTrace, List.cons_append, List.cons_append, playFor_emit (by omega),
      playFor_withWaits_before (by omega)]
    exact emit_color hpx cycles s
  | succ i ih =>
    obtain ⟨m, rfl⟩ : ∃ m', m = m' + 1 := ⟨m - 1, by omega⟩
    have hnext : x + (i + 1) = x + 1 + i := by omega
    rw [Nat.succ_mul] at hlo hhi
    rw [hnext] at hpx ⊢
    rw [streamTrace, List.cons_append, List.cons_append, playFor_emit (by omega)]
    exact ih hpx (by omega) (by omega) _ m (by omega)

/-- After a streaming loop the rest of the trace goes on. -/
theorem playFor_streamTrace_done {n : Nat} (hn : 0 < n) (px : Nat → Pixel) (cycles count x w : Nat)
    (tail : List Instr) (s : State) : ∃ s',
    playFor (n + (w + count * cycles)) (withWaits w (streamTrace px cycles count x ++ tail)) s =
      playFor n (withWaits 0 tail) s' := by
  induction count generalizing x w s with
  | zero => exact ⟨s, by rw [Nat.zero_mul]; exact playFor_withWaits_add n w tail s⟩
  | succ m ih =>
    obtain ⟨s', h⟩ := ih (x + 1) cycles (emit (px x) cycles s)
    refine ⟨s', ?_⟩
    have hcycles : n + (w + (m + 1) * cycles) - w = n + (cycles + m * cycles) := by
      rw [Nat.succ_mul]
      omega
    rw [streamTrace, List.cons_append, List.cons_append, playFor_emit (by omega), hcycles]
    exact h

/-- The end of a drawing: the right border for its cycles, then blank (42_scan_timing R99). -/
theorem playFor_finish_color (c : Params) {n : Nat} (hn : 0 < n) (s : State) :
    (playFor n (withWaits 0
        [.outColor (borderPx c), .pad c.borderCycles, .outColor blankPx]) s).color =
      if n ≤ c.borderCycles then c.borderFlags else 0 := by
  rw [playFor_emit hn]
  split_ifs with h
  · rw [playFor_withWaits_before (by omega)]
    exact emit_borderPx_color c _ s
  · have hblank : c.borderCycles < n - 0 := by omega
    change (playFor (n - 0) [⟨c.borderCycles, .outColor blankPx⟩] _).color = 0
    rw [playFor_cons, if_pos hblank, playFor_nil]
    exact driveColor_encodePixel _ 0

section
variable (c : Params) (px : Nat → Pixel) (s : State) {j : Nat}

theorem playFor_drawTrace_before (h : j < c.latAd) :
    playFor (j + 1) (schedule c .ad (drawTrace c px)) s = s :=
  playFor_withWaits_before h _ s

/-- From `LAT_AD` on the left border shows, and the streaming loop waits for it. -/
theorem playFor_drawTrace (h : c.latAd ≤ j) :
    playFor (j + 1) (schedule c .ad (drawTrace c px)) s =
      playFor (j + 1 - c.latAd) (withWaits c.borderCycles (streamTrace px c.pixelCycles c.w 0 ++
          [.outColor (borderPx c), .pad c.borderCycles, .outColor blankPx]))
        (emit (borderPx c) c.borderCycles s) := by
  rw [drawTrace_eq]
  exact playFor_emit (Nat.lt_succ_of_le h) ..

theorem playFor_drawTrace_leftBorder (h : c.latAd ≤ j) (hj : j < c.latAd + c.borderCycles) :
    (playFor (j + 1) (schedule c .ad (drawTrace c px)) s).color = c.borderFlags := by
  rw [playFor_drawTrace c px s h, playFor_withWaits_before (by omega)]
  exact emit_borderPx_color c _ s

theorem playFor_drawTrace_pixel {x : Nat} (hx : x < c.w) (hpx : isEncoded (px x) = true)
    (hlo : c.latAd + c.borderCycles + x * c.pixelCycles ≤ j)
    (hhi : j < c.latAd + c.borderCycles + (x + 1) * c.pixelCycles) :
    (playFor (j + 1) (schedule c .ad (drawTrace c px)) s).color = setBits (px x) := by
  rw [playFor_drawTrace c px s (by omega)]
  have hcolor := playFor_streamTrace_color (px := px) (x := 0) (n := j + 1 - c.latAd)
    (w := c.borderCycles) (cycles := c.pixelCycles) hx ((Nat.zero_add x).symm ▸ hpx)
    (by omega) (by omega)
  rw [Nat.zero_add] at hcolor
  exact hcolor _ _

theorem playFor_drawTrace_end (h : c.latAd + c.borderCycles + c.w * c.pixelCycles ≤ j) :
    (playFor (j + 1) (schedule c .ad (drawTrace c px)) s).color =
      if j < c.latAd + 2 * c.borderCycles + c.w * c.pixelCycles then c.borderFlags else 0 := by
  obtain ⟨i, rfl⟩ := Nat.exists_eq_add_of_le h
  have hcycles : c.latAd + c.borderCycles + c.w * c.pixelCycles + i + 1 - c.latAd =
      i + 1 + (c.borderCycles + c.w * c.pixelCycles) := by omega
  obtain ⟨s', hdone⟩ := playFor_streamTrace_done i.succ_pos px c.pixelCycles c.w 0 c.borderCycles
    [.outColor (borderPx c), .pad c.borderCycles, .outColor blankPx]
    (emit (borderPx c) c.borderCycles s)
  rw [playFor_drawTrace c px s (by omega), hcycles, hdone, playFor_finish_color c i.succ_pos]
  exact if_congr (by omega) rfl rfl

end

/-! ### The pixels of a line -/

/-- What `EV_AD` draws in pixel `x` of a line with video active: the cell of the row on an interior line,
the border on any other (42_scan_timing R100, R101). -/
def linePixel (s : State) (x : Nat) : Pixel :=
  if s.cfg.bandTop ≤ s.line ∧ s.line < s.cfg.bandBot then viewCell s s.row x else borderPx s.cfg

section
variable {s : State} (h : InRange s) (hv : s.vact = true)
include h hv

theorem row_lt_of_active : s.row < s.cfg.h := by
  have hvis : s.line < s.cfg.v := of_decide_eq_true (h.vact_eq.symm.trans hv)
  exact h.row_eq hvis ▸ row_lt_of_visible (admitted_facts h.admitted) hvis

theorem activeDraw_trace : (activeDraw s).trace = drawTrace s.cfg (linePixel s) := by
  by_cases hband : s.cfg.bandTop ≤ s.line ∧ s.line < s.cfg.bandBot
  · have hpx : linePixel s = viewCell s s.row := funext fun _ => if_pos hband
    rw [activeDraw_interior hv ((isInterior_iff _ _).mpr hband) (row_lt_of_active h hv), hpx]
  · have hpx : linePixel s = fun _ => borderPx s.cfg := funext fun _ => if_neg hband
    rw [activeDraw_border hv hband, hpx]

theorem isEncoded_linePixel (henc : CellsEncoded s) {x : Nat} (hx : x < s.cfg.w) :
    isEncoded (linePixel s x) = true := by
  unfold linePixel
  split_ifs
  · exact henc.now _ (flatIndex_lt (inRangeXY_iff.mpr ⟨hx, row_lt_of_active h hv⟩))
  · exact isEncoded_encodePixel _

theorem eventSchedule_activeDraw :
    eventSchedule .ad s = schedule s.cfg .ad (drawTrace s.cfg (linePixel s)) :=
  congrArg (schedule s.cfg .ad) (activeDraw_trace h hv)

end

theorem eventSchedule_activeDraw_inactive {s : State} (hv : s.vact = false) :
    eventSchedule .ad s = [] := by
  change schedule s.cfg .ad (activeDraw s).trace = []
  rw [activeDraw_inactive hv]
  rfl

/-- Settles O59: the schedule of a drawing has its hold for each segment, so the cycle of a segment does
not depend on what the pixels hold; with `VACT = 0` there is none. -/
theorem activeDrawWaveform : Obligations.ActiveDrawWaveform := by
  intro s j hvalid hpos h henc ht hot hbudget hentry hreset hhost hj
  have ha := admitted_facts h.admitted
  have hstart : StartsFreely .ad s := ⟨⟨hpos, h, ht, hot, hbudget, hreset⟩, hentry, hhost⟩
  obtain ⟨t, hsteps, hplays⟩ := hstart.plays hj
  refine ⟨t, hsteps, fun hv => ?_, fun hv => ?_⟩
  · rw [eventSchedule_activeDraw_inactive hv, playFor_nil] at hplays
    exact (hplays (Nat.zero_le _)).color
  · rw [eventSchedule_activeDraw h hv, outputCycles_drawTrace] at hplays
    have hcolor := (hplays ha.v10).color
    rw [hcolor]
    refine ⟨fun hj => ?_, fun hlo hhi => playFor_drawTrace_leftBorder _ _ s hlo hhi,
      fun x hx hlo hhi => ?_, fun hlo hhi => ?_, fun hlo => ?_⟩
    · rw [playFor_drawTrace_before _ _ s hj]
    · rw [playFor_drawTrace_pixel _ _ s hx (isEncoded_linePixel h hv henc hx) hlo hhi]
      refine ⟨fun hband => ?_, fun hband => ?_⟩
      · rw [linePixel, if_pos hband]
        rfl
      · rw [linePixel, if_neg hband]
        exact setBits_encodePixel _
    · exact (playFor_drawTrace_end _ _ s hlo).trans (if_pos hhi)
    · exact (playFor_drawTrace_end _ _ s (by omega)).trans (if_neg (Nat.not_lt.mpr hlo))

end Sys2Proof.Machine
end
